-- ==== Sys2Proof/Word.lean ====
section
/-! DEFINITION. The word types of the block: bit 0 is the least significant bit of each (R7). -/

namespace Sys2Proof

/-- A 32-bit register or data word (R73). -/
abbrev Word := BitVec 32

/-- An 8-bit command field, or a priority field (R91, R25). -/
abbrev Byte := BitVec 8

/-- A 16-bit register number, callback reference, or bank of one bit per line. -/
abbrev Half := BitVec 16

/-- A 64-bit command word, format `CMD64` (R90). -/
abbrev CmdWord := BitVec 64

/-- A callback reference as the field `H` carries it; 0 is the empty reference (R91, R34, D21). What a slot
holds of it has `CBREF_BITS` bits, a parameter (R6). -/
abbrev CbRef := BitVec 16

end Sys2Proof
end

