-- ==== Sys2Proof/Syntax.lean ====
section
/-! DEFINITION. The commands of the block (R94) and the enumerations their fields carry (R95). -/

namespace Sys2Proof

/-- The five grouping modes, in the document's order, numbers 0 to 4 (R27, R28). -/
inductive GroupingMode where
  | group16Sub0
  | group8Sub2
  | group4Sub4
  | group2Sub8
  | group0Sub16
  deriving DecidableEq, Repr

/-- Trigger mode of `EIR.SETTRIGGER`: 0 Disabled, 1 Enabled (R95). -/
inductive TriggerMode where
  | disabled
  | enabled
  deriving DecidableEq, Repr

/-- Edge of `EIR.SETEDGE`: 0 Rising, 1 Falling, 2 OnChange (R95). -/
inductive Edge where
  | rising
  | falling
  | onChange
  deriving DecidableEq, Repr

/-- Job mode of the timer's one job slot (R40). -/
inductive JobMode where
  | single
  | periodic
  deriving DecidableEq, Repr

/-- One constructor for each row of the opcode map (R94). Operands are the unsigned numbers the fields
carry, as wide as the field leaves them (R92); the value checks of R96 are not part of the syntax, so a
reserved mode or an index out of range is a term, which its meaning rejects. -/
inductive Instr where
  /-- `REG.RD n` (R110) -/
  | regRd (n : Half)
  /-- `REG.WR n, data` (R111) -/
  | regWr (n : Half) (data : Word)
  /-- `IC.ENABLE index` (R121) -/
  | icEnable (index : Byte)
  /-- `IC.DISABLE index` (R122) -/
  | icDisable (index : Byte)
  /-- `IC.SETPEND index` (R123) -/
  | icSetPend (index : Byte)
  /-- `IC.CLRPEND index` (R124) -/
  | icClrPend (index : Byte)
  /-- `IC.ISACTIVE index` (R125) -/
  | icIsActive (index : Byte)
  /-- `IC.SETGROUPING mode` (R126) -/
  | icSetGrouping (mode : BitVec 3)
  /-- `IC.SETPRIO index, group, subgroup` (R128) -/
  | icSetPrio (index group subgroup : Byte)
  /-- `IC.ENCPRIO mode, group, subgroup` (R129) -/
  | icEncPrio (mode : BitVec 3) (group subgroup : Byte)
  /-- `EIR.SETPORT port, line`: `sel` is the port's 4-bit selector (R144) -/
  | eirSetPort (line : Byte) (sel : BitVec 4)
  /-- `EIR.SETTRIGGER line, mode, edge`: `edge` is carried and ignored (R145, R98) -/
  | eirSetTrigger (line : Byte) (mode : TriggerMode) (edge : BitVec 2)
  /-- `EIR.SETEDGE line, edge` (R146) -/
  | eirSetEdge (line : Byte) (edge : BitVec 2)
  /-- `EIR.REGCB line, callback` (R147) -/
  | eirRegCb (line : Byte) (callback : CbRef)
  /-- `EIR.DISPATCH line` (R148) -/
  | eirDispatch (line : Byte)
  /-- `STS.INIT` (R165) -/
  | stsInit
  /-- `STS.BUSYWAIT ticks` (R166) -/
  | stsBusyWait (ticks : Word)
  /-- `STS.ELAPSED` (R167) -/
  | stsElapsed
  /-- `STS.REMAINING` (R168) -/
  | stsRemaining
  /-- `STS.SETSINGLE ticks, callback` (R169) -/
  | stsSetSingle (ticks : Word) (callback : CbRef)
  /-- `STS.SETPERIODIC ticks, callback` (R170) -/
  | stsSetPeriodic (ticks : Word) (callback : CbRef)
  /-- `STS.STOP` (R171) -/
  | stsStop
  /-- `STS.DISPATCH` (R172) -/
  | stsDispatch
  deriving DecidableEq, Repr

/-- The three pseudo-instructions, each a spelling of one real command (R100). -/
abbrev Instr.eirEnable (line : Byte) : Instr := .eirSetTrigger line .enabled 0
/-- `EIR.DISABLE line` (R100). -/
abbrev Instr.eirDisable (line : Byte) : Instr := .eirSetTrigger line .disabled 0
/-- `EIR.UNREGCB line` (R100). -/
abbrev Instr.eirUnregCb (line : Byte) : Instr := .eirRegCb line 0

end Sys2Proof
end

