-- ==== Sys2Proof/Config.lean ====
section
/-! DEFINITION. The parameters of the block (R5, R6), what is well formed of them, and the free values:
opaque constants for the parameters that R6 leaves open without a default. A `Config` stands in the
machine's state and no step changes it, so a statement about every state is a statement about every
setting of the parameters. -/

namespace Sys2Proof

/-- `NUM_SOURCES` (R5). -/
abbrev numSources : Nat := 240

/-- `NUM_LINES` (R5). -/
abbrev numLines : Nat := 16

/-- `PREEMPT_FIELD` (R6): the part of the priority field compared for preemption. -/
inductive PreemptField where
  | full
  | group
  deriving DecidableEq, Repr

/-- `ENC_OVERFLOW` (R6): what the encoder does with an operand wider than its field. -/
inductive EncOverflow where
  | truncate
  | overlay
  deriving DecidableEq, Repr

/-- `CTRL_FIELD_WRITE` (R6): whether a write of one field of `STS_CTRL` first reads the register. -/
inductive CtrlFieldWrite where
  | direct
  | rmw
  deriving DecidableEq, Repr

/-- The parameters that R6 makes arguments of the model. -/
structure Config where
  /-- `UNLOCK_KEY` -/
  unlockKey : BitVec 16
  /-- `GROUPSEL_POS` -/
  groupSelPos : Nat
  /-- `GROUPSEL_BITS` -/
  groupSelBits : Nat
  /-- `GROUPSEL(mode)` for modes 0 to 4 -/
  groupSelOf : Vector (BitVec 16) 5
  /-- `PORT_SELECTOR(port)` for each of the `N_PORTS` ports, by the port's name -/
  portSelector : List (String × BitVec 4)
  /-- `EIR_SRC(line)` for lines 0 to 15 -/
  eirSrc : Vector Nat 16
  /-- `STS_SRC` -/
  stsSrc : Nat
  /-- `TICK_BITS` -/
  tickBits : Nat
  /-- `STS_CFG_TICKINT` -/
  stsCfgTickInt : Bool
  /-- `STS_CFG_CLKSRC` -/
  stsCfgClkSrc : Bool
  /-- `STS_CALIB_VALUE` -/
  stsCalib : Word
  /-- `PREEMPT_FIELD` -/
  preemptField : PreemptField
  /-- `LATCH_WINDOW`; `none` is infinite -/
  latchWindow : Option Nat
  /-- `CBREF_BITS` -/
  cbrefBits : Nat
  /-- `ENC_OVERFLOW` -/
  encOverflow : EncOverflow
  /-- `KEY_READBACK` -/
  keyReadback : BitVec 16
  /-- `CTRL_FIELD_WRITE` -/
  ctrlFieldWrite : CtrlFieldWrite
  deriving DecidableEq, Repr

/-- Settings of the parameters that fit together: the grouping selector lies below the key and holds
every `GROUPSEL(mode)` (R26), no port is listed twice, every EIR and STS source exists and `STS_SRC` is no
EIR source (R196), and the timer registers fit their 32-bit word (R37). -/
def Config.wf (c : Config) : Bool :=
  c.groupSelPos + c.groupSelBits ≤ 16
    && c.groupSelOf.all (fun v => v.toNat < 2 ^ c.groupSelBits)
    && decide (c.portSelector.map Prod.fst).Nodup
    && c.eirSrc.all (fun i => i < numSources && i != c.stsSrc)
    && c.stsSrc < numSources
    && c.tickBits ≤ 32

/-- Free value (log 2): which of the 233 sources that no line uses `STS_SRC` is; R6 gives no default. -/
opaque Config.openStsSrcPick : Fin 233

/-- Free value (log 2): `STS_CFG_TICKINT`; R6 gives no default. -/
opaque Config.openStsCfgTickInt : Bool

/-- Free value (log 2): `STS_CFG_CLKSRC`; R6 gives no default. -/
opaque Config.openStsCfgClkSrc : Bool

/-- Free value (log 2): `STS_CALIB_VALUE`; R6 says any 32-bit value (U19). -/
opaque Config.openStsCalib : Word

/-- Free value (log 18): what a slot of `k` bits receives of a reference that is wider than it, as a command
can carry one when `CBREF_BITS` is below 16; no rule says. -/
opaque Config.openNarrowCallback : Nat → CbRef → CbRef

/-- Free value (log 17): the width of the subgroup part that the hardware selector gives for a
`GROUPSEL` above 7, of which `93_implementation_defined.md` Part 2 says nothing. -/
opaque Config.openSubgroupWidth : BitVec 16 → Nat

end Sys2Proof
end

