-- ==== Sys2Proof/Machine/Bits.lean ====
section
/-! DEFINITION. Bit-field helpers: one bit of a bank, the low bits of a value (R7). -/

namespace Sys2Proof.Machine

/-- Bit `i` of `v` made `b`; a bit outside the bank is dropped. -/
def setBit {n : Nat} (v : BitVec n) (i : Nat) (b : Bool) : BitVec n :=
  if b then v ||| (1#n <<< i) else v &&& ~~~(1#n <<< i)

/-- `trunc_k(v)` = `v mod 2^k`, on the width of `v` (R7). -/
def truncBits {n : Nat} (k : Nat) (v : BitVec n) : BitVec n := BitVec.ofNat n (v.toNat % 2 ^ k)

/-- Word `k` of a bank of one bit per source, 32 sources a word; sources above 239 read 0 (R71). -/
def bankWord (v : BitVec 240) (k : Nat) : Word := (v >>> (32 * k)).setWidth 32

/-- The bank with the ones of `d` in word `k`; the bits of sources above 239 are dropped (R71). -/
def bankMask (d : Word) (k : Nat) : BitVec 240 := (d.setWidth 240) <<< (32 * k)

end Sys2Proof.Machine
end

