-- ==== Sys2Proof/Machine/Params.lean ====
section
/-! DEFINITION. The parameter values that `State.reset` takes: the defaults of R6 (log 1), and the free
values of Config.lean for the parameters with no default (log 2). -/

namespace Sys2Proof.Machine

/-- `EIR_SRC`: lines 0..4 to sources 6..10, lines 5..9 to 23, lines 10..15 to 40 (R6). -/
def defaultEirSrc : Vector Nat 16 := #v[6, 7, 8, 9, 10, 23, 23, 23, 23, 23, 40, 40, 40, 40, 40, 40]

/-- `PORT_SELECTOR`: A = 0, B = 1, C = 2, D = 3, E = 4, H = 7 (R6). -/
def defaultPortSelector : List (String × BitVec 4) :=
  [("PORTA", 0), ("PORTB", 1), ("PORTC", 2), ("PORTD", 3), ("PORTE", 4), ("PORTH", 7)]

/-- The sources that no line uses under `defaultEirSrc`; `STS_SRC` must be one of them (R196). -/
def sourcesWithoutLine : List Nat :=
  (List.range numSources).filter fun i => !defaultEirSrc.contains i

/-- The defaults of R6; `STS_SRC` is a free choice among the sources without a line. -/
def defaultConfig : Config where
  unlockKey := 0x05FA
  groupSelPos := 8
  groupSelBits := 3
  groupSelOf := #v[3, 4, 5, 6, 7]
  portSelector := defaultPortSelector
  eirSrc := defaultEirSrc
  stsSrc := sourcesWithoutLine.getD Config.openStsSrcPick.val 0
  tickBits := 24
  stsCfgTickInt := Config.openStsCfgTickInt
  stsCfgClkSrc := Config.openStsCfgClkSrc
  stsCalib := Config.openStsCalib
  preemptField := .full
  latchWindow := none
  cbrefBits := 16
  encOverflow := .truncate
  keyReadback := 0xFA05
  ctrlFieldWrite := .direct

end Sys2Proof.Machine
end

