-- ==== Sys2Proof/Machine/State.lean ====
section
/-! DEFINITION. The state of the block (`10_state.md`), the agent steps still to come, the outputs, the
reasons a step can stop, and the state right after reset. Plain data throughout. -/

namespace Sys2Proof.Machine

/-- `HOST_BW` of a context: no busy-wait, or one between its start and its finish step, with the number
of count events seen while `IRQ_INHIBIT` = 1 without interruption (R42). -/
inductive BusyWait where
  | idle
  | spin (age : Nat)
  deriving DecidableEq, Repr

/-- How far the block's own dispatch routine has come in a context (log 10). `port` says whether the
routine was entered by a command, which is then owed a response (R213), or by a trap. -/
inductive Frame where
  /-- the body of a single-line EIR source, not begun (R210) -/
  | lineStart (line : Nat)
  /-- the callback of `line`, invoked and not returned (R148) -/
  | lineCall (line : Nat) (port : Bool)
  /-- the body of a group EIR source, with the lines still to be looked at (R211) -/
  | group (lines : List Nat)
  /-- the body of `STS_SRC`, not begun (R212) -/
  | stsStart
  /-- the timer's callback, invoked and not returned (R172) -/
  | stsCall (port : Bool)
  /-- the body of a source that neither the EIR nor the STS owns (R214) -/
  | foreign
  deriving DecidableEq, Repr

/-- A command-issuing context: its busy-wait (R42, R219) and its routines, innermost first. -/
structure Ctx where
  bw : BusyWait
  frames : List Frame
  deriving DecidableEq, Repr

/-- A handler entered and not exited: its source, an element of `IC_NEST` (R29), and its context. -/
structure Handler where
  source : Nat
  ctx : Ctx
  deriving DecidableEq, Repr

/-- Response statuses, codes 0, 1, 2 (R191). -/
inductive Status where
  | ok
  | invalidIndex
  | illegalCommand
  deriving DecidableEq, Repr

/-- The outputs of the block (R11). -/
inductive Output where
  /-- a response to the context that issued the command: main, or the handler of a source (R190) -/
  | response (issuer : Option Nat) (status : Status) (value : Word)
  /-- `CB(h)` on the invoke port (R215) -/
  | cb (h : CbRef)
  /-- the trap event `TAKE(i)` (R205) -/
  | take (i : Nat)
  /-- the trap event `EXIT(i)` (R208) -/
  | exit (i : Nat)
  deriving DecidableEq, Repr

/-- One step of one agent, as the schedule lists them (R9, log 5). A step that the state does not enable
does not occur (log 6). -/
inductive Event where
  /-- the running context presents a command word (R9, R215) -/
  | command (cw : CmdWord)
  /-- the next step of the running dispatch routine, or one poll of a busy-wait (R166, R210 to R212) -/
  | advance
  /-- the running callback, or the running environment handler body, returns (R214, R215) -/
  | ret
  /-- the take step (R205) -/
  | take
  /-- the exit step (R208) -/
  | exit
  /-- a pin changes level (R141) -/
  | pin (port line : Fin 16) (level : Bool)
  /-- a count event on `CNT[0]` (false) or `CNT[1]` (true) (R161) -/
  | count (input : Bool)
  /-- a request on `REQ_EXT[i]` (R202) -/
  | raise (i : Fin 240)
  /-- the platform drives `IRQ_INHIBIT` (R204) -/
  | inhibit (level : Bool)
  /-- the platform drives `RESET` (R230) -/
  | resetLine (level : Bool)
  /-- the count flag is lost after a finite latch window (R166, R245) -/
  | loseFlag
  deriving DecidableEq, Repr

/-- The machine stops with a fault: never. A rejected command responds with a status and the block goes
on (R190), and no rule of the spec stops the block, so there is no constructor and no one raises it. -/
inductive Fault where
  deriving DecidableEq, Repr

/-- The machine has no meaning for an instruction. -/
inductive Refusal where
  /-- An instruction without a meaning, raised by its arm of `exec` only; no arm raises it now. Safe: the
  model stops and claims nothing. -/
  | notModelled (mnemonic : String)
  deriving DecidableEq, Repr

/-- The whole machine: parameters, inputs, architectural state, schedule and outputs. -/
structure State where
  /-- the parameters of R5 and R6; no step changes them -/
  cfg : Config
  /-- the input `RESET`, 1 while asserted (R230) -/
  inReset : Bool
  /-- the input `IRQ_INHIBIT` (R204) -/
  irqInhibit : Bool
  /-- the pin inputs: bit `l` of entry `p` is the level of pin `l` of port `p` (R141) -/
  pins : Vector Half 16
  /-- `IC_ENABLE` (R22) -/
  icEnable : BitVec 240
  /-- `IC_PENDING` (R23) -/
  icPending : BitVec 240
  /-- `IC_ACTIVE` (R24) -/
  icActive : BitVec 240
  /-- bits 7:4 of `IC_PRIO`; bits 3:0 are hard-wired 0 and not stored (R25, D6) -/
  icPrio : Vector (BitVec 4) 240
  /-- `IC_PRICFG.GROUPSEL` (R26) -/
  icGroupSel : BitVec 16
  /-- `IC_GMODE` (R27) -/
  icGMode : GroupingMode
  /-- `EIR_CFG`, bits 15:0 of each word; bits 31:16 are reserved and not stored (R30, D36) -/
  eirCfg : Vector Half 4
  /-- `EIR_MASK` (R31) -/
  eirMask : Half
  /-- `EIR_RISE` (R32) -/
  eirRise : Half
  /-- `EIR_FALL` (R32) -/
  eirFall : Half
  /-- `EIR_PEND` (R33) -/
  eirPend : Half
  /-- `EIR_PREV` (R35) -/
  eirPrev : Half
  /-- `EIR_CB` (R34) -/
  eirCb : Vector CbRef 16
  /-- `STS_CTRL.ENABLE`, bit 0 (R36) -/
  stsEnable : Bool
  /-- `STS_CTRL.TICKINT`, bit 1 (R36) -/
  stsTickInt : Bool
  /-- `STS_CTRL.CLKSOURCE`, bit 2 (R36) -/
  stsClkSource : Bool
  /-- `STS_CTRL.COUNTFLAG`, bit 16 (R36) -/
  stsCountFlag : Bool
  /-- `STS_RELOAD` (R37) -/
  stsReload : Word
  /-- `STS_CURRENT` (R38) -/
  stsCurrent : Word
  /-- `STS_CB` (R40) -/
  stsCb : CbRef
  /-- `STS_MODE` (R40) -/
  stsMode : JobMode
  /-- the main context, with its `HOST_BW` (R42, R218) -/
  main : Ctx
  /-- the handler contexts, innermost first; their sources are `IC_NEST` (R29, R42, log 14) -/
  handlers : List Handler
  /-- the agent steps still to come, in order (log 5) -/
  schedule : List Event
  /-- everything emitted, newest first (log 9) -/
  outputs : List Output
  deriving DecidableEq, Repr

/-- A context that does nothing (R42). -/
def Ctx.start : Ctx := ⟨.idle, []⟩

/-- The state right after reset (R44, R231): every pin at level 0 (log 3), so every multiplexer output
and `EIR_PREV` 0, and `IRQ_INHIBIT` 0 (log 4). -/
def State.reset : State where
  cfg := defaultConfig
  inReset := false
  irqInhibit := false
  pins := Vector.replicate 16 0
  icEnable := 0
  icPending := 0
  icActive := 0
  icPrio := Vector.replicate 240 0
  icGroupSel := 0
  icGMode := .group16Sub0
  eirCfg := Vector.replicate 4 0
  eirMask := 0
  eirRise := 0
  eirFall := 0
  eirPend := 0
  eirPrev := 0
  eirCb := Vector.replicate 16 0
  stsEnable := false
  stsTickInt := false
  stsClkSource := false
  stsCountFlag := false
  stsReload := 0
  stsCurrent := 0
  stsCb := 0
  stsMode := .single
  main := Ctx.start
  handlers := []
  schedule := []
  outputs := []

/-- What a command's step answers. -/
abbrev Result := Host.Outcome State Fault Refusal

end Sys2Proof.Machine
end

