-- ==== Sys2Proof/Machine/Ports.lean ====
section
/-! DEFINITION. The outputs of the block (R11): emitting one, and the response that ends a command
(R190), with a value or with the status of a rejected command (R191). -/

namespace Sys2Proof.Machine

/-- `o` emitted. -/
def emit (o : Output) (s : State) : State := { s with outputs := o :: s.outputs }

/-- `IC_NEST`, innermost last (R29). -/
def nest (s : State) : List Nat := (s.handlers.map Handler.source).reverse

/-- The running context: `none` is main, `some i` the handler of source `i` (R9, R218). -/
def issuer (s : State) : Option Nat := s.handlers.head?.map Handler.source

/-- `respond(v)`: the command ends with status `OK` and value `v` (R8, R190). -/
def respond (v : Word) (s : State) : State := emit (.response (issuer s) .ok v) s

/-- `raise E`: the command ends with status `E` and no state change (R8, R190, R191). -/
def raise (e : Status) (s : State) : State := emit (.response (issuer s) e 0) s

end Sys2Proof.Machine
end

