-- ==== Sys2Proof/Machine/Operands.lean ====
section
/-! DEFINITION. The operand forms of the commands (R92, R95) with the value checks of R96: a source
index, a line number, a mode number, an edge code, a register number. -/

namespace Sys2Proof.Machine

/-- A source index, 0 to 239, else `InvalidIndex` before any state is touched (R120, R193). -/
def onSource (index : Byte) (s : State) (run : Nat → State) : Result :=
  .next (if index.toNat ≤ 239 then run index.toNat else raise .invalidIndex s)

/-- A line number, 0 to 15, else `InvalidIndex` before any state is touched (R140, R193). -/
def onLine (line : Byte) (s : State) (run : Nat → State) : Result :=
  .next (if line.toNat ≤ 15 then run line.toNat else raise .invalidIndex s)

/-- The mode a number names; 5, 6 and 7 are reserved (R95). -/
def modeOfNumber (mode : BitVec 3) : Option GroupingMode :=
  match mode.toNat with
  | 0 => some .group16Sub0
  | 1 => some .group8Sub2
  | 2 => some .group4Sub4
  | 3 => some .group2Sub8
  | 4 => some .group0Sub16
  | _ => none

/-- A grouping mode number, else `IllegalCommand` (R96, R126, R129). -/
def onMode (mode : BitVec 3) (s : State) (run : GroupingMode → State) : Result :=
  .next (match modeOfNumber mode with
    | some m => run m
    | none => raise .illegalCommand s)

/-- The edge a code names; 3 is reserved (R95). -/
def edgeOfCode (edge : BitVec 2) : Option Edge :=
  match edge.toNat with
  | 0 => some .rising
  | 1 => some .falling
  | 2 => some .onChange
  | _ => none

/-- An edge code and a line number: a reserved code is `IllegalCommand` even when the line is out of
range (R146, R194). -/
def onEdgeLine (line : Byte) (edge : BitVec 2) (s : State) (run : Edge → Nat → State) : Result :=
  match edgeOfCode edge with
  | some e => onLine line s (run e)
  | none => .next (raise .illegalCommand s)

/-- What a callback slot holds of a reference: `CBREF_BITS` bits (R34, R40), so the reference itself when it
fits. Of one that does not fit it is a free value of that width (log 18). -/
def heldCallback (c : Config) (h : CbRef) : CbRef :=
  if h.toNat < 2 ^ c.cbrefBits then h
  else truncBits c.cbrefBits (Config.openNarrowCallback c.cbrefBits h)

/-- A block register (R71). -/
inductive Reg where
  | iser (k : Nat)
  | icer (k : Nat)
  | ispr (k : Nat)
  | icpr (k : Nat)
  | iabr (k : Nat)
  | pricfg
  | pri (i : Nat)
  | imr
  | rtsr
  | ftsr
  | pr
  | eirCfg (r : Nat)
  | stsCtrl
  | stsReload
  | stsCurrent
  | stsCalib
  deriving DecidableEq, Repr

/-- The register a number names (R71); `none` for an unmapped number (R76). -/
def regOfNumber (n : Half) : Option Reg :=
  let a := n.toNat
  if a < 0x0008 then some (.iser a)
  else if a < 0x0010 then some (.icer (a - 0x0008))
  else if a < 0x0018 then some (.ispr (a - 0x0010))
  else if a < 0x0020 then some (.icpr (a - 0x0018))
  else if a < 0x0028 then some (.iabr (a - 0x0020))
  else if a = 0x0030 then some .pricfg
  else if 0x0100 ≤ a ∧ a < 0x01F0 then some (.pri (a - 0x0100))
  else if a = 0x0200 then some .imr
  else if a = 0x0201 then some .rtsr
  else if a = 0x0202 then some .ftsr
  else if a = 0x0203 then some .pr
  else if 0x0208 ≤ a ∧ a < 0x020C then some (.eirCfg (a - 0x0208))
  else if a = 0x0300 then some .stsCtrl
  else if a = 0x0301 then some .stsReload
  else if a = 0x0302 then some .stsCurrent
  else if a = 0x0303 then some .stsCalib
  else none

/-- A register number, else `IllegalCommand` (R76, R110, R111). -/
def onReg (n : Half) (s : State) (run : Reg → State) : Result :=
  .next (match regOfNumber n with
    | some r => run r
    | none => raise .illegalCommand s)

end Sys2Proof.Machine
end

