-- ==== Sys2Proof/Machine/Flags.lean ====
section
/-! DEFINITION. The flags of the block (R43) and how they come to be set: the timer's count flag, the
line multiplexer and edge detector behind `EIR_PEND`, and the level requests behind `IC_PENDING`. -/

namespace Sys2Proof.Machine

/-- What precedes a write of one field of `STS_CTRL` by an operation: nothing, or, with
`CTRL_FIELD_WRITE` = rmw, a read of the register, which clears `COUNTFLAG` (R164). -/
def beforeFieldWrite (s : State) : State :=
  match s.cfg.ctrlFieldWrite with
  | .direct => s
  | .rmw => { s with stsCountFlag := false }

/-- `STS_CTRL.ENABLE <- b` by an operation (R164). -/
def setTimerEnable (b : Bool) (s : State) : State := { beforeFieldWrite s with stsEnable := b }

/-- The states of the timer's dispatcher (R41). -/
inductive TimerState where
  | stopped
  | running (mode : JobMode)
  deriving DecidableEq, Repr

/-- The dispatcher state is a function of `ENABLE` and `STS_MODE` (R41). -/
def timerState (s : State) : TimerState := if s.stsEnable then .running s.stsMode else .stopped

/-- `EIR_PORTSEL(l)` = `EIR_CFG[l div 4][4*(l mod 4)+3 : 4*(l mod 4)]` (R30). -/
def portSel (s : State) (l : Nat) : BitVec 4 :=
  (s.eirCfg[l / 4]?.getD 0).extractLsb' (4 * (l % 4)) 4

/-- Some port has the selector value `p` (R6, R141). -/
def portExists (c : Config) (p : Nat) : Bool := c.portSelector.any fun e => e.2.toNat == p

/-- `MUX(l)` = `PIN[EIR_PORTSEL(l)][l]`, 0 for a selector that no port has (R141). -/
def muxLevel (s : State) (l : Nat) : Bool :=
  portExists s.cfg (portSel s l).toNat
    && (s.pins[(portSel s l).toNat]?.getD 0).getLsbD l

/-- The levels of all 16 multiplexer outputs. -/
def muxLevels (s : State) : Half :=
  (List.range 16).foldl (fun v l => setBit v l (muxLevel s l)) 0

/-- Whether the detector of line `l` sees a selected edge (R142). -/
def edgeSeen (s : State) (l : Nat) : Bool :=
  (!s.eirPrev.getLsbD l && muxLevel s l && s.eirRise.getLsbD l)
    || (s.eirPrev.getLsbD l && !muxLevel s l && s.eirFall.getLsbD l)

/-- The edge detector of line `l` runs (R142). -/
def detectLine (l : Nat) (s : State) : State :=
  { s with
    eirPend := if edgeSeen s l then setBit s.eirPend l true else s.eirPend
    eirPrev := setBit s.eirPrev l (muxLevel s l) }

/-- The edge detectors of some lines run (R142). -/
def detectLines (ls : List Nat) (s : State) : State := ls.foldl (fun t l => detectLine l t) s

/-- `EIR_REQ(l)` for all lines: pending and enabled (R143). -/
def lineRequests (s : State) : Half := s.eirPend &&& s.eirMask

/-- `EIR_SRC(l)` (R6). -/
def eirSource (c : Config) (l : Nat) : Nat := c.eirSrc[l]?.getD 0

/-- The lines that request on source `i`, in ascending order (R143, R196). -/
def linesOf (c : Config) (i : Nat) : List Nat := (List.range 16).filter fun l => eirSource c l == i

/-- The requests of the EIR sources: for each source the OR over its lines (R143). -/
def sourceLevels (s : State) : BitVec 240 :=
  (List.range 16).foldl
    (fun v l => if (lineRequests s).getLsbD l then setBit v (eirSource s.cfg l) true else v) 0

/-- The pend step of the EIR sources: a source whose request is high and which is not active is made
pending; part of every step that can make that condition true (R200, log 15). -/
def pendLevels (s : State) : State :=
  { s with icPending := s.icPending ||| (sourceLevels s &&& ~~~s.icActive) }

end Sys2Proof.Machine
end

