-- ==== Sys2Proof/Machine/Priority.lean ====
section
/-! DEFINITION. The priority encoder (R127) and arbitration (R203 to R206). -/

namespace Sys2Proof.Machine

/-- `sw`, the subgroup width of a mode, which is the mode's number (R27, R28). -/
def subWidth : GroupingMode → Nat
  | .group16Sub0 => 0
  | .group8Sub2 => 1
  | .group4Sub4 => 2
  | .group2Sub8 => 3
  | .group0Sub16 => 4

/-- `gw` = `4 - sw`, the group width of a mode (R28). -/
def groupWidth (m : GroupingMode) : Nat := 4 - subWidth m

/-- `encodePriority(mode, group, subgroup)` (R127), and its alternative `ENC_OVERFLOW` = overlay
(`93_implementation_defined.md` Part 2). -/
def encodePriority (o : EncOverflow) (m : GroupingMode) (group subgroup : Byte) : Byte :=
  match o with
  | .truncate =>
    ((truncBits (groupWidth m) group <<< subWidth m) ||| truncBits (subWidth m) subgroup) <<< 4
  | .overlay =>
    ((group.setWidth 16 <<< (8 - groupWidth m)) ||| (subgroup.setWidth 16 <<< 4)).setWidth 8
      &&& 0xF0

/-- `IC_PRIO[i]`: the stored bits 7:4 above bits 3:0 hard-wired 0; also `ord(i)` (R25, R203). -/
def prioField (s : State) (i : Nat) : Byte := (s.icPrio[i]?.getD 0) ++ 0#4

/-- `sw_hw`, the subgroup width that the hardware selector gives (`93_implementation_defined.md` Part 2);
not stated above 7, there a free value (log 17). -/
def hwSubWidth (g : BitVec 16) : Nat :=
  match g.toNat with
  | 0 | 1 | 2 | 3 => 0
  | 4 => 1
  | 5 => 2
  | 6 => 3
  | 7 => 4
  | _ => Config.openSubgroupWidth g

/-- `pre(i)`, the value compared for preemption: the whole field, or its group part (R203). -/
def preValue (s : State) (i : Nat) : Nat :=
  match s.cfg.preemptField with
  | .full => (prioField s i).toNat
  | .group => (prioField s i).toNat >>> (4 + hwSubWidth s.icGroupSel)

/-- The current priority of the main context: less urgent than any source (R203). -/
def idlePriority (c : Config) : Nat :=
  match c.preemptField with
  | .full => 256
  | .group => 16

/-- `CUR` = `min { pre(j) : j in IC_NEST }`, read at the moment of the comparison (R203). -/
def currentPriority (s : State) : Nat :=
  s.handlers.foldl (fun m h => min m (preValue s h.source)) (idlePriority s.cfg)

/-- `j` is in `Cand`: pending, enabled and not active (R205). -/
def candidate (s : State) (j : Nat) : Bool :=
  s.icPending.getLsbD j && s.icEnable.getLsbD j && !s.icActive.getLsbD j

/-- The most urgent candidate among the sources below `n`: the smallest priority field, and among
equals the smallest index (R205, R206). -/
def bestBelow (s : State) : Nat → Option Nat
  | 0 => none
  | n + 1 =>
    match bestBelow s n with
    | none => if candidate s n then some n else none
    | some j => if candidate s n && prioField s n < prioField s j then some n else some j

/-- `best`, if `Cand` is not empty (R205). -/
def best (s : State) : Option Nat := bestBelow s numSources

/-- The source whose take step is enabled: `best`, when `IRQ_INHIBIT` = 0 and `pre(best) < CUR`
(R204, R205). -/
def takeable (s : State) : Option Nat :=
  match best s with
  | some b => if !s.irqInhibit && preValue s b < currentPriority s then some b else none
  | none => none

end Sys2Proof.Machine
end

