-- ==== Sys2Proof/Machine/Ops.lean ====
section
/-! DEFINITION. The operations the commands share: the running context, the register space (R70 to
R78), the writes of IC, EIR and STS state, invoking a callback and the dispatch routines (R148, R172,
R215), taking a trap and returning from one (R205, R208), busy-wait steps (R166), the counter (R161)
and reset (R230). -/

namespace Sys2Proof.Machine

/-! ### The running context -/

/-- The running context: the innermost handler's, or main (R9). -/
def ctx (s : State) : Ctx :=
  match s.handlers with
  | [] => s.main
  | h :: _ => h.ctx

/-- The running context replaced. -/
def setCtx (c : Ctx) (s : State) : State :=
  match s.handlers with
  | [] => { s with main := c }
  | h :: hs => { s with handlers := { h with ctx := c } :: hs }

/-- The routines of the running context replaced. -/
def setFrames (fs : List Frame) (s : State) : State := setCtx { ctx s with frames := fs } s

/-- `HOST_BW` of the running context replaced (R42). -/
def setBusyWait (b : BusyWait) (s : State) : State := setCtx { ctx s with bw := b } s

/-- Whether the innermost routine of a context lets commands be issued: main outside any routine, a
running callback, or an environment handler body (R9, R214, R215). -/
def framesIssue (inMain : Bool) : List Frame → Bool
  | [] => inMain
  | .lineCall _ _ :: _ => true
  | .stsCall _ :: _ => true
  | .foreign :: _ => true
  | .lineStart _ :: _ => false
  | .group _ :: _ => false
  | .stsStart :: _ => false

/-- Whether the running context can issue a command: reset is not asserted (R230), it is not in a
busy-wait (R166), and its routine lets commands be issued. -/
def canIssue (s : State) : Bool :=
  !s.inReset && decide ((ctx s).bw = .idle) && framesIssue s.handlers.isEmpty (ctx s).frames

/-! ### The register space -/

/-- The value a register reads (R72). -/
def regValue (s : State) : Reg → Word
  | .iser k => bankWord s.icEnable k
  | .icer k => bankWord s.icEnable k
  | .ispr k => bankWord s.icPending k
  | .icpr k => bankWord s.icPending k
  | .iabr k => bankWord s.icActive k
  | .pricfg => (s.cfg.keyReadback ++ 0#16) ||| (s.icGroupSel.setWidth 32 <<< s.cfg.groupSelPos)
  | .pri i => (prioField s i).setWidth 32
  | .imr => s.eirMask.setWidth 32
  | .rtsr => s.eirRise.setWidth 32
  | .ftsr => s.eirFall.setWidth 32
  | .pr => s.eirPend.setWidth 32
  | .eirCfg r => (s.eirCfg[r]?.getD 0).setWidth 32
  | .stsCtrl =>
    setBit (setBit (setBit (setBit 0#32 0 s.stsEnable) 1 s.stsTickInt) 2 s.stsClkSource)
      16 s.stsCountFlag
  | .stsReload => s.stsReload
  | .stsCurrent => s.stsCurrent
  | .stsCalib => s.cfg.stsCalib

/-- The read side effect: only the read of `STS_CTRL` has one, it clears `COUNTFLAG` (R72, R78). -/
def afterRead (r : Reg) (s : State) : State :=
  match r with
  | .stsCtrl => { s with stsCountFlag := false }
  | .iser _ | .icer _ | .ispr _ | .icpr _ | .iabr _ | .pricfg | .pri _ | .imr | .rtsr | .ftsr => s
  | .pr | .eirCfg _ | .stsReload | .stsCurrent | .stsCalib => s

/-- `MemRead(n, 4)`: the value, then the side effect (R8, R72). -/
def memRead (r : Reg) (s : State) : Word × State := (regValue s r, afterRead r s)

/-- `GROUPSEL` of a word written to `IC_PRICFG` (R26). -/
def groupSelOfWord (c : Config) (v : Word) : BitVec 16 :=
  (truncBits c.groupSelBits (v >>> c.groupSelPos)).setWidth 16

/-- A write of `IC_PRICFG`, ignored unless bits 31:16 are the key (R26, R72). -/
def writePricfg (v : Word) (s : State) : State :=
  if v.extractLsb' 16 16 = s.cfg.unlockKey then
    { s with icGroupSel := groupSelOfWord s.cfg v }
  else s

/-- A write of `IC_PRIO[i]`: `{v[7:4], 0b0000}` (R25, R72). -/
def writePrio (i : Nat) (v : Word) (s : State) : State :=
  { s with icPrio := s.icPrio.setIfInBounds i (v.extractLsb' 4 4) }

/-- A write of `EIR_CFG[r]` without its detectors: bits 15:0, the rest ignored (R30, R72). -/
def storeEirCfg (r : Nat) (v : Word) (s : State) : State :=
  { s with eirCfg := s.eirCfg.setIfInBounds r (v.setWidth 16) }

/-- `MemWrite(n, 4, v)` (R8, R72), with the pend step of R200 where the write can raise a request. -/
def memWrite (r : Reg) (v : Word) (s : State) : State :=
  match r with
  | .iser k => { s with icEnable := s.icEnable ||| bankMask v k }
  | .icer k => { s with icEnable := s.icEnable &&& ~~~bankMask v k }
  | .ispr k => { s with icPending := s.icPending ||| bankMask v k }
  | .icpr k => pendLevels { s with icPending := s.icPending &&& ~~~bankMask v k }
  | .iabr _ => s
  | .pricfg => writePricfg v s
  | .pri i => writePrio i v s
  | .imr => pendLevels { s with eirMask := v.setWidth 16 }
  | .rtsr => { s with eirRise := v.setWidth 16 }
  | .ftsr => { s with eirFall := v.setWidth 16 }
  | .pr => { s with eirPend := s.eirPend &&& ~~~v.setWidth 16 }
  | .eirCfg r =>
    pendLevels (detectLines [4 * r, 4 * r + 1, 4 * r + 2, 4 * r + 3] (storeEirCfg r v s))
  | .stsCtrl =>
    { s with
      stsEnable := v.getLsbD 0
      stsTickInt := v.getLsbD 1
      stsClkSource := v.getLsbD 2 }
  | .stsReload => { s with stsReload := truncBits s.cfg.tickBits v }
  | .stsCurrent => { s with stsCurrent := 0, stsCountFlag := false }
  | .stsCalib => s

/-! ### Dispatch routines -/

/-- The response owed by a dispatch that a command entered; a trap-path dispatch has none (R195, R213). -/
def dispatchDone (port : Bool) (s : State) : State := if port then respond 0 s else s

/-- The end of the routine of line `l`: the pending flag is cleared, with or without a callback (R148). -/
def finishLine (l : Nat) (port : Bool) (s : State) : State :=
  dispatchDone port { s with eirPend := setBit s.eirPend l false }

/-- `Invoke(h)`: emit `CB(h)`; the callback runs in the running context until it returns (R215). -/
def invoke (h : CbRef) (f : Frame) (s : State) : State :=
  emit (.cb h) (setFrames (f :: (ctx s).frames) s)

/-- The dispatch routine of line `l` up to its callback, or to its end when the slot is empty (R148). -/
def dispatchLine (l : Nat) (port : Bool) (s : State) : State :=
  if s.eirCb[l]?.getD 0 ≠ 0 then invoke (s.eirCb[l]?.getD 0) (.lineCall l port) s
  else finishLine l port s

/-- The end of the timer's routine after its callback: a Single job, by the mode as it then is, stops
the counter (R172). -/
def finishTimer (port : Bool) (s : State) : State :=
  dispatchDone port (if s.stsMode = .single then setTimerEnable false s else s)

/-- The dispatch routine of the timer up to its callback; with an empty slot it does nothing (R172). -/
def dispatchTimer (port : Bool) (s : State) : State :=
  if s.stsCb ≠ 0 then invoke s.stsCb (.stsCall port) s else dispatchDone port s

/-! ### Taking a trap and returning from one -/

/-- The handler body of source `i`, by its owner (R196, R210 to R212, R214). -/
def handlerBody (c : Config) (i : Nat) : List Frame :=
  match linesOf c i with
  | [] => if i = c.stsSrc then [.stsStart] else [.foreign]
  | [l] => [.lineStart l]
  | l :: m :: ls => [.group (l :: m :: ls)]

/-- `TAKE(i)`: pending cleared, active set, `i` pushed on `IC_NEST`, the event emitted, the running
context suspended and the handler body of `i` at its start, its `HOST_BW` Idle (R42, R205, R209). -/
def takeTrap (i : Nat) (s : State) : State :=
  emit (.take i)
    { s with
      icPending := setBit s.icPending i false
      icActive := setBit s.icActive i true
      handlers := ⟨i, ⟨.idle, handlerBody s.cfg i⟩⟩ :: s.handlers }

/-- The source whose exit step is enabled: the innermost, when its body has finished and its `HOST_BW`
is Idle (R42, R208). -/
def exitable (s : State) : Option Nat :=
  match s.handlers with
  | h :: _ => if h.ctx = Ctx.start then some h.source else none
  | [] => none

/-- `EXIT(i)` of the innermost handler: active cleared, `i` popped, the event emitted, an EIR source
whose request is still high made pending again; the suspended context runs on (R200, R208). -/
def exitTrap (i : Nat) (s : State) : State :=
  pendLevels (emit (.exit i)
    { s with icActive := setBit s.icActive i false, handlers := s.handlers.tail })

/-! ### Busy-wait -/

/-- `STS_RELOAD <- trunc(ticks)`, then `STS_CURRENT <- 0` and `COUNTFLAG <- 0` (R163, R166, R169). -/
def loadTimer (ticks : Word) (s : State) : State :=
  memWrite .stsCurrent 0 (memWrite .stsReload ticks s)

/-- The start step of a busy-wait (R166). -/
def busyWaitStart (ticks : Word) (s : State) : State :=
  setBusyWait (.spin 0) (setTimerEnable true (loadTimer ticks s))

/-- The finish step of a busy-wait (R166). -/
def busyWaitFinish (s : State) : State :=
  respond 0 (setBusyWait .idle (setTimerEnable false (loadTimer 0 s)))

/-- One poll of a busy-wait: it reads `STS_CTRL`, which clears `COUNTFLAG`, and goes on to the finish
step in the same step when the flag was set (R166). -/
def busyWaitPoll (s : State) : State :=
  if (memRead .stsCtrl s).1.getLsbD 16 then busyWaitFinish (memRead .stsCtrl s).2
  else (memRead .stsCtrl s).2

/-- A busy-wait's age after a count event under inhibit (R42, R166). -/
def BusyWait.older : BusyWait → BusyWait
  | .idle => .idle
  | .spin age => .spin (age + 1)

/-- A busy-wait's age after a step with `IRQ_INHIBIT` = 0 (R166). -/
def BusyWait.young : BusyWait → BusyWait
  | .idle => .idle
  | .spin _ => .spin 0

/-- `f` on the `HOST_BW` of every context. -/
def mapBusyWaits (f : BusyWait → BusyWait) (s : State) : State :=
  { s with
    main := { s.main with bw := f s.main.bw }
    handlers := s.handlers.map fun h => { h with ctx := { h.ctx with bw := f h.ctx.bw } } }

/-- Any step with `IRQ_INHIBIT` = 0 resets every age (R166, log 12); while `RESET` is asserted no step
changes the block (R230). -/
def settle (s : State) : State :=
  if s.irqInhibit || s.inReset then s else mapBusyWaits BusyWait.young s

/-- Whether a busy-wait is older than `n`. -/
def BusyWait.olderThan (n : Nat) : BusyWait → Bool
  | .idle => false
  | .spin age => n < age

/-- Whether the flag-losing step is enabled: `LATCH_WINDOW` is finite and some busy-wait is older (R166). -/
def flagMayBeLost (s : State) : Bool :=
  match s.cfg.latchWindow with
  | none => false
  | some n => s.main.bw.olderThan n || s.handlers.any fun h => h.ctx.bw.olderThan n

/-! ### The counter -/

/-- A count event that counts (R161): at 0 the counter reloads; else it counts down, and on reaching 0
sets the flag and, with `TICKINT` = 1, makes `STS_SRC` pending. -/
def countDown (s : State) : State :=
  if s.stsCurrent = 0 then { s with stsCurrent := s.stsReload }
  else if s.stsCurrent = 1 then
    { s with
      stsCurrent := 0
      stsCountFlag := true
      icPending := if s.stsTickInt then setBit s.icPending s.cfg.stsSrc true else s.icPending }
  else { s with stsCurrent := s.stsCurrent - 1 }

/-- A count event on one of the two inputs: it counts on the selected one with `ENABLE` = 1, and under
inhibit every busy-wait grows older (R161, R166). -/
def countEvent (input : Bool) (s : State) : State :=
  if s.stsEnable && s.stsClkSource == input then
    countDown (if s.irqInhibit then mapBusyWaits BusyWait.older s else s)
  else s

/-! ### Reset -/

/-- The block at the release of `RESET`: every element at its reset value, `EIR_PREV` at the level of
each multiplexer output; parameters, pins and the other inputs are not touched (R44, R230, R232). -/
def resetBlock (s : State) : State :=
  let t := { State.reset with
    cfg := s.cfg
    irqInhibit := s.irqInhibit
    pins := s.pins
    schedule := s.schedule
    outputs := s.outputs }
  { t with eirPrev := muxLevels t }

end Sys2Proof.Machine
end

