-- ==== Sys2Proof/Machine/Eir.lean ====
section
/-! DEFINITION. The External Interrupt Router's commands (`42_eir.md`). -/

namespace Sys2Proof.Machine

/-- The word `EIR.SETPORT` writes back: the line's selector field replaced (R144). -/
def withSelector (old : Word) (l : Nat) (sel : BitVec 4) : Word :=
  (old &&& ~~~(0xF#32 <<< (4 * (l % 4)))) ||| (sel.setWidth 32 <<< (4 * (l % 4)))

/-- `EIR.SETPORT port, line`: a read-modify-write of the line's configuration register in one step, then
the edge detector of this line; the multiplexers of the register's other lines keep their selectors and
cannot change (R144, R142, log 16). -/
def execEirSetPort (line : Byte) (sel : BitVec 4) (s : State) : Result :=
  onLine line s fun l =>
    respond 0 (pendLevels (detectLine l
      (storeEirCfg (l / 4) (withSelector (memRead (.eirCfg (l / 4)) s).1 l sel) s)))

/-- `EIR.SETTRIGGER line, mode [, edge]`: the mask bit only; `edge` is ignored (R145, R98). -/
def execEirSetTrigger (line : Byte) (mode : TriggerMode) (_edge : BitVec 2) (s : State) : Result :=
  onLine line s fun l =>
    respond 0 (pendLevels { s with eirMask := setBit s.eirMask l (mode == .enabled) })

/-- `EIR.SETEDGE line, edge` (R146). -/
def execEirSetEdge (line : Byte) (edge : BitVec 2) (s : State) : Result :=
  onEdgeLine line edge s fun e l =>
    respond 0
      { s with
        eirRise := setBit s.eirRise l (e != .falling)
        eirFall := setBit s.eirFall l (e != .rising) }

/-- `EIR.REGCB line, callback`, the slot being `CBREF_BITS` wide (R147, R34). -/
def execEirRegCb (line : Byte) (callback : CbRef) (s : State) : Result :=
  onLine line s fun l =>
    respond 0 { s with eirCb := s.eirCb.setIfInBounds l (heldCallback s.cfg callback) }

/-- `EIR.DISPATCH line`: the routine of the line, entered from the command port (R148, R213). -/
def execEirDispatch (line : Byte) (s : State) : Result :=
  onLine line s fun l => dispatchLine l true s

end Sys2Proof.Machine
end

