-- ==== Sys2Proof/Machine/Ic.lean ====
section
/-! DEFINITION. The Interrupt Controller's commands (`41_ic.md`). -/

namespace Sys2Proof.Machine

/-- `IC.ENABLE index` (R121). -/
def execIcEnable (index : Byte) (s : State) : Result :=
  onSource index s fun i => respond 0 { s with icEnable := setBit s.icEnable i true }

/-- `IC.DISABLE index` (R122). -/
def execIcDisable (index : Byte) (s : State) : Result :=
  onSource index s fun i => respond 0 { s with icEnable := setBit s.icEnable i false }

/-- `IC.SETPEND index` (R123). -/
def execIcSetPend (index : Byte) (s : State) : Result :=
  onSource index s fun i => respond 0 { s with icPending := setBit s.icPending i true }

/-- `IC.CLRPEND index`: an EIR source whose request is high is made pending again (R124, R200). -/
def execIcClrPend (index : Byte) (s : State) : Result :=
  onSource index s fun i =>
    respond 0 (pendLevels { s with icPending := setBit s.icPending i false })

/-- `IC.ISACTIVE index` (R125). -/
def execIcIsActive (index : Byte) (s : State) : Result :=
  onSource index s fun i => respond (if s.icActive.getLsbD i then 1 else 0) s

/-- The word `IC.SETGROUPING` writes: the key in bits 31:16, the selector in its field, zero elsewhere
(R126, D9). -/
def groupingWord (c : Config) (m : GroupingMode) : Word :=
  (c.unlockKey ++ 0#16) ||| ((c.groupSelOf[subWidth m]?.getD 0).setWidth 32 <<< c.groupSelPos)

/-- `IC.SETGROUPING mode` (R126). -/
def execIcSetGrouping (mode : BitVec 3) (s : State) : Result :=
  onMode mode s fun m =>
    respond 0 { memWrite .pricfg (groupingWord s.cfg m) s with icGMode := m }

/-- `IC.SETPRIO index, group, subgroup`, encoded under the active mode (R128). -/
def execIcSetPrio (index group subgroup : Byte) (s : State) : Result :=
  onSource index s fun i =>
    respond 0 (memWrite (.pri i)
      ((encodePriority s.cfg.encOverflow s.icGMode group subgroup).setWidth 32) s)

/-- `IC.ENCPRIO mode, group, subgroup` (R129). -/
def execIcEncPrio (mode : BitVec 3) (group subgroup : Byte) (s : State) : Result :=
  onMode mode s fun m =>
    respond ((encodePriority s.cfg.encOverflow m group subgroup).setWidth 32) s

end Sys2Proof.Machine
end

