-- ==== Sys2Proof/Machine/RegAccess.lean ====
section
/-! DEFINITION. The raw register access commands `REG.RD` and `REG.WR` (`40_register_access.md`). -/

namespace Sys2Proof.Machine

/-- `REG.RD n` (R110). -/
def execRegRd (n : Half) (s : State) : Result :=
  onReg n s fun r => respond (memRead r s).1 (memRead r s).2

/-- `REG.WR n, data` (R111). -/
def execRegWr (n : Half) (data : Word) (s : State) : Result :=
  onReg n s fun r => respond 0 (memWrite r data s)

end Sys2Proof.Machine
end

