-- ==== Sys2Proof/Machine/Sts.lean ====
section
/-! DEFINITION. The System Timer Service's commands (`43_sts.md`). -/

namespace Sys2Proof.Machine

/-- `STS.INIT`: `TICKINT` and `CLKSOURCE` from the static configuration; each is a write of one field
(R164, R165). -/
def execStsInit (s : State) : Result :=
  .next (respond 0
    { beforeFieldWrite s with
      stsTickInt := s.cfg.stsCfgTickInt
      stsClkSource := s.cfg.stsCfgClkSrc })

/-- `STS.BUSYWAIT ticks`: the start step; the polls and the finish step are steps of their own, and the
response comes with the finish step (R166). -/
def execStsBusyWait (ticks : Word) (s : State) : Result := .next (busyWaitStart ticks s)

/-- `STS.ELAPSED`: `reload - current` modulo 2^32 (R167). -/
def execStsElapsed (s : State) : Result :=
  .next (respond ((memRead .stsReload s).1 - (memRead .stsCurrent s).1) s)

/-- `STS.REMAINING`: `current` (R168). -/
def execStsRemaining (s : State) : Result := .next (respond (memRead .stsCurrent s).1 s)

/-- A job put into the slot, `CBREF_BITS` wide, and the counter started (R169, R170, R40). -/
def startJob (m : JobMode) (ticks : Word) (callback : CbRef) (s : State) : State :=
  setTimerEnable true
    { loadTimer ticks s with stsCb := heldCallback s.cfg callback, stsMode := m }

/-- `STS.SETSINGLE ticks, callback` (R169). -/
def execStsSetSingle (ticks : Word) (callback : CbRef) (s : State) : Result :=
  .next (respond 0 (startJob .single ticks callback s))

/-- `STS.SETPERIODIC ticks, callback` (R170). -/
def execStsSetPeriodic (ticks : Word) (callback : CbRef) (s : State) : Result :=
  .next (respond 0 (startJob .periodic ticks callback s))

/-- `STS.STOP`: `ENABLE` only (R171). -/
def execStsStop (s : State) : Result := .next (respond 0 (setTimerEnable false s))

/-- `STS.DISPATCH`: the routine of the timer, entered from the command port (R172, R213). -/
def execStsDispatch (s : State) : Result := .next (dispatchTimer true s)

end Sys2Proof.Machine
end

