-- ==== Sys2Proof/Machine/Dispatch.lean ====
section
/-! DEFINITION. One arm per command (R94): the meaning of each, issued by the running context. -/

namespace Sys2Proof.Machine

def exec (i : Instr) (s : State) : Host.Outcome State Fault Refusal :=
  match i with
  | .regRd n => Sys2Proof.Machine.execRegRd n s
  | .regWr n data => Sys2Proof.Machine.execRegWr n data s
  | .icEnable index => Sys2Proof.Machine.execIcEnable index s
  | .icDisable index => Sys2Proof.Machine.execIcDisable index s
  | .icSetPend index => Sys2Proof.Machine.execIcSetPend index s
  | .icClrPend index => Sys2Proof.Machine.execIcClrPend index s
  | .icIsActive index => Sys2Proof.Machine.execIcIsActive index s
  | .icSetGrouping mode => Sys2Proof.Machine.execIcSetGrouping mode s
  | .icSetPrio index group subgroup => Sys2Proof.Machine.execIcSetPrio index group subgroup s
  | .icEncPrio mode group subgroup => Sys2Proof.Machine.execIcEncPrio mode group subgroup s
  | .eirSetPort line sel => Sys2Proof.Machine.execEirSetPort line sel s
  | .eirSetTrigger line mode edge => Sys2Proof.Machine.execEirSetTrigger line mode edge s
  | .eirSetEdge line edge => Sys2Proof.Machine.execEirSetEdge line edge s
  | .eirRegCb line callback => Sys2Proof.Machine.execEirRegCb line callback s
  | .eirDispatch line => Sys2Proof.Machine.execEirDispatch line s
  | .stsInit => Sys2Proof.Machine.execStsInit s
  | .stsBusyWait ticks => Sys2Proof.Machine.execStsBusyWait ticks s
  | .stsElapsed => Sys2Proof.Machine.execStsElapsed s
  | .stsRemaining => Sys2Proof.Machine.execStsRemaining s
  | .stsSetSingle ticks callback => Sys2Proof.Machine.execStsSetSingle ticks callback s
  | .stsSetPeriodic ticks callback => Sys2Proof.Machine.execStsSetPeriodic ticks callback s
  | .stsStop => Sys2Proof.Machine.execStsStop s
  | .stsDispatch => Sys2Proof.Machine.execStsDispatch s

end Sys2Proof.Machine
end

