-- ==== Sys2Proof/Decode.lean ====
section
/-! DEFINITION. The command word `CMD64` (R90 to R98): its fields, the opcode map as R94 prints it, the
decoder, and the encoder. The decoder is total and rejects by name; both rejections are
`IllegalCommand` at the command port (R97). The value checks of R96 are the meanings'. -/

namespace Sys2Proof

/-- The fields of `CMD64` (R91). -/
structure Fields where
  opc : Byte
  c : Byte
  b : Byte
  a : Byte
  w : Word
  deriving DecidableEq, Repr

/-- The fields of a command word: OPC 63:56, C 55:48, B 47:40, A 39:32, W 31:0 (R91). -/
def Fields.ofWord (cw : CmdWord) : Fields where
  opc := cw.extractLsb' 56 8
  c := cw.extractLsb' 48 8
  b := cw.extractLsb' 40 8
  a := cw.extractLsb' 32 8
  w := cw.extractLsb' 0 32

/-- The command word of its fields (R91). -/
def Fields.toWord (f : Fields) : CmdWord := f.opc ++ (f.c ++ (f.b ++ (f.a ++ f.w)))

/-- The alias `H` = `{C, B}`, a callback reference (R91). -/
def Fields.h (f : Fields) : CbRef := f.c ++ f.b

/-- The alias `N` = `{B, A}`, a register number (R91). -/
def Fields.n (f : Fields) : Half := f.b ++ f.a

/-- Why a word matches no row of the opcode map; both are `IllegalCommand` (R97). -/
inductive DecodeError where
  /-- `OPC` is not in the table -/
  | reservedOpcode
  /-- a must-be-zero bit of the row is not zero -/
  | mustBeZero
  deriving DecidableEq, Repr

/-- `i` where the must-be-zero fields of its row are zero. -/
def whenZero (ok : Bool) (i : Instr) : Except DecodeError Instr :=
  if ok then .ok i else .error .mustBeZero

/-- The trigger mode carried in `C[0]` (R95). -/
def triggerOfBit (b : Bool) : TriggerMode := if b then .enabled else .disabled

/-- The row a word's fields match, with its operands, or the reason why none does (R93, R94). -/
def decodeFields (f : Fields) : Except DecodeError Instr :=
  match f.opc.toNat with
  | 0x01 => whenZero (f.c == 0 && f.w == 0) (.regRd f.n)
  | 0x02 => whenZero (f.c == 0) (.regWr f.n f.w)
  | 0x10 => whenZero (f.b == 0 && f.c == 0 && f.w == 0) (.icEnable f.a)
  | 0x11 => whenZero (f.b == 0 && f.c == 0 && f.w == 0) (.icDisable f.a)
  | 0x12 => whenZero (f.b == 0 && f.c == 0 && f.w == 0) (.icSetPend f.a)
  | 0x13 => whenZero (f.b == 0 && f.c == 0 && f.w == 0) (.icClrPend f.a)
  | 0x14 => whenZero (f.b == 0 && f.c == 0 && f.w == 0) (.icIsActive f.a)
  | 0x15 => whenZero (f.a.extractLsb' 3 5 == 0 && f.b == 0 && f.c == 0 && f.w == 0)
      (.icSetGrouping (f.a.extractLsb' 0 3))
  | 0x16 => whenZero (f.w == 0) (.icSetPrio f.a f.b f.c)
  | 0x17 => whenZero (f.a.extractLsb' 3 5 == 0 && f.w == 0)
      (.icEncPrio (f.a.extractLsb' 0 3) f.b f.c)
  | 0x20 => whenZero (f.b.extractLsb' 4 4 == 0 && f.c == 0 && f.w == 0)
      (.eirSetPort f.a (f.b.extractLsb' 0 4))
  | 0x21 => whenZero (f.b == 0 && f.c.extractLsb' 3 5 == 0 && f.w == 0)
      (.eirSetTrigger f.a (triggerOfBit (f.c.getLsbD 0)) (f.c.extractLsb' 1 2))
  | 0x22 => whenZero (f.b == 0 && f.c.extractLsb' 2 6 == 0 && f.w == 0)
      (.eirSetEdge f.a (f.c.extractLsb' 0 2))
  | 0x23 => whenZero (f.w == 0) (.eirRegCb f.a f.h)
  | 0x2F => whenZero (f.b == 0 && f.c == 0 && f.w == 0) (.eirDispatch f.a)
  | 0x30 => whenZero (f.a == 0 && f.b == 0 && f.c == 0 && f.w == 0) .stsInit
  | 0x31 => whenZero (f.a == 0 && f.b == 0 && f.c == 0) (.stsBusyWait f.w)
  | 0x32 => whenZero (f.a == 0 && f.b == 0 && f.c == 0 && f.w == 0) .stsElapsed
  | 0x33 => whenZero (f.a == 0 && f.b == 0 && f.c == 0 && f.w == 0) .stsRemaining
  | 0x34 => whenZero (f.a == 0) (.stsSetSingle f.w f.h)
  | 0x35 => whenZero (f.a == 0) (.stsSetPeriodic f.w f.h)
  | 0x36 => whenZero (f.a == 0 && f.b == 0 && f.c == 0 && f.w == 0) .stsStop
  | 0x3F => whenZero (f.a == 0 && f.b == 0 && f.c == 0 && f.w == 0) .stsDispatch
  | _ => .error .reservedOpcode

/-- The decoder of R93, without the value checks of R96. -/
def decode (cw : CmdWord) : Except DecodeError Instr := decodeFields (Fields.ofWord cw)

/-- The instruction that the decoder reads from an instruction of `nbits` bits whose number is `w`, bits
above `nbits` being 0. A command is one 64-bit word and a number, with no byte order (R74). -/
def decodeTableWord (nbits w : Nat) : Option Instr :=
  (decode (BitVec.ofNat 64 (w % 2 ^ nbits))).toOption

/-- The operation code of a command (R94). -/
def Instr.opcode : Instr → Byte
  | .regRd _ => 0x01
  | .regWr _ _ => 0x02
  | .icEnable _ => 0x10
  | .icDisable _ => 0x11
  | .icSetPend _ => 0x12
  | .icClrPend _ => 0x13
  | .icIsActive _ => 0x14
  | .icSetGrouping _ => 0x15
  | .icSetPrio _ _ _ => 0x16
  | .icEncPrio _ _ _ => 0x17
  | .eirSetPort _ _ => 0x20
  | .eirSetTrigger _ _ _ => 0x21
  | .eirSetEdge _ _ => 0x22
  | .eirRegCb _ _ => 0x23
  | .eirDispatch _ => 0x2F
  | .stsInit => 0x30
  | .stsBusyWait _ => 0x31
  | .stsElapsed => 0x32
  | .stsRemaining => 0x33
  | .stsSetSingle _ _ => 0x34
  | .stsSetPeriodic _ _ => 0x35
  | .stsStop => 0x36
  | .stsDispatch => 0x3F

/-- The bit `C[0]` that carries a trigger mode (R95). -/
def TriggerMode.bit : TriggerMode → BitVec 1
  | .disabled => 0
  | .enabled => 1

/-- The low half of a 16-bit operand, `A` of `N` and `B` of `H` (R91). -/
def lowByte (v : BitVec 16) : Byte := v.extractLsb' 0 8

/-- The high half of a 16-bit operand, `B` of `N` and `C` of `H` (R91). -/
def highByte (v : BitVec 16) : Byte := v.extractLsb' 8 8

/-- The fields of a command: the columns A, B, C, W of the opcode map (R94). -/
def Instr.fields (i : Instr) : Fields :=
  match i with
  | .regRd n => ⟨i.opcode, 0, highByte n, lowByte n, 0⟩
  | .regWr n data => ⟨i.opcode, 0, highByte n, lowByte n, data⟩
  | .icEnable index => ⟨i.opcode, 0, 0, index, 0⟩
  | .icDisable index => ⟨i.opcode, 0, 0, index, 0⟩
  | .icSetPend index => ⟨i.opcode, 0, 0, index, 0⟩
  | .icClrPend index => ⟨i.opcode, 0, 0, index, 0⟩
  | .icIsActive index => ⟨i.opcode, 0, 0, index, 0⟩
  | .icSetGrouping mode => ⟨i.opcode, 0, 0, 0#5 ++ mode, 0⟩
  | .icSetPrio index group subgroup => ⟨i.opcode, subgroup, group, index, 0⟩
  | .icEncPrio mode group subgroup => ⟨i.opcode, subgroup, group, 0#5 ++ mode, 0⟩
  | .eirSetPort line sel => ⟨i.opcode, 0, 0#4 ++ sel, line, 0⟩
  | .eirSetTrigger line mode edge => ⟨i.opcode, 0#5 ++ (edge ++ mode.bit), 0, line, 0⟩
  | .eirSetEdge line edge => ⟨i.opcode, 0#6 ++ edge, 0, line, 0⟩
  | .eirRegCb line callback => ⟨i.opcode, highByte callback, lowByte callback, line, 0⟩
  | .eirDispatch line => ⟨i.opcode, 0, 0, line, 0⟩
  | .stsInit => ⟨i.opcode, 0, 0, 0, 0⟩
  | .stsBusyWait ticks => ⟨i.opcode, 0, 0, 0, ticks⟩
  | .stsElapsed => ⟨i.opcode, 0, 0, 0, 0⟩
  | .stsRemaining => ⟨i.opcode, 0, 0, 0, 0⟩
  | .stsSetSingle ticks callback => ⟨i.opcode, highByte callback, lowByte callback, 0, ticks⟩
  | .stsSetPeriodic ticks callback => ⟨i.opcode, highByte callback, lowByte callback, 0, ticks⟩
  | .stsStop => ⟨i.opcode, 0, 0, 0, 0⟩
  | .stsDispatch => ⟨i.opcode, 0, 0, 0, 0⟩

/-- The command word of a command (R94). -/
def encode (i : Instr) : CmdWord := i.fields.toWord

/-- One row of the opcode map of R94 and of `spec/opcode_table.json`. -/
structure OpcodeRow where
  mnemonic : String
  matchBits : CmdWord
  mask : CmdWord
  deriving DecidableEq, Repr

/-- A word is of a row when `(cw & mask) = match` (R93). -/
def OpcodeRow.hits (r : OpcodeRow) (cw : CmdWord) : Bool := cw &&& r.mask == r.matchBits

/-- The row of a command: mnemonic, match and mask as R94 prints them. -/
def Instr.row : Instr → OpcodeRow
  | .regRd _ => ⟨"REG.RD", 0x0100000000000000, 0xFFFF0000FFFFFFFF⟩
  | .regWr _ _ => ⟨"REG.WR", 0x0200000000000000, 0xFFFF000000000000⟩
  | .icEnable _ => ⟨"IC.ENABLE", 0x1000000000000000, 0xFFFFFF00FFFFFFFF⟩
  | .icDisable _ => ⟨"IC.DISABLE", 0x1100000000000000, 0xFFFFFF00FFFFFFFF⟩
  | .icSetPend _ => ⟨"IC.SETPEND", 0x1200000000000000, 0xFFFFFF00FFFFFFFF⟩
  | .icClrPend _ => ⟨"IC.CLRPEND", 0x1300000000000000, 0xFFFFFF00FFFFFFFF⟩
  | .icIsActive _ => ⟨"IC.ISACTIVE", 0x1400000000000000, 0xFFFFFF00FFFFFFFF⟩
  | .icSetGrouping _ => ⟨"IC.SETGROUPING", 0x1500000000000000, 0xFFFFFFF8FFFFFFFF⟩
  | .icSetPrio _ _ _ => ⟨"IC.SETPRIO", 0x1600000000000000, 0xFF000000FFFFFFFF⟩
  | .icEncPrio _ _ _ => ⟨"IC.ENCPRIO", 0x1700000000000000, 0xFF0000F8FFFFFFFF⟩
  | .eirSetPort _ _ => ⟨"EIR.SETPORT", 0x2000000000000000, 0xFFFFF000FFFFFFFF⟩
  | .eirSetTrigger _ _ _ => ⟨"EIR.SETTRIGGER", 0x2100000000000000, 0xFFF8FF00FFFFFFFF⟩
  | .eirSetEdge _ _ => ⟨"EIR.SETEDGE", 0x2200000000000000, 0xFFFCFF00FFFFFFFF⟩
  | .eirRegCb _ _ => ⟨"EIR.REGCB", 0x2300000000000000, 0xFF000000FFFFFFFF⟩
  | .eirDispatch _ => ⟨"EIR.DISPATCH", 0x2F00000000000000, 0xFFFFFF00FFFFFFFF⟩
  | .stsInit => ⟨"STS.INIT", 0x3000000000000000, 0xFFFFFFFFFFFFFFFF⟩
  | .stsBusyWait _ => ⟨"STS.BUSYWAIT", 0x3100000000000000, 0xFFFFFFFF00000000⟩
  | .stsElapsed => ⟨"STS.ELAPSED", 0x3200000000000000, 0xFFFFFFFFFFFFFFFF⟩
  | .stsRemaining => ⟨"STS.REMAINING", 0x3300000000000000, 0xFFFFFFFFFFFFFFFF⟩
  | .stsSetSingle _ _ => ⟨"STS.SETSINGLE", 0x3400000000000000, 0xFF0000FF00000000⟩
  | .stsSetPeriodic _ _ => ⟨"STS.SETPERIODIC", 0x3500000000000000, 0xFF0000FF00000000⟩
  | .stsStop => ⟨"STS.STOP", 0x3600000000000000, 0xFFFFFFFFFFFFFFFF⟩
  | .stsDispatch => ⟨"STS.DISPATCH", 0x3F00000000000000, 0xFFFFFFFFFFFFFFFF⟩

/-- One command of each row, in the order of R94. -/
def oneOfEachRow : List Instr :=
  [.regRd 0, .regWr 0 0, .icEnable 0, .icDisable 0, .icSetPend 0, .icClrPend 0, .icIsActive 0,
   .icSetGrouping 0, .icSetPrio 0 0 0, .icEncPrio 0 0 0, .eirSetPort 0 0,
   .eirSetTrigger 0 .disabled 0, .eirSetEdge 0 0, .eirRegCb 0 0, .eirDispatch 0, .stsInit,
   .stsBusyWait 0, .stsElapsed, .stsRemaining, .stsSetSingle 0 0, .stsSetPeriodic 0 0, .stsStop,
   .stsDispatch]

/-- The opcode map (R94). -/
def opcodeMap : List OpcodeRow := oneOfEachRow.map Instr.row

end Sys2Proof
end

