-- ==== Sys2Proof/Machine/Events.lean ====
section
/-! DEFINITION. The steps of the agents other than commands (R9): the dispatch routines and busy-waits
going on, callbacks returning, take and exit, pins, count events, requests, the platform's inputs; what
the block does with no step scheduled; and how a command reaches the decoder. -/

namespace Sys2Proof.Machine

/-- The next step of the running dispatch routine. A group entry looks at one line a step and runs the
routine of a requesting line, skipping the others (R210 to R212, log 10). -/
def advanceFrames (s : State) : List Frame → State
  | .lineStart l :: fs => dispatchLine l false (setFrames fs s)
  | .group [] :: fs => setFrames fs s
  | .group (l :: ls) :: fs =>
    if (lineRequests s).getLsbD l then dispatchLine l false (setFrames (.group ls :: fs) s)
    else setFrames (.group ls :: fs) s
  | .stsStart :: fs => dispatchTimer false (setFrames fs s)
  | [] | .lineCall _ _ :: _ | .stsCall _ :: _ | .foreign :: _ => s

/-- One poll of the running context's busy-wait, or the next step of its routine (R166). -/
def advance (s : State) : State :=
  match (ctx s).bw with
  | .spin _ => busyWaitPoll s
  | .idle => advanceFrames s (ctx s).frames

/-- Whether `advance` is a step of the block: the context polls, or its routine has a next step. -/
def canAdvance (s : State) : Bool :=
  match (ctx s).bw, (ctx s).frames with
  | .spin _, _ => true
  | .idle, .lineStart _ :: _ => true
  | .idle, .group _ :: _ => true
  | .idle, .stsStart :: _ => true
  | .idle, _ => false

/-- The innermost callback, or environment handler body, returns: the rest of the routine that invoked
it runs (R148, R172, R214, R215). -/
def returnFrames (s : State) : List Frame → State
  | .lineCall l port :: fs => finishLine l port (setFrames fs s)
  | .stsCall port :: fs => finishTimer port (setFrames fs s)
  | .foreign :: fs => setFrames fs s
  | [] | .lineStart _ :: _ | .group _ :: _ | .stsStart :: _ => s

/-- A return, which waits for the context's busy-wait (R166, R215). -/
def returnStep (s : State) : State :=
  match (ctx s).bw with
  | .spin _ => s
  | .idle => returnFrames s (ctx s).frames

/-- Whether `returnStep` is a step of the running context. -/
def canReturn (s : State) : Bool :=
  match (ctx s).bw, (ctx s).frames with
  | .idle, .lineCall _ _ :: _ => true
  | .idle, .stsCall _ :: _ => true
  | .idle, .foreign :: _ => true
  | _, _ => false

/-- The take step, when enabled (R205). -/
def takeStep (s : State) : State :=
  match takeable s with
  | some i => takeTrap i s
  | none => s

/-- The exit step, when enabled (R208). -/
def exitStep (s : State) : State :=
  match exitable s with
  | some i => exitTrap i s
  | none => s

/-- The level of pin `l` of port `p` stored; a port that does not exist has the constant 0 (R141). -/
def setPin (p l : Nat) (level : Bool) (s : State) : State :=
  if portExists s.cfg p then
    { s with pins := s.pins.setIfInBounds p (setBit (s.pins[p]?.getD 0) l level) }
  else s

/-- A step of the PINS agent, with the edge detector of line `l` in the same step (R141, R142). -/
def pinStep (p l : Nat) (level : Bool) (s : State) : State :=
  pendLevels (detectLine l (setPin p l level s))

/-- A request on `REQ_EXT[i]`, an input only of a source that neither the EIR nor the STS owns (R11,
R202). -/
def raiseRequest (i : Nat) (s : State) : State :=
  if linesOf s.cfg i = [] ∧ i ≠ s.cfg.stsSrc then
    { s with icPending := setBit s.icPending i true }
  else s

/-- The flag-losing step, when enabled (R166). -/
def loseFlagStep (s : State) : State :=
  if flagMayBeLost s then { s with stsCountFlag := false } else s

/-- `RESET` driven: nothing in the block changes while it is asserted, and its release gives every
element its reset value (R230, log 11). -/
def driveReset (level : Bool) (s : State) : State :=
  if level then { s with inReset := true }
  else if s.inReset then resetBlock s else s

/-- A step of an agent while `RESET` is asserted: only the inputs change (R230, R232). -/
def stepInReset (e : Event) (s : State) : State :=
  match e with
  | .pin p l level => setPin p.val l.val level s
  | .inhibit level => { s with irqInhibit := level }
  | .resetLine level => driveReset level s
  | .command _ | .advance | .ret | .take | .exit | .count _ | .raise _ | .loseFlag => s

/-- A step of an agent, other than a command, while `RESET` is released (R9). -/
def agentStep (e : Event) (s : State) : State :=
  match e with
  | .command _ => s
  | .advance => advance s
  | .ret => returnStep s
  | .take => takeStep s
  | .exit => exitStep s
  | .pin p l level => pinStep p.val l.val level s
  | .count input => countEvent input s
  | .raise i => raiseRequest i.val s
  | .inhibit level => { s with irqInhibit := level }
  | .resetLine level => driveReset level s
  | .loseFlag => loseFlagStep s

/-- A step of an agent that is no accepted command. -/
def environmentStep (e : Event) (s : State) : State :=
  if s.inReset then stepInReset e s else agentStep e s

/-- What the block's own agents do with no step scheduled: an enabled take is not postponed for ever
(R205), a dispatch routine goes on, a callback returns (R215), a finished handler exits (log 7). -/
def ownStep (s : State) : State :=
  if s.inReset then s
  else if (takeable s).isSome then takeStep s
  else if canAdvance s then advance s
  else if canReturn s then returnStep s
  else exitStep s

/-- What the next step of the machine runs. -/
inductive Fetched where
  /-- a command the running context issues, decoded -/
  | instruction (i : Instr)
  /-- a command word that matches no row of the opcode map (R97) -/
  | illegal
  /-- a step of another agent, or a command that is not accepted -/
  | event (e : Event)
  /-- no step is scheduled -/
  | nothing
  deriving DecidableEq, Repr

/-- The next scheduled step, a command decoded when the running context can issue it. -/
def fetch (s : State) : Fetched :=
  match s.schedule with
  | [] => .nothing
  | .command cw :: _ =>
    if canIssue s then
      match decode cw with
      | .ok i => .instruction i
      | .error _ => .illegal
    else .event (.command cw)
  | e :: _ => .event e

/-- The schedule without the step that is taken. -/
def dropScheduled (s : State) : State := { s with schedule := s.schedule.tail }

/-- A result with the ages settled, as every step leaves them (R166). -/
def settleResult : Result → Result
  | .next s => .next (settle s)
  | .fault f => .fault f
  | .refused r => .refused r

/-- The running context made able to issue a command, when it is not. -/
def makeReady (s : State) : State :=
  if canIssue s then s
  else setCtx ⟨.idle, if s.handlers.isEmpty then [] else [.foreign]⟩ { s with inReset := false }

/-- A command presented as the very next step. -/
def presentCommand (cw : CmdWord) (s : State) : State :=
  { makeReady s with schedule := .command cw :: s.schedule }

end Sys2Proof.Machine
end

