-- ==== Sys2Proof/Machine/Step.lean ====
section
/-! DEFINITION. One step of the machine: the next scheduled step of an agent, or, with none, a step of
the block's own agents. -/

namespace Sys2Proof.Machine

/-- One step (R9, R79): all steps of all agents in one total order. -/
def step (s : State) : Host.Outcome State Fault Refusal :=
  match fetch s with
  | .instruction i => settleResult (exec i (dropScheduled s))
  | .illegal => settleResult (.next (raise .illegalCommand (dropScheduled s)))
  | .event e => settleResult (.next (environmentStep e (dropScheduled s)))
  | .nothing => settleResult (.next (ownStep s))

/-- `s` with the command word of `nbits` bits and number `w` presented as the very next step (log 5). -/
def State.withFetchWord (s : State) (nbits w : Nat) : State :=
  presentCommand (BitVec.ofNat 64 (w % 2 ^ nbits)) s

end Sys2Proof.Machine
end

