-- ==== Sys2Proof/WellFormed.lean ====
section
/-! DEFINITION. The value checks of R96 on the syntax: a command is legal when no check of R96 (1) or
(2) fails (else `IllegalCommand`, R192), in range when check (3) passes (else `InvalidIndex`, R193),
and well formed when both hold. They are computed, so that `decide` runs on them. -/

namespace Sys2Proof

/-- The register numbers of the map of R71. -/
def regMapped (n : Half) : Bool :=
  n.toNat ≤ 0x0027 || n.toNat == 0x0030 || (0x0100 ≤ n.toNat && n.toNat ≤ 0x01EF)
    || (0x0200 ≤ n.toNat && n.toNat ≤ 0x0203) || (0x0208 ≤ n.toNat && n.toNat ≤ 0x020B)
    || (0x0300 ≤ n.toNat && n.toNat ≤ 0x0303)

/-- No reserved enumeration value and no unmapped register number (R96 (1) and (2), R192). -/
def Instr.legal : Instr → Bool
  | .regRd n => regMapped n
  | .regWr n _ => regMapped n
  | .icSetGrouping mode => mode.toNat ≤ 4
  | .icEncPrio mode _ _ => mode.toNat ≤ 4
  | .eirSetEdge _ edge => edge.toNat ≤ 2
  | .icEnable _ | .icDisable _ | .icSetPend _ | .icClrPend _ | .icIsActive _ | .icSetPrio _ _ _ => true
  | .eirSetPort _ _ | .eirSetTrigger _ _ _ | .eirRegCb _ _ | .eirDispatch _ => true
  | .stsInit | .stsBusyWait _ | .stsElapsed | .stsRemaining | .stsSetSingle _ _ => true
  | .stsSetPeriodic _ _ | .stsStop | .stsDispatch => true

/-- Source index at most 239, line number at most 15 (R96 (3), R193). -/
def Instr.inRange : Instr → Bool
  | .icEnable index | .icDisable index | .icSetPend index | .icClrPend index => index.toNat ≤ 239
  | .icIsActive index | .icSetPrio index _ _ => index.toNat ≤ 239
  | .eirSetPort line _ | .eirSetTrigger line _ _ | .eirSetEdge line _ => line.toNat ≤ 15
  | .eirRegCb line _ | .eirDispatch line => line.toNat ≤ 15
  | .regRd _ | .regWr _ _ | .icSetGrouping _ | .icEncPrio _ _ _ => true
  | .stsInit | .stsBusyWait _ | .stsElapsed | .stsRemaining | .stsSetSingle _ _ => true
  | .stsSetPeriodic _ _ | .stsStop | .stsDispatch => true

/-- Every value check of R96 passes. -/
def Instr.wellFormed (i : Instr) : Bool := i.legal && i.inRange

end Sys2Proof
end

