-- ==== Sys2Proof/Safety.lean ====
section
/-! DEFINITION. What counts as a safe state and a safe run: the invariants the spec states of the
block's state, and the outputs that report a rejected command. -/

namespace Sys2Proof.Machine

/-- `i` is in `IC_NEST` exactly when `IC_ACTIVE[i]` = 1, and no index occurs twice (R29). -/
def NestIsActive (s : State) : Prop :=
  (nest s).Nodup ∧ ∀ i, i ∈ nest s ↔ s.icActive.getLsbD i = true

/-- A source whose request is high and which is not active is pending (R200). -/
def LevelsArePended (s : State) : Prop :=
  ∀ l, s.eirPend.getLsbD l = true → s.eirMask.getLsbD l = true →
    s.icActive.getLsbD (s.cfg.eirSrc[l]?.getD 0) = false →
    s.icPending.getLsbD (s.cfg.eirSrc[l]?.getD 0) = true

/-- While `RESET` is released, the detector of each line has seen the level its multiplexer now has
(R35, R142). -/
def PrevIsMux (s : State) : Prop :=
  s.inReset = false → ∀ l, l < 16 → s.eirPrev.getLsbD l = muxLevel s l

/-- The timer registers hold at most `TICK_BITS` bits (R37, R38). -/
def TicksFit (s : State) : Prop :=
  s.stsReload.toNat < 2 ^ s.cfg.tickBits ∧ s.stsCurrent.toNat < 2 ^ s.cfg.tickBits

/-- `GROUPSEL` holds at most `GROUPSEL_BITS` bits (R26). -/
def SelectorFits (s : State) : Prop := s.icGroupSel.toNat < 2 ^ s.cfg.groupSelBits

/-- Every callback slot holds at most `CBREF_BITS` bits (R34, R40). -/
def CallbacksFit (s : State) : Prop :=
  (∀ l, l < 16 → (s.eirCb[l]?.getD 0).toNat < 2 ^ s.cfg.cbrefBits) ∧
    s.stsCb.toNat < 2 ^ s.cfg.cbrefBits

/-- The invariant of the block. -/
structure BlockInv (s : State) : Prop where
  cfgWf : s.cfg.wf = true
  nestIsActive : NestIsActive s
  levelsArePended : LevelsArePended s
  prevIsMux : PrevIsMux s
  ticksFit : TicksFit s
  selectorFits : SelectorFits s
  callbacksFit : CallbacksFit s

/-- The request of source `i`: the OR of `EIR_REQ(l)` = `EIR_PEND[l] & EIR_MASK[l]` over the lines `l` with
`EIR_SRC(l)` = `i` (R143), written out so that a statement does not rest on the step's own functions. -/
def requestHigh (s : State) (i : Nat) : Bool :=
  (List.range 16).any fun l =>
    s.eirPend.getLsbD l && s.eirMask.getLsbD l && s.cfg.eirSrc[l]?.getD 0 == i

/-- The outputs after a response to the running context, the innermost handler's or main (R190). -/
def responded (e : Status) (v : Word) (s : State) : List Output :=
  .response (s.handlers.head?.map Handler.source) e v :: s.outputs

/-- `e` is the next scheduled step of `s`, `rest` the steps after it, and `RESET` is released. -/
def Next (e : Event) (rest : List Event) (s : State) : Prop :=
  s.schedule = e :: rest ∧ s.inReset = false

/-- Every context but the running one is the same in `t` as in `s`, and so is the nesting. -/
def SuspendedKept (s t : State) : Prop :=
  nest t = nest s ∧ t.handlers.tail = s.handlers.tail ∧ (s.handlers ≠ [] → t.main = s.main)

/-- An output that reports a rejected command (R191). -/
def Output.isRejection : Output → Bool
  | .response _ .invalidIndex _ => true
  | .response _ .illegalCommand _ => true
  | .response _ .ok _ => false
  | .cb _ => false
  | .take _ => false
  | .exit _ => false

/-- A run so far in which no command was rejected. -/
def NoRejections (s : State) : Prop := s.outputs.all (fun o => !o.isRejection) = true

end Sys2Proof.Machine
end

