-- ==== Sys2Proof/Certificates/Slice0/Obligations.lean ====
section
/-! DEFINITION. The statements for the provers, from the numbered rules of `spec/`. A frame is written as
an equation: `t = { s with x := t.x, … }` says that nothing but the named fields may differ. A statement
about `step` takes the step from the schedule and settles the ages of busy-waits after it: that form is
the model's choice (logs 5 and 12), the effect is the rule's. -/

open Sys2Proof Sys2Proof.Machine

/-! ### Encoding (R90 to R98) -/

/-- R91 to R94: no operand bit is lost between the encoder and the decoder, for every command. -/
def Obligations.DecodeInvertsEncode : Prop :=
  ∀ i : Instr, decode (encode i) = .ok i

/-- R91 to R94, R98: every accepted word is the encoding of what it decodes to, so each command has one
word, the don't-care bits carried as an operand. -/
def Obligations.EncodeInvertsDecode : Prop :=
  ∀ (cw : CmdWord) (i : Instr), decode cw = .ok i → encode i = cw

/-- R93, R94: the field-by-field decoder accepts exactly the words that a row of the opcode map hits by
`(cw & mask) = match`, and answers a command of that row. -/
def Obligations.DecoderAgreesWithOpcodeMap : Prop :=
  ∀ cw : CmdWord,
    (∀ i, decode cw = .ok i → i.row ∈ opcodeMap ∧ i.row.hits cw = true) ∧
    (∀ r ∈ opcodeMap, r.hits cw = true → ∃ i, decode cw = .ok i ∧ i.row = r)

/-- R94, R99: words that `95_test_vectors.md` prints decode to the commands they stand for. -/
def Obligations.PrintedWordsDecode : Prop :=
  decode 0x0200003005FA0500 = .ok (.regWr 0x0030 0x05FA0500) ∧
  decode 0x1601020600000000 = .ok (.icSetPrio 6 2 1) ∧
  decode 0x2103000500000000 = .ok (.eirSetTrigger 5 .enabled 1) ∧
  decode 0x34000700000003E8 = .ok (.stsSetSingle 1000 7) ∧
  decode 0x1000010600000000 = .error .mustBeZero ∧
  decode 0x1800000000000000 = .error .reservedOpcode

/-! ### The step and the outcome of a command -/

/-- R9, R166, R190, R215: when the running context, the innermost handler's or else main, can issue and the next
scheduled word decodes to `i`, the step is `exec i` with the word taken off the schedule, and then the settling
of busy-wait ages. It can issue when `RESET` is released, its busy-wait is Idle (in Spin it issues no other
command), and it is main outside any routine, a running callback or an environment handler body; a scheduled
command that it cannot issue changes nothing (log 6). `fetch` reads what the step runs from the schedule: schedule
and settling are the model's form (logs 5 and 12). -/
def Obligations.StepRunsDecodedCommand : Prop :=
  ∀ (s : State) (rest : List Event),
    (s.handlers = [] → ctx s = s.main) ∧ (∀ h hs, s.handlers = h :: hs → ctx s = h.ctx) ∧
    (canIssue s = true ↔ s.inReset = false ∧ (ctx s).bw = .idle ∧
      ((s.handlers = [] ∧ (ctx s).frames = []) ∨
        (∃ l port fs, (ctx s).frames = .lineCall l port :: fs) ∨
        (∃ port fs, (ctx s).frames = .stsCall port :: fs) ∨
        ∃ fs, (ctx s).frames = .foreign :: fs)) ∧
    (∀ cw i, s.schedule = .command cw :: rest → canIssue s = true → decode cw = .ok i →
      fetch s = .instruction i ∧
      ∃ t, exec i { s with schedule := rest } = .next t ∧ step s = .next (settle t)) ∧
    (∀ cw, s.schedule = .command cw :: rest → canIssue s = false →
      fetch s = .event (.command cw) ∧ step s = .next (settle { s with schedule := rest })) ∧
    (∀ e, s.schedule = e :: rest → (∀ cw, e ≠ .command cw) → fetch s = .event e) ∧
    (s.schedule = [] → fetch s = .nothing)

/-- R97, R192: a word that no row of the opcode map hits ends with `IllegalCommand` and changes nothing
else; what settles is the age of busy-waits in other contexts (R166; schedule and settling: logs 5 and
12). -/
def Obligations.UndecodableWordOnlyResponds : Prop :=
  ∀ (s : State) (cw : CmdWord) (rest : List Event),
    s.schedule = .command cw :: rest → canIssue s = true →
    (∀ r ∈ opcodeMap, r.hits cw = false) →
    step s = .next (settle { s with schedule := rest, outputs := responded .illegalCommand 0 s })

/-- R192, R194: a reserved enumeration value or an unmapped register number is `IllegalCommand` with no
state change, whatever else is wrong with the command, an out-of-range line included. -/
def Obligations.IllegalCommandWinsAndOnlyResponds : Prop :=
  (∀ (i : Instr) (s : State), i.legal = false →
    exec i s = .next { s with outputs := responded .illegalCommand 0 s }) ∧
  (Instr.eirSetEdge 200 3).legal = false ∧ (Instr.eirSetEdge 200 3).inRange = false

/-- R120, R140, R193: an index above 239 or a line above 15 is `InvalidIndex`, before any state is
touched. -/
def Obligations.InvalidIndexOnlyResponds : Prop :=
  ∀ (i : Instr) (s : State), i.legal = true → i.inRange = false →
    exec i s = .next { s with outputs := responded .invalidIndex 0 s }

/-- R148, R166, R172, R190, R191, R195: a command that passes the value checks completes, and is never rejected:
it responds `OK`; but `STS.BUSYWAIT` begins to wait, its context in Spin(0) and no response yet, and a dispatch
of a line, or of the timer, whose slot is not empty emits the slot's callback. That the step of such a dispatch
ends there, the response owed later, is the model's reading of R77 and R215 (log 10). -/
def Obligations.WellFormedCommandCompletes : Prop :=
  ∀ (i : Instr) (s : State), i.wellFormed = true →
    ∃ t, exec i s = .next t ∧
      ((∃ v, t.outputs = responded .ok v s) ∨
        (∃ line, i = .eirDispatch line ∧ s.eirCb[line.toNat]?.getD 0 ≠ 0 ∧
          t.outputs = .cb (s.eirCb[line.toNat]?.getD 0) :: s.outputs) ∨
        (i = .stsDispatch ∧ s.stsCb ≠ 0 ∧ t.outputs = .cb s.stsCb :: s.outputs) ∨
        (∃ ticks, i = .stsBusyWait ticks ∧ t.outputs = s.outputs ∧ (ctx t).bw = .spin 0))

/-- R190 to R195: no step of the machine ends in a fault or a refusal. -/
def Obligations.EveryStepAnswersNext : Prop :=
  ∀ s : State, ∃ t, step s = .next t

/-! ### Invariants -/

/-- R26, R29, R34, R35, R37, R38, R40, R200: from every state with the invariant, a step gives a state with it: the
nesting holds each active source once, a request high and not active is pending, each detector has seen
its level, and the timer registers, the selector and the callback slots fit their widths. -/
def Obligations.StepKeepsInvariant : Prop :=
  ∀ s t : State, BlockInv s → step s = .next t → BlockInv t

/-- R29, R44, R196, R200: the invariant holds right after reset. That `State.reset` takes the default
parameters, free values for those that have none, every pin at 0 and `IRQ_INHIBIT` 0 is the model's choice
(logs 1 to 4). -/
def Obligations.ResetHasInvariant : Prop := BlockInv State.reset

/-- R6, R10: no step changes a parameter. That the outputs stand in a list, that a step takes none back and
that it adds at most one, a dispatch being two steps split at its callback, is the model's form (logs 9 and
10). -/
def Obligations.StepKeepsParametersAndOutputs : Prop :=
  ∀ s t : State, step s = .next t →
    t.cfg = s.cfg ∧ ∃ new : List Output, t.outputs = new ++ s.outputs ∧ new.length ≤ 1

/-- R166: any step with `IRQ_INHIBIT` = 0, reset released, resets the age of every busy-wait; and the settling
that every step ends with changes nothing but these ages, and those only then. That the input is read as the
step leaves it, and that the settling is an operation of its own, is the model's choice (log 12). -/
def Obligations.StepWithoutInhibitResetsAllAges : Prop :=
  (∀ s t : State, step s = .next t → t.irqInhibit = false → t.inReset = false →
    (t.main.bw = .idle ∨ t.main.bw = .spin 0) ∧
    ∀ h ∈ t.handlers, h.ctx.bw = .idle ∨ h.ctx.bw = .spin 0) ∧
  (∀ s : State, ∃ f : BusyWait → BusyWait, f .idle = .idle ∧
    (∀ age, f (.spin age) = if s.irqInhibit = true ∨ s.inReset = true then .spin age else .spin 0) ∧
    settle s = { s with
      main := { s.main with bw := f s.main.bw }
      handlers := s.handlers.map fun h => { h with ctx := { h.ctx with bw := f h.ctx.bw } } })

/-- R24, R29, R205, R208: `IC_ACTIVE` and the nesting change only by a take step, which adds `best`, by an exit
step, which removes the innermost source, its body finished, and by the release of `RESET`: no command and no
other step of any agent touches them. A take or exit is a scheduled one, or the block's own when nothing is
scheduled (logs 5 and 7). -/
def Obligations.OnlyTrapStepsChangeActive : Prop :=
  ∀ s t : State, step s = .next t →
    (t.icActive = s.icActive ∧ nest t = nest s) ∨
    (∃ i, (fetch s = .event .take ∨ fetch s = .nothing) ∧ s.inReset = false ∧
      s.irqInhibit = false ∧ best s = some i ∧ nest t = nest s ++ [i] ∧
      ∀ j, j < 240 → t.icActive.getLsbD j = (s.icActive.getLsbD j || j == i)) ∨
    (∃ i hs, (fetch s = .event .exit ∨ fetch s = .nothing) ∧ s.inReset = false ∧
      s.handlers = ⟨i, Ctx.start⟩ :: hs ∧ nest s = nest t ++ [i] ∧
      ∀ j, j < 240 → t.icActive.getLsbD j = (s.icActive.getLsbD j && j != i)) ∨
    (fetch s = .event (.resetLine false) ∧ s.inReset = true ∧ t.icActive = 0 ∧ nest t = [])

/-- R27, R34, R40: in every step but the release of `RESET`, the active mode is written only by
`IC.SETGROUPING`, the callback table only by `EIR.REGCB`, the job slot only by the two set-interval commands:
no other command and no step of another agent writes them. A command runs as the step that `fetch` reads
from the schedule (log 5). -/
def Obligations.OnlyOwnCommandsWriteVariables : Prop :=
  ∀ s t : State, step s = .next t → ¬ (s.inReset = true ∧ fetch s = .event (.resetLine false)) →
    ((∀ m, fetch s ≠ .instruction (.icSetGrouping m)) → t.icGMode = s.icGMode) ∧
    ((∀ l h, fetch s ≠ .instruction (.eirRegCb l h)) → t.eirCb = s.eirCb) ∧
    ((∀ w h, fetch s ≠ .instruction (.stsSetSingle w h)) →
      (∀ w h, fetch s ≠ .instruction (.stsSetPeriodic w h)) →
      t.stsCb = s.stsCb ∧ t.stsMode = s.stsMode)

/-! ### Reset (R44, R230 to R232) -/

/-- R44: the reset table, for the state right after reset and for the block at any release of `RESET`,
`EIR_PREV` at the level of each multiplexer output. -/
def Obligations.ResetTable : Prop :=
  ∀ s t : State, (t = State.reset ∨ t = resetBlock s) →
    t.icEnable = 0 ∧ t.icPending = 0 ∧ t.icActive = 0 ∧ (∀ i, prioField t i = 0) ∧
    t.icGroupSel = 0 ∧ t.icGMode = .group16Sub0 ∧ nest t = [] ∧
    (∀ r, r < 4 → regValue t (.eirCfg r) = 0) ∧
    t.eirMask = 0 ∧ t.eirRise = 0 ∧ t.eirFall = 0 ∧ t.eirPend = 0 ∧
    (∀ l, l < 16 → t.eirCb[l]?.getD 0 = 0) ∧ (∀ l, l < 16 → t.eirPrev.getLsbD l = muxLevel t l) ∧
    regValue t .stsCtrl = 0 ∧ t.stsReload = 0 ∧ t.stsCurrent = 0 ∧
    regValue t .stsCalib = t.cfg.stsCalib ∧ t.stsCb = 0 ∧ t.stsMode = .single ∧ t.main.bw = .idle

/-- R141, R204, R230 to R232: while `RESET` is asserted no step changes the block, with nothing scheduled as well:
only the three inputs follow what drives them, a pin of a port that does not exist storing nothing (log 6). Its release gives the reset state, with no routine and no
busy-wait in progress and the context main, and touches no pin and no parameter. While it is released,
driving `RESET` to 1 or `IRQ_INHIBIT` to a level changes that input and nothing else, but for the ages of
busy-waits (R166). How the inputs are driven is the model's form (logs 5 and 11). -/
def Obligations.AssertedResetHoldsTheBlock : Prop :=
  ∀ s t : State, step s = .next t →
    (s.inReset = true → fetch s ≠ .event (.resetLine false) →
      t = { s with schedule := s.schedule.tail, pins := t.pins, irqInhibit := t.irqInhibit } ∧
      ((∀ b, fetch s ≠ .event (.inhibit b)) → t.irqInhibit = s.irqInhibit) ∧
      ((∀ p l b, fetch s ≠ .event (.pin p l b)) → t.pins = s.pins)) ∧
    (s.inReset = true → ∀ p l b, fetch s = .event (.pin p l b) → ∀ q k : Fin 16,
      t.pins[q].getLsbD k =
        if q = p ∧ k = l ∧ portExists s.cfg p = true then b else s.pins[q].getLsbD k) ∧
    (s.inReset = true → fetch s = .event (.resetLine false) →
      t = resetBlock { s with schedule := s.schedule.tail } ∧ t.inReset = false ∧
      t.main = Ctx.start ∧ t.handlers = [] ∧ t.pins = s.pins ∧ t.irqInhibit = s.irqInhibit ∧
      t.cfg = s.cfg) ∧
    (∀ b, fetch s = .event (.inhibit b) →
      t = settle { s with schedule := s.schedule.tail, irqInhibit := b } ∧ t.irqInhibit = b) ∧
    (fetch s = .event (.resetLine true) →
      t = { s with schedule := s.schedule.tail, inReset := true }) ∧
    (s.inReset = false → fetch s = .event (.resetLine false) →
      t = settle { s with schedule := s.schedule.tail })

/-! ### Raw register access (R71, R72, R110, R111) -/

/-- R26, R71 to R73, R78, R110: what a read of each register of the map responds, and that its one side
effect is that the read of `STS_CTRL` (0x0300) clears `COUNTFLAG`. -/
def Obligations.RegisterReadValues : Prop :=
  ∀ (n : Half) (s : State), regMapped n = true →
    ∃ v : Word,
      exec (.regRd n) s = .next { s with
        stsCountFlag := if n = 0x0300 then false else s.stsCountFlag
        outputs := responded .ok v s } ∧
      (n.toNat < 0x0010 → ∀ b, b < 32 → v.getLsbD b = s.icEnable.getLsbD (32 * (n.toNat % 8) + b)) ∧
      (0x0010 ≤ n.toNat → n.toNat < 0x0020 → ∀ b, b < 32 →
        v.getLsbD b = s.icPending.getLsbD (32 * (n.toNat % 8) + b)) ∧
      (0x0020 ≤ n.toNat → n.toNat < 0x0028 → ∀ b, b < 32 →
        v.getLsbD b = s.icActive.getLsbD (32 * (n.toNat % 8) + b)) ∧
      (0x0100 ≤ n.toNat → n.toNat < 0x01F0 →
        v.toNat = 16 * (s.icPrio[n.toNat - 0x0100]?.getD 0).toNat) ∧
      (n = 0x0030 → s.cfg.wf = true → SelectorFits s →
        v.toNat = 65536 * s.cfg.keyReadback.toNat + 2 ^ s.cfg.groupSelPos * s.icGroupSel.toNat) ∧
      (n = 0x0200 → v.toNat = s.eirMask.toNat) ∧
      (n = 0x0201 → v.toNat = s.eirRise.toNat) ∧
      (n = 0x0202 → v.toNat = s.eirFall.toNat) ∧
      (n = 0x0203 → v.toNat = s.eirPend.toNat) ∧
      (0x0208 ≤ n.toNat → n.toNat < 0x020C →
        v.toNat = (s.eirCfg[n.toNat - 0x0208]?.getD 0).toNat) ∧
      (n = 0x0300 → v.toNat = s.stsEnable.toNat + 2 * s.stsTickInt.toNat
        + 4 * s.stsClkSource.toNat + 65536 * s.stsCountFlag.toNat) ∧
      (n = 0x0301 → v = s.stsReload) ∧
      (n = 0x0302 → v = s.stsCurrent) ∧
      (n = 0x0303 → v = s.cfg.stsCalib)

/-- R71, R72, R111, R200: a write of a word of the set-enable, clear-enable, set-pending and clear-pending
banks acts on the sources whose bit is written as 1 and on nothing else, bits of sources above 239 doing
nothing; a source cleared of pending whose request is high and which is not active is pending again in
the same step; a write of the active bank is no error and does nothing. -/
def Obligations.BankWritesActOnWrittenOnes : Prop :=
  ∀ (k : Nat) (data : Word) (s : State), k < 8 →
    (∃ t, exec (.regWr (BitVec.ofNat 16 k) data) s = .next t ∧
      t = { s with icEnable := t.icEnable, outputs := responded .ok 0 s } ∧
      ∀ j, j < 240 → t.icEnable.getLsbD j =
        (s.icEnable.getLsbD j || (j / 32 == k && data.getLsbD (j % 32)))) ∧
    (∃ t, exec (.regWr (BitVec.ofNat 16 (0x0008 + k)) data) s = .next t ∧
      t = { s with icEnable := t.icEnable, outputs := responded .ok 0 s } ∧
      ∀ j, j < 240 → t.icEnable.getLsbD j =
        (s.icEnable.getLsbD j && !(j / 32 == k && data.getLsbD (j % 32)))) ∧
    (∃ t, exec (.regWr (BitVec.ofNat 16 (0x0010 + k)) data) s = .next t ∧
      t = { s with icPending := t.icPending, outputs := responded .ok 0 s } ∧
      ∀ j, j < 240 → t.icPending.getLsbD j =
        (s.icPending.getLsbD j || (j / 32 == k && data.getLsbD (j % 32)))) ∧
    (∃ t, exec (.regWr (BitVec.ofNat 16 (0x0018 + k)) data) s = .next t ∧
      t = { s with icPending := t.icPending, outputs := responded .ok 0 s } ∧
      ∀ j, j < 240 → t.icPending.getLsbD j =
        ((s.icPending.getLsbD j && !(j / 32 == k && data.getLsbD (j % 32)))
          || (requestHigh s j && !s.icActive.getLsbD j))) ∧
    exec (.regWr (BitVec.ofNat 16 (0x0020 + k)) data) s =
      .next { s with outputs := responded .ok 0 s }

/-- R25, R72: a raw write of `IC_PRI[i]` keeps bits 7:4 of the data, so the register then reads
`{v[7:4], 0b0000}`, and every other priority register is unchanged. -/
def Obligations.PriorityWriteKeepsUpperNibble : Prop :=
  ∀ (i : Nat) (data : Word) (s : State), i < 240 →
    ∃ t, exec (.regWr (BitVec.ofNat 16 (0x0100 + i)) data) s = .next t ∧
      t = { s with icPrio := t.icPrio, outputs := responded .ok 0 s } ∧
      ∀ j, j < 240 →
        (prioField t j).toNat = if j = i then 16 * (data.toNat / 16 % 16) else (prioField s j).toNat

/-- R72, R142, R200: raw writes of the line registers: the low 16 bits are stored, `EIR_PR` is cleared where
a one is written, and an enabled pending line raises its source in the same step. -/
def Obligations.LineRegisterWrites : Prop :=
  ∀ (data : Word) (s : State),
    (∃ t, exec (.regWr 0x0200 data) s = .next t ∧
      t = { s with eirMask := data.setWidth 16, icPending := t.icPending,
                   outputs := responded .ok 0 s } ∧
      ∀ j, j < 240 → t.icPending.getLsbD j =
        (s.icPending.getLsbD j || (requestHigh t j && !s.icActive.getLsbD j))) ∧
    exec (.regWr 0x0201 data) s =
      .next { s with eirRise := data.setWidth 16, outputs := responded .ok 0 s } ∧
    exec (.regWr 0x0202 data) s =
      .next { s with eirFall := data.setWidth 16, outputs := responded .ok 0 s } ∧
    (∃ t, exec (.regWr 0x0203 data) s = .next t ∧
      t = { s with eirPend := t.eirPend, outputs := responded .ok 0 s } ∧
      ∀ l, l < 16 → t.eirPend.getLsbD l = (s.eirPend.getLsbD l && !data.getLsbD l))

/-- R30, R72, R142: a raw write of `EIR_CFG[r]` stores its low 16 bits and runs the detectors of its four
lines: each takes the new level of its multiplexer, and a selected edge sets its flag; every other
line keeps both. -/
def Obligations.SelectorRegisterWriteRunsDetectors : Prop :=
  ∀ (r : Nat) (data : Word) (s : State), r < 4 →
    ∃ t, exec (.regWr (BitVec.ofNat 16 (0x0208 + r)) data) s = .next t ∧
      t = { s with eirCfg := t.eirCfg, eirPend := t.eirPend, eirPrev := t.eirPrev,
                   icPending := t.icPending, outputs := responded .ok 0 s } ∧
      (∀ q, q < 4 → t.eirCfg[q]?.getD 0 = if q = r then data.setWidth 16 else s.eirCfg[q]?.getD 0) ∧
      (∀ l, l < 16 → l / 4 = r → t.eirPrev.getLsbD l = muxLevel t l ∧
        t.eirPend.getLsbD l = (s.eirPend.getLsbD l
          || (!s.eirPrev.getLsbD l && muxLevel t l && s.eirRise.getLsbD l)
          || (s.eirPrev.getLsbD l && !muxLevel t l && s.eirFall.getLsbD l))) ∧
      (∀ l, l < 16 → l / 4 ≠ r → t.eirPrev.getLsbD l = s.eirPrev.getLsbD l ∧
        t.eirPend.getLsbD l = s.eirPend.getLsbD l) ∧
      (∀ j, j < 240 → t.icPending.getLsbD j =
        (s.icPending.getLsbD j || (requestHigh t j && !s.icActive.getLsbD j)))

/-- R36 to R38, R72: raw writes of the timer registers: three control bits and not `COUNTFLAG`; the low
`TICK_BITS` bits of the reload value; any write of the current value clears it and `COUNTFLAG`; a write of
the read-only calibration register is no error and does nothing. -/
def Obligations.TimerRegisterWrites : Prop :=
  ∀ (data : Word) (s : State),
    exec (.regWr 0x0300 data) s = .next { s with
      stsEnable := data.getLsbD 0, stsTickInt := data.getLsbD 1, stsClkSource := data.getLsbD 2,
      outputs := responded .ok 0 s } ∧
    (∃ t, exec (.regWr 0x0301 data) s = .next t ∧
      t = { s with stsReload := t.stsReload, outputs := responded .ok 0 s } ∧
      t.stsReload.toNat = data.toNat % 2 ^ s.cfg.tickBits) ∧
    exec (.regWr 0x0302 data) s = .next { s with
      stsCurrent := 0, stsCountFlag := false, outputs := responded .ok 0 s } ∧
    exec (.regWr 0x0303 data) s = .next { s with outputs := responded .ok 0 s }

/-- R26, R126, R244: `IC.SETGROUPING` writes the selector and the active mode; a raw write with the key
writes the selector only, one without the key writes neither; the encoder goes by the active mode. -/
def Obligations.SelectorAndActiveModeComeApart : Prop :=
  ∀ (s : State), s.cfg.wf = true →
    (∀ mode m, modeOfNumber mode = some m →
      exec (.icSetGrouping mode) s = .next { s with
        icGroupSel := s.cfg.groupSelOf[subWidth m]?.getD 0, icGMode := m,
        outputs := responded .ok 0 s }) ∧
    (∀ data : Word, data.toNat / 65536 = s.cfg.unlockKey.toNat →
      ∃ t, exec (.regWr 0x0030 data) s = .next t ∧
        t = { s with icGroupSel := t.icGroupSel, outputs := responded .ok 0 s } ∧
        t.icGroupSel.toNat = data.toNat / 2 ^ s.cfg.groupSelPos % 2 ^ s.cfg.groupSelBits ∧
        ∀ index group subgroup u v, exec (.icSetPrio index group subgroup) s = .next u →
          exec (.icSetPrio index group subgroup) t = .next v → v.icPrio = u.icPrio) ∧
    (∀ data : Word, data.toNat / 65536 ≠ s.cfg.unlockKey.toNat →
      exec (.regWr 0x0030 data) s = .next { s with outputs := responded .ok 0 s })

/-! ### Interrupt Controller (R121 to R129) -/

/-- R121 to R124, R200: `IC.ENABLE`, `IC.DISABLE`, `IC.SETPEND` and `IC.CLRPEND` write the one enable or
pending bit of the source and nothing else; but after `IC.CLRPEND` a source whose request is high and which
is not active is pending again in the same step. -/
def Obligations.BankCommandsWriteOneBit : Prop :=
  ∀ (index : Byte) (s : State), index.toNat ≤ 239 →
    (∃ t, exec (.icEnable index) s = .next t ∧
      t = { s with icEnable := t.icEnable, outputs := responded .ok 0 s } ∧
      ∀ j, j < 240 → t.icEnable.getLsbD j = (s.icEnable.getLsbD j || j == index.toNat)) ∧
    (∃ t, exec (.icDisable index) s = .next t ∧
      t = { s with icEnable := t.icEnable, outputs := responded .ok 0 s } ∧
      ∀ j, j < 240 → t.icEnable.getLsbD j = (s.icEnable.getLsbD j && j != index.toNat)) ∧
    (∃ t, exec (.icSetPend index) s = .next t ∧
      t = { s with icPending := t.icPending, outputs := responded .ok 0 s } ∧
      ∀ j, j < 240 → t.icPending.getLsbD j = (s.icPending.getLsbD j || j == index.toNat)) ∧
    (∃ t, exec (.icClrPend index) s = .next t ∧
      t = { s with icPending := t.icPending, outputs := responded .ok 0 s } ∧
      ∀ j, j < 240 → t.icPending.getLsbD j = ((s.icPending.getLsbD j && j != index.toNat)
        || (requestHigh s j && !s.icActive.getLsbD j)))

/-- R125: `IC.ISACTIVE` responds the active bit as 0 or 1 and changes no state. -/
def Obligations.IsActiveRespondsActiveBit : Prop :=
  ∀ (index : Byte) (s : State), index.toNat ≤ 239 →
    ∃ v : Word, exec (.icIsActive index) s = .next { s with outputs := responded .ok v s } ∧
      v.toNat = (s.icActive.getLsbD index.toNat).toNat

/-- R121 to R124: each of the four commands is the same step as the raw write of the one bit
`1 << (index mod 32)` to word `index div 32` of its bank. -/
def Obligations.IcCommandsAreRawBankWrites : Prop :=
  ∀ (index : Byte) (s : State), index.toNat ≤ 239 →
    exec (.icEnable index) s =
      exec (.regWr (BitVec.ofNat 16 (index.toNat / 32)) (1#32 <<< (index.toNat % 32))) s ∧
    exec (.icDisable index) s =
      exec (.regWr (BitVec.ofNat 16 (0x0008 + index.toNat / 32)) (1#32 <<< (index.toNat % 32))) s ∧
    exec (.icSetPend index) s =
      exec (.regWr (BitVec.ofNat 16 (0x0010 + index.toNat / 32)) (1#32 <<< (index.toNat % 32))) s ∧
    exec (.icClrPend index) s =
      exec (.regWr (BitVec.ofNat 16 (0x0018 + index.toNat / 32)) (1#32 <<< (index.toNat % 32))) s

/-- R126, R27, R236: `IC.SETGROUPING` with a mode number 0 to 4 completes and re-encodes no priority. -/
def Obligations.SetGroupingReencodesNothing : Prop :=
  ∀ (mode : BitVec 3) (s : State), mode.toNat ≤ 4 →
    ∃ t, exec (.icSetGrouping mode) s = .next t ∧
      t = { s with icGroupSel := t.icGroupSel, icGMode := t.icGMode,
                   outputs := responded .ok 0 s } ∧
      subWidth t.icGMode = mode.toNat ∧ ∀ i, prioField t i = prioField s i

/-- R127: the encoder, as numbers: the group in bits `7 : 8-gw`, the subgroup in bits `7-gw : 4`, the low
nibble zero, each operand first reduced to its own width. The other reading, `ENC_OVERFLOW` = overlay
(`93_implementation_defined.md` Part 2), shifts both operands whole, joins them and keeps 8 bits, so the bits
of a subgroup out of range fall on the group. -/
def Obligations.EncoderLayout : Prop :=
  ∀ (m : GroupingMode) (group subgroup : Byte),
    (encodePriority .truncate m group subgroup).toNat =
      (group.toNat % 2 ^ groupWidth m) * 2 ^ (8 - groupWidth m)
        + (subgroup.toNat % 2 ^ subWidth m) * 16 ∧
    (encodePriority .overlay m group subgroup).toNat =
      (group.toNat * 2 ^ (8 - groupWidth m) ||| subgroup.toNat * 16) % 256

/-- R27, R28, R127: the mode table's subgroup widths 0 to 4, the group width the rest of four bits; and within one
mode, on operands inside its ranges, a lower field is a lower group, and among
equal groups a lower subgroup; hence the field determines the pair, under either `ENC_OVERFLOW`. -/
def Obligations.EncoderOrdersByGroupThenSubgroup : Prop :=
  [GroupingMode.group16Sub0, .group8Sub2, .group4Sub4, .group2Sub8, .group0Sub16].map subWidth
    = [0, 1, 2, 3, 4] ∧
  (∀ m, groupWidth m = 4 - subWidth m) ∧
  ∀ (o : EncOverflow) (m : GroupingMode) (g g' u u' : Byte),
    g.toNat < 2 ^ groupWidth m → g'.toNat < 2 ^ groupWidth m →
    u.toNat < 2 ^ subWidth m → u'.toNat < 2 ^ subWidth m →
    (encodePriority o m g u < encodePriority o m g' u' ↔ g < g' ∨ (g = g' ∧ u < u'))

/-- R128: `IC.SETPRIO` stores the field encoded under the active mode in the one priority register. -/
def Obligations.SetPrioStoresEncodedField : Prop :=
  ∀ (index group subgroup : Byte) (s : State), index.toNat ≤ 239 →
    ∃ t, exec (.icSetPrio index group subgroup) s = .next t ∧
      t = { s with icPrio := t.icPrio, outputs := responded .ok 0 s } ∧
      ∀ j, j < 240 → prioField t j =
        if j = index.toNat then encodePriority s.cfg.encOverflow s.icGMode group subgroup
        else prioField s j

/-- R129: `IC.ENCPRIO` responds the field of the mode it is given and changes no state. -/
def Obligations.EncPrioRespondsField : Prop :=
  ∀ (mode : BitVec 3) (group subgroup : Byte) (s : State), mode.toNat ≤ 4 →
    ∃ (m : GroupingMode) (v : Word), subWidth m = mode.toNat ∧
      exec (.icEncPrio mode group subgroup) s = .next { s with outputs := responded .ok v s } ∧
      v.toNat = (encodePriority s.cfg.encOverflow m group subgroup).toNat

/-! ### External Interrupt Router (R140 to R150) -/

/-- R30, R144: the selector of line `l` is digit `l mod 4`, in base 16, of register `l div 4`. `EIR.SETPORT` stores the selector in the line's field, preserves the fields of every other
line, runs the line's detector on its new pin, and leaves the flags and levels of every other line. -/
def Obligations.SetPortReplacesOneSelector : Prop :=
  ∀ (line : Byte) (sel : BitVec 4) (s : State), line.toNat ≤ 15 →
    ∃ t, exec (.eirSetPort line sel) s = .next t ∧
      t = { s with eirCfg := t.eirCfg, eirPend := t.eirPend, eirPrev := t.eirPrev,
                   icPending := t.icPending, outputs := responded .ok 0 s } ∧
      (∀ l, l < 16 → (portSel s l).toNat = (s.eirCfg[l / 4]?.getD 0).toNat / 16 ^ (l % 4) % 16) ∧
      (∀ l, l < 16 → portSel t l = if l = line.toNat then sel else portSel s l) ∧
      (∀ l, l < 16 → t.eirPrev.getLsbD l =
        if l = line.toNat then muxLevel t l else s.eirPrev.getLsbD l) ∧
      (∀ l, l < 16 → t.eirPend.getLsbD l = (s.eirPend.getLsbD l || (l == line.toNat
        && ((!s.eirPrev.getLsbD l && muxLevel t l && s.eirRise.getLsbD l)
          || (s.eirPrev.getLsbD l && !muxLevel t l && s.eirFall.getLsbD l))))) ∧
      (∀ j, j < 240 → t.icPending.getLsbD j =
        (s.icPending.getLsbD j || (requestHigh t j && !s.icActive.getLsbD j)))

/-- R145, R200: `EIR.SETTRIGGER` writes the line's mask bit, whatever its edge operand, and a line enabled
with its flag set raises its source in the same step. -/
def Obligations.SetTriggerWritesMaskBit : Prop :=
  ∀ (line : Byte) (mode : TriggerMode) (edge : BitVec 2) (s : State), line.toNat ≤ 15 →
    ∃ t, exec (.eirSetTrigger line mode edge) s = .next t ∧
      t = { s with eirMask := t.eirMask, icPending := t.icPending,
                   outputs := responded .ok 0 s } ∧
      (∀ l, l < 16 → t.eirMask.getLsbD l =
        if l = line.toNat then mode == .enabled else s.eirMask.getLsbD l) ∧
      (∀ j, j < 240 → t.icPending.getLsbD j =
        (s.icPending.getLsbD j || (requestHigh t j && !s.icActive.getLsbD j)))

/-- R146: Rising sets the rising bit and clears falling, Falling the reverse, OnChange sets both; no other
bit, no flag. -/
def Obligations.SetEdgeWritesTwoBits : Prop :=
  ∀ (line : Byte) (edge : BitVec 2) (s : State), line.toNat ≤ 15 → edge.toNat ≤ 2 →
    ∃ t, exec (.eirSetEdge line edge) s = .next t ∧
      t = { s with eirRise := t.eirRise, eirFall := t.eirFall, outputs := responded .ok 0 s } ∧
      (∀ l, l < 16 → t.eirRise.getLsbD l =
        if l = line.toNat then edge.toNat != 1 else s.eirRise.getLsbD l) ∧
      (∀ l, l < 16 → t.eirFall.getLsbD l =
        if l = line.toNat then edge.toNat != 0 else s.eirFall.getLsbD l)

/-- R34, R147: `EIR.REGCB` replaces the line's slot and nothing else; an empty reference is accepted. A slot
holds `CBREF_BITS` bits: a reference that fits is stored as it is; what is stored of one that does not, which a
command can carry only with `CBREF_BITS` below 16, is a free value of that width (log 18). -/
def Obligations.RegCbReplacesOneSlot : Prop :=
  ∀ (line : Byte) (callback : CbRef) (s : State), line.toNat ≤ 15 →
    ∃ t held, exec (.eirRegCb line callback) s = .next t ∧
      t = { s with eirCb := t.eirCb, outputs := responded .ok 0 s } ∧
      (callback.toNat < 2 ^ s.cfg.cbrefBits → held = callback) ∧
      held.toNat < 2 ^ s.cfg.cbrefBits ∧
      ∀ l, l < 16 → t.eirCb[l]?.getD 0 = if l = line.toNat then held else s.eirCb[l]?.getD 0

/-- R146, R149: the order of `EIR.SETEDGE` and `EIR.SETTRIGGER` does not affect the state they leave, on
the same line or on two. -/
def Obligations.SetEdgeAndSetTriggerCommute : Prop :=
  ∀ (l l' : Byte) (edge e : BitVec 2) (mode : TriggerMode) (s t u : State),
    exec (.eirSetEdge l edge) s = .next t → exec (.eirSetTrigger l' mode e) s = .next u →
    edge.toNat ≤ 2 → l.toNat ≤ 15 → l'.toNat ≤ 15 →
    exec (.eirSetTrigger l' mode e) t = exec (.eirSetEdge l edge) u

/-- R148, R213, R246: a dispatch of a line from the command port: with an empty slot the flag is cleared
and the response is `OK`; with a callback it is invoked, once. That the command's step ends at the callback,
with the flag still set and the response still owed, is the model's reading of R77 and R215 (log 10). -/
def Obligations.LineDispatchInvokesOrClears : Prop :=
  ∀ (line : Byte) (s : State), line.toNat ≤ 15 →
    (s.eirCb[line.toNat]?.getD 0 = 0 →
      ∃ t, exec (.eirDispatch line) s = .next t ∧
        t = { s with eirPend := t.eirPend, outputs := responded .ok 0 s } ∧
        ∀ l, l < 16 → t.eirPend.getLsbD l = (s.eirPend.getLsbD l && l != line.toNat)) ∧
    (∀ h, s.eirCb[line.toNat]?.getD 0 = h → h ≠ 0 →
      ∃ t, exec (.eirDispatch line) s = .next t ∧
        t = { s with main := t.main, handlers := t.handlers, outputs := .cb h :: s.outputs } ∧
        SuspendedKept s t ∧
        ctx t = { ctx s with frames := .lineCall line.toNat true :: (ctx s).frames })

/-- R148, R195, R214: when the callback of a line returns, the line's flag is cleared, whatever came meanwhile;
a dispatch entered by a command then responds `OK`, one entered by a trap does not respond. When the handler
body of a source that neither the EIR nor the STS owns returns, it has finished, and nothing else changes.
That a return is an event of the schedule, and that the rest of the routine is one step at it, is the model's
form (logs 8 and 10). -/
def Obligations.LineCallbackReturnClearsFlag : Prop :=
  ∀ (s : State) (fs : List Frame) (rest : List Event), Next .ret rest s →
    (∀ l port, ctx s = ⟨.idle, .lineCall l port :: fs⟩ →
      ∃ t, step s = .next (settle t) ∧ SuspendedKept s t ∧ ctx t = ⟨.idle, fs⟩ ∧
        (∀ l', l' < 16 → t.eirPend.getLsbD l' = (s.eirPend.getLsbD l' && l' != l)) ∧
        t = { s with eirPend := t.eirPend, main := t.main, handlers := t.handlers, schedule := rest,
                     outputs := if port then responded .ok 0 s else s.outputs }) ∧
    (ctx s = ⟨.idle, .foreign :: fs⟩ →
      ∃ t, step s = .next (settle t) ∧ SuspendedKept s t ∧ ctx t = ⟨.idle, fs⟩ ∧
        t = { s with main := t.main, handlers := t.handlers, schedule := rest })

/-- R141, R142: a pin step stores the level of the one pin, selected or not, and the edge detector of its line
runs: the flag is set exactly on a selected edge of the line's multiplexer output, whether or not the line is
enabled, and an edge on a set flag leaves it. A line whose selector no port has reads 0, and a pin step of a
port that does not exist stores nothing (log 6). -/
def Obligations.PinStepRunsEdgeDetector : Prop :=
  ∀ (s : State) (p l : Fin 16) (level : Bool) (rest : List Event), Next (.pin p l level) rest s →
    ∃ t, step s = .next (settle t) ∧
      t = { s with pins := t.pins, eirPend := t.eirPend, eirPrev := t.eirPrev,
                   icPending := t.icPending, schedule := rest } ∧
      (∀ q k : Fin 16, q ≠ p ∨ k ≠ l → t.pins[q].getLsbD k = s.pins[q].getLsbD k) ∧
      (t.pins[p].getLsbD l = if portExists s.cfg p.val then level else s.pins[p].getLsbD l) ∧
      (∀ p', portExists s.cfg p' = true ↔ ∃ e ∈ s.cfg.portSelector, e.2.toNat = p') ∧
      (∀ k, k < 16 → portExists s.cfg (portSel t k).toNat = false → muxLevel t k = false) ∧
      (∀ k q : Fin 16, portSel t k.val = BitVec.ofNat 4 q.val → portExists s.cfg q.val = true →
        muxLevel t k.val = t.pins[q].getLsbD k.val) ∧
      (portSel s l.val = BitVec.ofNat 4 p.val → portExists s.cfg p.val = true →
        muxLevel t l.val = level) ∧
      (portSel s l.val ≠ BitVec.ofNat 4 p.val → muxLevel t l.val = muxLevel s l.val) ∧
      (∀ k, k < 16 → t.eirPrev.getLsbD k =
        if k = l.val then muxLevel t k else s.eirPrev.getLsbD k) ∧
      (∀ k, k < 16 → t.eirPend.getLsbD k = (s.eirPend.getLsbD k || (k == l.val
        && ((!s.eirPrev.getLsbD k && muxLevel t k && s.eirRise.getLsbD k)
          || (s.eirPrev.getLsbD k && !muxLevel t k && s.eirFall.getLsbD k))))) ∧
      (∀ j, j < 240 → t.icPending.getLsbD j =
        (s.icPending.getLsbD j || (requestHigh t j && !s.icActive.getLsbD j)))

/-! ### System Timer Service (R160 to R174) -/

/-- R164, R165, R171: `STS.INIT` writes `TICKINT` and `CLKSOURCE` from the static configuration and
`STS.STOP` clears `ENABLE`; with `CTRL_FIELD_WRITE` = direct they write nothing else, so the count, the flag
and the job slot stay; with rmw each also clears `COUNTFLAG`. -/
def Obligations.InitAndStopWriteTheirControlBits : Prop :=
  ∀ s : State,
    exec .stsInit s = .next { s with
      stsTickInt := s.cfg.stsCfgTickInt, stsClkSource := s.cfg.stsCfgClkSrc,
      stsCountFlag := if s.cfg.ctrlFieldWrite = .rmw then false else s.stsCountFlag,
      outputs := responded .ok 0 s } ∧
    exec .stsStop s = .next { s with
      stsEnable := false,
      stsCountFlag := if s.cfg.ctrlFieldWrite = .rmw then false else s.stsCountFlag,
      outputs := responded .ok 0 s }

/-- R163, R166: the start step of a busy-wait: reload truncated to `TICK_BITS`, current 0, flag 0, counter
enabled, the issuing context in Spin(0); the job slot stays and there is no response yet. -/
def Obligations.BusyWaitStarts : Prop :=
  ∀ (ticks : Word) (s : State),
    ∃ t, exec (.stsBusyWait ticks) s = .next t ∧
      t = { s with stsReload := t.stsReload, stsCurrent := 0, stsCountFlag := false,
                   stsEnable := true, main := t.main, handlers := t.handlers } ∧
      t.stsReload.toNat = ticks.toNat % 2 ^ s.cfg.tickBits ∧
      SuspendedKept s t ∧ ctx t = { ctx s with bw := .spin 0 }

/-- R166, R239: a poll of a busy-wait that reads the flag as 0 changes nothing of the block; one that reads
it as 1 is the finish step: reload 0, current 0, flag 0, counter stopped, context Idle, response. -/
def Obligations.BusyWaitPollEndsExactlyOnFlag : Prop :=
  ∀ (s : State) (age : Nat) (fs : List Frame) (rest : List Event), Next .advance rest s →
    ctx s = ⟨.spin age, fs⟩ →
    (s.stsCountFlag = false → step s = .next (settle { s with schedule := rest })) ∧
    (s.stsCountFlag = true → ∃ t, step s = .next (settle t) ∧ SuspendedKept s t ∧
      ctx t = ⟨.idle, fs⟩ ∧
      t = { s with stsReload := 0, stsCurrent := 0, stsCountFlag := false, stsEnable := false,
                   main := t.main, handlers := t.handlers, schedule := rest,
                   outputs := responded .ok 0 s })

/-- R167, R168: `STS.ELAPSED` responds `reload - current` modulo 2^32 and `STS.REMAINING` the current
value; neither changes any state. -/
def Obligations.ElapsedAndRemaining : Prop :=
  ∀ s : State,
    (∃ v : Word, exec .stsElapsed s = .next { s with outputs := responded .ok v s } ∧
      (v.toNat + s.stsCurrent.toNat) % 2 ^ 32 = s.stsReload.toNat) ∧
    exec .stsRemaining s = .next { s with outputs := responded .ok s.stsCurrent s }

/-- R40, R163, R169, R170, R174: a set-interval command always overwrites the slot and starts the counter:
reload truncated to `TICK_BITS`, current 0, flag 0; a tick already pending stays pending. The slot holds
`CBREF_BITS` bits: a reference that fits is stored as it is; what is stored of one that does not is a free value
of that width (log 18). -/
def Obligations.SetIntervalOverwritesTheSlot : Prop :=
  ∀ (ticks : Word) (callback : CbRef) (s : State), ∃ held : CbRef,
    (callback.toNat < 2 ^ s.cfg.cbrefBits → held = callback) ∧
    held.toNat < 2 ^ s.cfg.cbrefBits ∧
    (∃ t, exec (.stsSetSingle ticks callback) s = .next t ∧
      t = { s with stsReload := t.stsReload, stsCurrent := 0, stsCountFlag := false,
                   stsEnable := true, stsCb := held, stsMode := .single,
                   outputs := responded .ok 0 s } ∧
      t.stsReload.toNat = ticks.toNat % 2 ^ s.cfg.tickBits) ∧
    (∃ t, exec (.stsSetPeriodic ticks callback) s = .next t ∧
      t = { s with stsReload := t.stsReload, stsCurrent := 0, stsCountFlag := false,
                   stsEnable := true, stsCb := held, stsMode := .periodic,
                   outputs := responded .ok 0 s } ∧
      t.stsReload.toNat = ticks.toNat % 2 ^ s.cfg.tickBits)

/-- R166, R245: the flag-losing step: with a finite `LATCH_WINDOW` it clears `COUNTFLAG` exactly when some
busy-wait is in Spin with an age above the window, and changes nothing else. That a scheduled one that is not
enabled, as with an infinite window, is taken off the schedule and changes nothing is the model's choice (log 6). -/
def Obligations.FlagIsLostOnlyPastTheWindow : Prop :=
  ∀ (s : State) (rest : List Event), Next .loseFlag rest s →
    (s.cfg.latchWindow = none → step s = .next (settle { s with schedule := rest })) ∧
    (∀ n, s.cfg.latchWindow = some n → ∃ t, step s = .next (settle t) ∧
      t = { s with stsCountFlag := t.stsCountFlag, schedule := rest } ∧
      ((∃ age, n < age ∧ (s.main.bw = .spin age ∨ ∃ h ∈ s.handlers, h.ctx.bw = .spin age)) →
        t.stsCountFlag = false) ∧
      ((∀ age, s.main.bw = .spin age ∨ (∃ h ∈ s.handlers, h.ctx.bw = .spin age) → age ≤ n) →
        t.stsCountFlag = s.stsCountFlag))

/-- R172, R213, R246: a dispatch of the timer from the command port: with an empty slot it does nothing,
also in Single mode, and responds `OK`; with a callback it is invoked, once. That the command's step ends at
the callback, with nothing stopped yet and the response still owed, is the model's reading of R77 and R215
(log 10). -/
def Obligations.TimerDispatchInvokesOrDoesNothing : Prop :=
  ∀ s : State,
    (s.stsCb = 0 → exec .stsDispatch s = .next { s with outputs := responded .ok 0 s }) ∧
    (s.stsCb ≠ 0 → ∃ t, exec .stsDispatch s = .next t ∧
      t = { s with main := t.main, handlers := t.handlers, outputs := .cb s.stsCb :: s.outputs } ∧
      SuspendedKept s t ∧ ctx t = { ctx s with frames := .stsCall true :: (ctx s).frames })

/-- R164, R172, R173: when the timer's callback returns, a job that is Single by then is stopped and a
Periodic one goes on; the slot is kept, and the flag too, but for a stop with `CTRL_FIELD_WRITE` = rmw. That
a return is an event of the schedule, and that the mode test and the response owed are one step at it, is the
model's form (logs 8 and 10). -/
def Obligations.TimerCallbackReturnStopsSingleJob : Prop :=
  ∀ (s : State) (port : Bool) (fs : List Frame) (rest : List Event), Next .ret rest s →
    ctx s = ⟨.idle, .stsCall port :: fs⟩ →
    ∃ t, step s = .next (settle t) ∧ SuspendedKept s t ∧ ctx t = ⟨.idle, fs⟩ ∧
      timerState t = (if s.stsMode = .single then .stopped else timerState s) ∧
      t.stsEnable = (if s.stsMode = .single then false else s.stsEnable) ∧
      t = { s with stsEnable := t.stsEnable, main := t.main, handlers := t.handlers,
                   stsCountFlag := if s.stsMode = .single ∧ s.cfg.ctrlFieldWrite = .rmw then false
                                   else s.stsCountFlag,
                   schedule := rest,
                   outputs := if port then responded .ok 0 s else s.outputs }

/-- R161, R166, R201: a count event counts on the selected input with `ENABLE` = 1, and else changes
nothing. At 0 it reloads with no flag; else it decrements, and on reaching 0 it sets the flag and, with
`TICKINT` = 1, makes `STS_SRC` pending. Under inhibit a counted event makes every busy-wait
in Spin one older, the suspended contexts' as well (log 12). -/
def Obligations.CountEventRule : Prop :=
  ∀ (s : State) (input : Bool) (rest : List Event), Next (.count input) rest s →
    (s.stsEnable = false ∨ s.stsClkSource ≠ input →
      step s = .next (settle { s with schedule := rest })) ∧
    (s.stsEnable = true → s.stsClkSource = input →
      ∃ (t : State) (f : BusyWait → BusyWait), step s = .next (settle t) ∧ f .idle = .idle ∧
        (∀ age, f (.spin age) = .spin (if s.irqInhibit then age + 1 else age)) ∧
        t = { s with
          main := { s.main with bw := f s.main.bw }
          handlers := s.handlers.map fun h => { h with ctx := { h.ctx with bw := f h.ctx.bw } }
          stsCurrent := t.stsCurrent, stsCountFlag := t.stsCountFlag,
          icPending := t.icPending, schedule := rest } ∧
        (s.stsCurrent = 0 →
          t.stsCurrent = s.stsReload ∧ t.stsCountFlag = s.stsCountFlag ∧
            t.icPending = s.icPending) ∧
        (s.stsCurrent ≠ 0 →
          t.stsCurrent.toNat = s.stsCurrent.toNat - 1 ∧
          t.stsCountFlag = (s.stsCountFlag || t.stsCurrent == 0) ∧
          ∀ j, j < 240 → t.icPending.getLsbD j =
            (s.icPending.getLsbD j || (s.stsTickInt && t.stsCurrent == 0 && j == s.cfg.stsSrc))))

/-- R162: from a start with reload `r` of at least 1 and current 0, the counter has not crossed zero after
`n` of its count events for any `n` up to `r`, and has after `r + 1`, when it stands at 0 again; with
reload 0 it never sets the flag nor raises the interrupt, whatever count events come. -/
def Obligations.CrossingAfterReloadPlusOneEvents : Prop :=
  ∀ s : State, s.stsCurrent = 0 →
    (s.stsEnable = true → s.stsCountFlag = false → s.stsReload ≠ 0 →
      (∀ n, n ≤ s.stsReload.toNat → ((countEvent s.stsClkSource)^[n] s).stsCountFlag = false) ∧
      ((countEvent s.stsClkSource)^[s.stsReload.toNat + 1] s).stsCountFlag = true ∧
      ((countEvent s.stsClkSource)^[s.stsReload.toNat + 1] s).stsCurrent = 0) ∧
    (s.stsReload = 0 → ∀ inputs : List Bool,
      (inputs.foldl (fun t c => countEvent c t) s).stsCountFlag = s.stsCountFlag ∧
      (inputs.foldl (fun t c => countEvent c t) s).icPending = s.icPending)

/-- R162: with no raw register write, `STS_CURRENT` stays at most `STS_RELOAD`. -/
def Obligations.CurrentStaysBelowReload : Prop :=
  ∀ s t : State, s.stsCurrent ≤ s.stsReload → step s = .next t →
    (∀ n data, fetch s ≠ .instruction (.regWr n data)) → t.stsCurrent ≤ t.stsReload

/-! ### Requests, arbitration, taking a trap and returning (R196 to R217) -/

/-- R202: a request on an input `REQ_EXT[i]` of a source that neither the EIR nor the STS owns makes it
pending, at any time. -/
def Obligations.ExternalRequestPends : Prop :=
  ∀ (s : State) (i : Fin 240) (rest : List Event), Next (.raise i) rest s →
    linesOf s.cfg i.val = [] → i.val ≠ s.cfg.stsSrc →
    ∃ t, step s = .next t ∧
      t = settle { s with icPending := t.icPending, schedule := rest } ∧
      ∀ j, j < 240 → t.icPending.getLsbD j = (s.icPending.getLsbD j || j == i.val)

/-- R205, R206: `best` is the candidate with the smallest priority field, among equals the one with the
smallest index; there is none exactly when no source is pending, enabled and not active. -/
def Obligations.BestIsMostUrgentCandidate : Prop :=
  ∀ s : State,
    (∀ b, best s = some b ↔ b < 240 ∧
      (s.icPending.getLsbD b && s.icEnable.getLsbD b && !s.icActive.getLsbD b) = true ∧
      ∀ j, j < 240 → (s.icPending.getLsbD j && s.icEnable.getLsbD j && !s.icActive.getLsbD j) = true →
        prioField s b < prioField s j ∨ (prioField s b = prioField s j ∧ b ≤ j)) ∧
    (best s = none ↔ ∀ j, j < 240 →
      (s.icPending.getLsbD j && s.icEnable.getLsbD j && !s.icActive.getLsbD j) = false)

/-- R203 to R206: a take step occurs exactly when `IRQ_INHIBIT` = 0 and `pre` of `best` is below `CUR`, the least
of `pre` over the sources in service and, in the main context, 256 or 16. `pre` is the whole field with
`PREEMPT_FIELD` = full, and with group the field shifted right by 4 and by the subgroup width, which is 0 for
`GROUPSEL` 0 to 3 and 1 to 4 for 4 to 7 (`93_implementation_defined.md` Part 2) and a free value above (log 17).
Otherwise a scheduled take changes nothing (log 6). -/
def Obligations.TakeNeedsStrictlyMoreUrgentSource : Prop :=
  ∀ (s : State) (rest : List Event), Next .take rest s →
    ∃ (sw idle : Nat) (pre : Nat → Nat),
      (s.icGroupSel.toNat ≤ 7 → sw = s.icGroupSel.toNat - 3) ∧
      (s.cfg.preemptField = .full → idle = 256 ∧ ∀ j, pre j = (prioField s j).toNat) ∧
      (s.cfg.preemptField = .group →
        idle = 16 ∧ ∀ j, pre j = (prioField s j).toNat / 2 ^ (4 + sw)) ∧
      (∀ b, s.irqInhibit = false → best s = some b → pre b < idle →
        (∀ j ∈ nest s, pre b < pre j) →
        step s = .next (settle (takeTrap b { s with schedule := rest }))) ∧
      ((s.irqInhibit = true ∨ best s = none ∨
          ∃ b, best s = some b ∧ (idle ≤ pre b ∨ ∃ j ∈ nest s, pre j ≤ pre b)) →
        step s = .next (settle { s with schedule := rest }))

/-- R196, R205, R209, R210 to R214: the lines of a source are those that `EIR_SRC` maps to it, in ascending
order; and what taking a trap changes: the pending bit cleared, the active bit set, the
source pushed, the event emitted, the handler body of the source's owner at its start; nothing else. -/
def Obligations.TakingATrap : Prop :=
  (∀ (c : Config) (i : Nat), (linesOf c i).Pairwise (· < ·) ∧
    ∀ l, l ∈ linesOf c i ↔ ∃ h : l < 16, c.eirSrc[l] = i) ∧
  ∀ (s : State) (i : Nat), i < 240 →
    takeTrap i s = { s with icPending := (takeTrap i s).icPending,
                            icActive := (takeTrap i s).icActive,
                            handlers := (takeTrap i s).handlers,
                            outputs := .take i :: s.outputs } ∧
    (∀ j, j < 240 → (takeTrap i s).icPending.getLsbD j = (s.icPending.getLsbD j && j != i)) ∧
    (∀ j, j < 240 → (takeTrap i s).icActive.getLsbD j = (s.icActive.getLsbD j || j == i)) ∧
    nest (takeTrap i s) = nest s ++ [i] ∧ (takeTrap i s).handlers.tail = s.handlers ∧
    (ctx (takeTrap i s)).bw = .idle ∧
    ((ctx (takeTrap i s)).frames = [.stsStart] ↔ linesOf s.cfg i = [] ∧ i = s.cfg.stsSrc) ∧
    ((ctx (takeTrap i s)).frames = [.foreign] ↔ linesOf s.cfg i = [] ∧ i ≠ s.cfg.stsSrc) ∧
    (∀ l, (ctx (takeTrap i s)).frames = [.lineStart l] ↔ linesOf s.cfg i = [l]) ∧
    (∀ ls, (ctx (takeTrap i s)).frames = [.group ls] ↔ linesOf s.cfg i = ls ∧ 2 ≤ ls.length)

/-- R200, R208: returning from a trap: when the innermost handler's body has finished, its active bit is
cleared, it is popped, the event is emitted, the suspended context runs on, and a source whose request is
high and which is not active is pending. -/
def Obligations.ReturningFromATrap : Prop :=
  ∀ (s : State) (i : Nat) (hs : List Handler) (rest : List Event), Next .exit rest s →
    s.handlers = ⟨i, Ctx.start⟩ :: hs →
    ∃ t, step s = .next t ∧
      t = settle { s with icActive := t.icActive, icPending := t.icPending, handlers := hs,
                          schedule := rest, outputs := .exit i :: s.outputs } ∧
      (∀ j, j < 240 → t.icActive.getLsbD j = (s.icActive.getLsbD j && j != i)) ∧
      (∀ j, j < 240 → t.icPending.getLsbD j =
        (s.icPending.getLsbD j || (requestHigh s j && !t.icActive.getLsbD j)))

/-- R148, R172, R210, R212: the handler body of a single-line EIR source runs the routine of its line
once, without looking at the flag, and that of `STS_SRC` runs the timer's routine once: with an empty slot
the line's flag is cleared and the body ends, without a response; with a callback it is invoked, once. That a
body's first step comes after the take and ends at the callback is the model's reading (log 10). -/
def Obligations.SingleEntryBodiesRunTheirRoutine : Prop :=
  ∀ (s : State) (fs : List Frame) (rest : List Event), Next .advance rest s →
    (∀ l, ctx s = ⟨.idle, .lineStart l :: fs⟩ → ∃ t, step s = .next (settle t) ∧ SuspendedKept s t ∧
      t = { s with eirPend := t.eirPend, main := t.main, handlers := t.handlers, schedule := rest,
                   outputs := t.outputs } ∧
      (s.eirCb[l]?.getD 0 = 0 → t.outputs = s.outputs ∧ ctx t = ⟨.idle, fs⟩ ∧
        ∀ k, k < 16 → t.eirPend.getLsbD k = (s.eirPend.getLsbD k && k != l)) ∧
      (s.eirCb[l]?.getD 0 ≠ 0 → t.outputs = .cb (s.eirCb[l]?.getD 0) :: s.outputs ∧
        t.eirPend = s.eirPend ∧ ctx t = ⟨.idle, .lineCall l false :: fs⟩)) ∧
    (ctx s = ⟨.idle, .stsStart :: fs⟩ → ∃ t, step s = .next (settle t) ∧ SuspendedKept s t ∧
      t = { s with main := t.main, handlers := t.handlers, schedule := rest, outputs := t.outputs } ∧
      (s.stsCb = 0 → t.outputs = s.outputs ∧ ctx t = ⟨.idle, fs⟩) ∧
      (s.stsCb ≠ 0 → t.outputs = .cb s.stsCb :: s.outputs ∧ ctx t = ⟨.idle, .stsCall false :: fs⟩))

/-- R143, R211: a group entry looks at its lines in order: a line that is not requesting, pending and enabled, is
skipped and its flag
kept; a requesting line's routine runs, and the lines after it are looked at later; after the last line the
body has finished and nothing else changes. That one line, a skipped one too, is one step, and the end of the
loop another, is the model's reading (log 10). -/
def Obligations.GroupEntryServesRequestingLines : Prop :=
  ∀ (s : State) (fs : List Frame) (rest : List Event), Next .advance rest s →
    (∀ l ls, ctx s = ⟨.idle, .group (l :: ls) :: fs⟩ →
      ∃ t, step s = .next (settle t) ∧ SuspendedKept s t ∧
        t = { s with eirPend := t.eirPend, main := t.main, handlers := t.handlers, schedule := rest,
                     outputs := t.outputs } ∧
        ((s.eirPend.getLsbD l && s.eirMask.getLsbD l) = false →
          t.eirPend = s.eirPend ∧ t.outputs = s.outputs ∧ ctx t = ⟨.idle, .group ls :: fs⟩) ∧
        ((s.eirPend.getLsbD l && s.eirMask.getLsbD l) = true → s.eirCb[l]?.getD 0 = 0 →
          t.outputs = s.outputs ∧ ctx t = ⟨.idle, .group ls :: fs⟩ ∧
          ∀ k, k < 16 → t.eirPend.getLsbD k = (s.eirPend.getLsbD k && k != l)) ∧
        ((s.eirPend.getLsbD l && s.eirMask.getLsbD l) = true → s.eirCb[l]?.getD 0 ≠ 0 →
          t.outputs = .cb (s.eirCb[l]?.getD 0) :: s.outputs ∧ t.eirPend = s.eirPend ∧
          ctx t = ⟨.idle, .lineCall l false :: .group ls :: fs⟩)) ∧
    (ctx s = ⟨.idle, .group [] :: fs⟩ →
      ∃ t, step s = .next (settle t) ∧ SuspendedKept s t ∧ ctx t = ⟨.idle, fs⟩ ∧
        t = { s with main := t.main, handlers := t.handlers, schedule := rest })

/-- R205: an enabled take is not postponed for ever: with no other step scheduled it is the next step of
the machine (the order in which the block's own agents go on is the model's choice, log 7). -/
def Obligations.EnabledTakeOccursWhenNothingIsScheduled : Prop :=
  ∀ (s : State) (b : Nat), s.schedule = [] → s.inReset = false → takeable s = some b →
    step s = .next (settle (takeTrap b s)) ∧ b < 240 ∧
      (s.icPending.getLsbD b && s.icEnable.getLsbD b && !s.icActive.getLsbD b) = true
end

