-- ==== Sys2Proof/Laws/Bits.lean ====
section
/-! SUPPORT. What the bit-field helpers do, bit by bit or as numbers. -/

namespace Sys2Proof.Machine

theorem getLsbD_one_shiftLeft {n : Nat} (i j : Nat) (hj : j < n) :
    (1#n <<< i).getLsbD j = decide (j = i) := by
  rw [BitVec.getLsbD_shiftLeft, BitVec.getLsbD_one]
  have h0 : 0 < n := by omega
  rw [decide_eq_true hj, decide_eq_true h0, Bool.eq_iff_iff]
  simp only [Bool.true_and, Bool.and_eq_true, Bool.not_eq_true', decide_eq_false_iff_not,
    decide_eq_true_eq]
  omega

theorem getLsbD_setBit {n : Nat} (v : BitVec n) (i j : Nat) (b : Bool) :
    (setBit v i b).getLsbD j = if j = i ∧ j < n then b else v.getLsbD j := by
  by_cases hj : j < n
  · cases b <;> by_cases he : j = i <;>
      simp only [setBit, BitVec.getLsbD_or, BitVec.getLsbD_and, BitVec.getLsbD_not,
        getLsbD_one_shiftLeft _ _ hj, hj, he, decide_true, decide_false, Bool.not_false,
        Bool.and_true, Bool.or_false, and_true, true_and, if_true, if_false, Bool.false_eq_true]
    all_goals (first | rfl | (subst he; simp [hj]))
  · rw [BitVec.getLsbD_of_ge _ _ (by omega), BitVec.getLsbD_of_ge _ _ (by omega)]
    simp [hj]

theorem getLsbD_setBit_self {n : Nat} (v : BitVec n) (i : Nat) (b : Bool) (h : i < n) :
    (setBit v i b).getLsbD i = b := by rw [getLsbD_setBit, if_pos ⟨rfl, h⟩]

theorem getLsbD_setBit_ne {n : Nat} (v : BitVec n) {i j : Nat} (b : Bool) (h : j ≠ i) :
    (setBit v i b).getLsbD j = v.getLsbD j := by rw [getLsbD_setBit, if_neg (fun c => h c.1)]

theorem toNat_truncBits {n : Nat} (k : Nat) (v : BitVec n) :
    (truncBits k v).toNat = v.toNat % 2 ^ k := by
  have h : v.toNat % 2 ^ k < 2 ^ n := lt_of_le_of_lt (Nat.mod_le _ _) v.isLt
  simp [truncBits, Nat.mod_eq_of_lt h]

theorem getLsbD_bankWord (v : BitVec 240) (k b : Nat) :
    (bankWord v k).getLsbD b = (decide (b < 32) && v.getLsbD (32 * k + b)) := by
  simp [bankWord]

theorem getLsbD_bankMask (d : Word) (k j : Nat) (hj : j < 240) :
    (bankMask d k).getLsbD j = (j / 32 == k && d.getLsbD (j % 32)) := by
  rw [bankMask, BitVec.getLsbD_shiftLeft, BitVec.getLsbD_setWidth]
  by_cases h : j < 32 * k
  · have : j / 32 ≠ k := by omega
    simp [h, this]
  · by_cases he : j / 32 = k
    · have h1 : j - 32 * k = j % 32 := by omega
      have h2 : j % 32 < 240 := by omega
      simp [hj, h, he, h1, h2]
    · have h1 : 32 ≤ j - 32 * k := by omega
      have h2 : d.getLsbD (j - 32 * k) = false := BitVec.getLsbD_of_ge _ _ h1
      simp [he, h2]

/-- A bank built by setting the bits that a list of positions selects. -/
theorem getLsbD_foldl_setBit {n : Nat} (ls : List Nat) (sel : Nat → Bool) (pos : Nat → Nat)
    (v : BitVec n) (i : Nat) (hi : i < n) :
    (ls.foldl (fun v l => if sel l then setBit v (pos l) true else v) v).getLsbD i
      = (v.getLsbD i || ls.any fun l => sel l && pos l == i) := by
  induction ls generalizing v with
  | nil => simp
  | cons l ls ih =>
    rw [List.foldl_cons, ih, List.any_cons]
    by_cases hs : sel l = true
    · by_cases hp : i = pos l
      · subst hp; rw [if_pos hs, getLsbD_setBit_self _ _ _ hi]; simp [hs]
      · have hp' : (pos l == i) = false := by simp; omega
        simp [hs, getLsbD_setBit_ne _ _ hp, hp']
    · simp [hs]

/-- A bank built by writing bits at a list of positions. -/
theorem getLsbD_foldl_writeBits {n : Nat} (ls : List Nat) (f : Nat → Bool) (v : BitVec n) (i : Nat)
    (hi : i < n) :
    (ls.foldl (fun v l => setBit v l (f l)) v).getLsbD i
      = if i ∈ ls then f i else v.getLsbD i := by
  induction ls generalizing v with
  | nil => simp
  | cons l ls ih =>
    rw [List.foldl_cons, ih]
    by_cases hm : i ∈ ls
    · simp [hm]
    · by_cases hl : i = l
      · subst hl; rw [getLsbD_setBit_self _ _ _ hi]; simp [hm]
      · simp [hm, hl, getLsbD_setBit_ne _ _ hl]

theorem getLsbD_muxLevels (s : State) (l : Nat) (h : l < 16) :
    (muxLevels s).getLsbD l = muxLevel s l := by
  rw [muxLevels, getLsbD_foldl_writeBits _ _ _ _ h]
  simp [h]

end Sys2Proof.Machine
end

