-- ==== Sys2Proof/Laws/Encoding.lean ====
section
/-! SUPPORT. The fields of a command word and the word of its fields are inverse (R91). -/

namespace Sys2Proof

theorem extractLsb'_append_low {n m : Nat} (x : BitVec n) (y : BitVec m) (k w : Nat)
    (h : k + w ≤ m) : (x ++ y).extractLsb' k w = y.extractLsb' k w := by
  apply BitVec.eq_of_getLsbD_eq
  intro i hi
  have h1 : k + i < m := by omega
  simp only [BitVec.getLsbD_extractLsb', BitVec.getLsbD_append, h1, if_true]

theorem extractLsb'_append_high {n m : Nat} (x : BitVec n) (y : BitVec m) (k w : Nat)
    (h : m ≤ k) : (x ++ y).extractLsb' k w = x.extractLsb' (k - m) w := by
  apply BitVec.eq_of_getLsbD_eq
  intro i hi
  have h1 : ¬ k + i < m := by omega
  have h2 : k + i - m = k - m + i := by omega
  simp only [BitVec.getLsbD_extractLsb', BitVec.getLsbD_append, h1, if_false, h2]

theorem extractLsb'_whole {n : Nat} (x : BitVec n) : x.extractLsb' 0 n = x := by
  apply BitVec.eq_of_getLsbD_eq
  intro i hi
  rw [BitVec.getLsbD_extractLsb', decide_eq_true hi, Bool.true_and, Nat.zero_add]

/-- Two neighbouring slices are one. -/
theorem extractLsb'_append_extractLsb' {n : Nat} (x : BitVec n) (k a b : Nat) :
    (x.extractLsb' (k + b) a ++ x.extractLsb' k b : BitVec (a + b)) = x.extractLsb' k (a + b) := by
  apply BitVec.eq_of_getLsbD_eq
  intro i hi
  rw [BitVec.getLsbD_append]
  by_cases h : i < b
  · simp only [h, if_true, BitVec.getLsbD_extractLsb', decide_true, Bool.true_and,
      show i < a + b from hi]
  · have h1 : i - b < a := by omega
    have h2 : k + b + (i - b) = k + i := by omega
    simp only [h, if_false, BitVec.getLsbD_extractLsb', h1, decide_true, Bool.true_and, h2,
      show i < a + b from hi]

theorem Fields.ofWord_toWord (f : Fields) : Fields.ofWord f.toWord = f := by
  obtain ⟨opc, c, b, a, w⟩ := f
  simp only [Fields.ofWord, Fields.toWord, Fields.mk.injEq]
  refine ⟨?_, ?_, ?_, ?_, ?_⟩
  · rw [extractLsb'_append_high _ _ _ _ (by decide)]; exact extractLsb'_whole opc
  · rw [extractLsb'_append_low _ _ _ _ (by decide), extractLsb'_append_high _ _ _ _ (by decide)]
    exact extractLsb'_whole c
  · rw [extractLsb'_append_low _ _ _ _ (by decide), extractLsb'_append_low _ _ _ _ (by decide),
      extractLsb'_append_high _ _ _ _ (by decide)]
    exact extractLsb'_whole b
  · rw [extractLsb'_append_low _ _ _ _ (by decide), extractLsb'_append_low _ _ _ _ (by decide),
      extractLsb'_append_low _ _ _ _ (by decide), extractLsb'_append_high _ _ _ _ (by decide)]
    exact extractLsb'_whole a
  · rw [extractLsb'_append_low _ _ _ _ (by decide), extractLsb'_append_low _ _ _ _ (by decide),
      extractLsb'_append_low _ _ _ _ (by decide), extractLsb'_append_low _ _ _ _ (by decide)]
    exact extractLsb'_whole w

theorem Fields.toWord_ofWord (cw : CmdWord) : (Fields.ofWord cw).toWord = cw := by
  simp only [Fields.ofWord, Fields.toWord]
  rw [extractLsb'_append_extractLsb' cw 0 8 32, extractLsb'_append_extractLsb' cw 0 8 40,
    extractLsb'_append_extractLsb' cw 0 8 48, extractLsb'_append_extractLsb' cw 0 8 56]
  exact extractLsb'_whole cw

theorem ofWord_encode (i : Instr) : Fields.ofWord (encode i) = i.fields :=
  Fields.ofWord_toWord i.fields

/-- The two halves of a 16-bit operand make it up again. -/
theorem highByte_append_lowByte (v : BitVec 16) : highByte v ++ lowByte v = v :=
  (extractLsb'_append_extractLsb' v 0 8 8).trans (extractLsb'_whole v)

end Sys2Proof
end

