-- ==== Sys2Proof/Laws/State.lean ====
section
/-! SUPPORT. The fields that each named update leaves as they are, one lemma a field, and what the updates
put into the fields they write. -/

namespace Sys2Proof.Machine

@[simp] theorem emit_outputs (o : Output) (s : State) : (emit o s).outputs = o :: s.outputs := rfl
@[simp] theorem respond_outputs (v : Word) (s : State) :
    (respond v s).outputs = .response (issuer s) .ok v :: s.outputs := rfl
@[simp] theorem raise_outputs (e : Status) (s : State) :
    (raise e s).outputs = .response (issuer s) e 0 :: s.outputs := rfl
@[simp] theorem dropScheduled_schedule (s : State) :
    (dropScheduled s).schedule = s.schedule.tail := rfl
@[simp] theorem loadTimer_stsReload (ticks : Word) (s : State) :
    (loadTimer ticks s).stsReload = truncBits s.cfg.tickBits ticks := rfl
@[simp] theorem loadTimer_stsCurrent (ticks : Word) (s : State) :
    (loadTimer ticks s).stsCurrent = 0 := rfl
@[simp] theorem loadTimer_stsCountFlag (ticks : Word) (s : State) :
    (loadTimer ticks s).stsCountFlag = false := rfl
@[simp] theorem storeEirCfg_eirCfg (r : Nat) (v : Word) (s : State) :
    (storeEirCfg r v s).eirCfg = s.eirCfg.setIfInBounds r (v.setWidth 16) := rfl
@[simp] theorem setTimerEnable_stsEnable (b : Bool) (s : State) :
    (setTimerEnable b s).stsEnable = b := rfl
@[simp] theorem takeTrap_icPending (i : Nat) (s : State) :
    (takeTrap i s).icPending = setBit s.icPending i false := rfl
@[simp] theorem takeTrap_icActive (i : Nat) (s : State) :
    (takeTrap i s).icActive = setBit s.icActive i true := rfl
@[simp] theorem takeTrap_handlers (i : Nat) (s : State) :
    (takeTrap i s).handlers = ⟨i, ⟨.idle, handlerBody s.cfg i⟩⟩ :: s.handlers := rfl
@[simp] theorem exitTrap_icActive (i : Nat) (s : State) :
    (exitTrap i s).icActive = setBit s.icActive i false := rfl
@[simp] theorem exitTrap_handlers (i : Nat) (s : State) :
    (exitTrap i s).handlers = s.handlers.tail := rfl

/-! ### `emit` -/

@[simp] theorem emit_cfg (o : Output) (s : State) : (emit o s).cfg = s.cfg := rfl
@[simp] theorem emit_inReset (o : Output) (s : State) : (emit o s).inReset = s.inReset := rfl
@[simp] theorem emit_irqInhibit (o : Output) (s : State) : (emit o s).irqInhibit = s.irqInhibit :=
  rfl
@[simp] theorem emit_pins (o : Output) (s : State) : (emit o s).pins = s.pins := rfl
@[simp] theorem emit_icEnable (o : Output) (s : State) : (emit o s).icEnable = s.icEnable := rfl
@[simp] theorem emit_icPending (o : Output) (s : State) : (emit o s).icPending = s.icPending := rfl
@[simp] theorem emit_icActive (o : Output) (s : State) : (emit o s).icActive = s.icActive := rfl
@[simp] theorem emit_icPrio (o : Output) (s : State) : (emit o s).icPrio = s.icPrio := rfl
@[simp] theorem emit_icGroupSel (o : Output) (s : State) : (emit o s).icGroupSel = s.icGroupSel :=
  rfl
@[simp] theorem emit_icGMode (o : Output) (s : State) : (emit o s).icGMode = s.icGMode := rfl
@[simp] theorem emit_eirCfg (o : Output) (s : State) : (emit o s).eirCfg = s.eirCfg := rfl
@[simp] theorem emit_eirMask (o : Output) (s : State) : (emit o s).eirMask = s.eirMask := rfl
@[simp] theorem emit_eirRise (o : Output) (s : State) : (emit o s).eirRise = s.eirRise := rfl
@[simp] theorem emit_eirFall (o : Output) (s : State) : (emit o s).eirFall = s.eirFall := rfl
@[simp] theorem emit_eirPend (o : Output) (s : State) : (emit o s).eirPend = s.eirPend := rfl
@[simp] theorem emit_eirPrev (o : Output) (s : State) : (emit o s).eirPrev = s.eirPrev := rfl
@[simp] theorem emit_eirCb (o : Output) (s : State) : (emit o s).eirCb = s.eirCb := rfl
@[simp] theorem emit_stsEnable (o : Output) (s : State) : (emit o s).stsEnable = s.stsEnable := rfl
@[simp] theorem emit_stsTickInt (o : Output) (s : State) : (emit o s).stsTickInt = s.stsTickInt :=
  rfl
@[simp] theorem emit_stsClkSource (o : Output) (s : State) : (emit o s).stsClkSource = s.stsClkSource :=
  rfl
@[simp] theorem emit_stsCountFlag (o : Output) (s : State) : (emit o s).stsCountFlag = s.stsCountFlag :=
  rfl
@[simp] theorem emit_stsReload (o : Output) (s : State) : (emit o s).stsReload = s.stsReload := rfl
@[simp] theorem emit_stsCurrent (o : Output) (s : State) : (emit o s).stsCurrent = s.stsCurrent :=
  rfl
@[simp] theorem emit_stsCb (o : Output) (s : State) : (emit o s).stsCb = s.stsCb := rfl
@[simp] theorem emit_stsMode (o : Output) (s : State) : (emit o s).stsMode = s.stsMode := rfl
@[simp] theorem emit_main (o : Output) (s : State) : (emit o s).main = s.main := rfl
@[simp] theorem emit_handlers (o : Output) (s : State) : (emit o s).handlers = s.handlers := rfl
@[simp] theorem emit_schedule (o : Output) (s : State) : (emit o s).schedule = s.schedule := rfl

/-! ### `respond` -/

@[simp] theorem respond_cfg (v : Word) (s : State) : (respond v s).cfg = s.cfg := rfl
@[simp] theorem respond_inReset (v : Word) (s : State) : (respond v s).inReset = s.inReset := rfl
@[simp] theorem respond_irqInhibit (v : Word) (s : State) : (respond v s).irqInhibit = s.irqInhibit :=
  rfl
@[simp] theorem respond_pins (v : Word) (s : State) : (respond v s).pins = s.pins := rfl
@[simp] theorem respond_icEnable (v : Word) (s : State) : (respond v s).icEnable = s.icEnable := rfl
@[simp] theorem respond_icPending (v : Word) (s : State) : (respond v s).icPending = s.icPending :=
  rfl
@[simp] theorem respond_icActive (v : Word) (s : State) : (respond v s).icActive = s.icActive := rfl
@[simp] theorem respond_icPrio (v : Word) (s : State) : (respond v s).icPrio = s.icPrio := rfl
@[simp] theorem respond_icGroupSel (v : Word) (s : State) : (respond v s).icGroupSel = s.icGroupSel :=
  rfl
@[simp] theorem respond_icGMode (v : Word) (s : State) : (respond v s).icGMode = s.icGMode := rfl
@[simp] theorem respond_eirCfg (v : Word) (s : State) : (respond v s).eirCfg = s.eirCfg := rfl
@[simp] theorem respond_eirMask (v : Word) (s : State) : (respond v s).eirMask = s.eirMask := rfl
@[simp] theorem respond_eirRise (v : Word) (s : State) : (respond v s).eirRise = s.eirRise := rfl
@[simp] theorem respond_eirFall (v : Word) (s : State) : (respond v s).eirFall = s.eirFall := rfl
@[simp] theorem respond_eirPend (v : Word) (s : State) : (respond v s).eirPend = s.eirPend := rfl
@[simp] theorem respond_eirPrev (v : Word) (s : State) : (respond v s).eirPrev = s.eirPrev := rfl
@[simp] theorem respond_eirCb (v : Word) (s : State) : (respond v s).eirCb = s.eirCb := rfl
@[simp] theorem respond_stsEnable (v : Word) (s : State) : (respond v s).stsEnable = s.stsEnable :=
  rfl
@[simp] theorem respond_stsTickInt (v : Word) (s : State) : (respond v s).stsTickInt = s.stsTickInt :=
  rfl
@[simp] theorem respond_stsClkSource (v : Word) (s : State) : (respond v s).stsClkSource = s.stsClkSource :=
  rfl
@[simp] theorem respond_stsCountFlag (v : Word) (s : State) : (respond v s).stsCountFlag = s.stsCountFlag :=
  rfl
@[simp] theorem respond_stsReload (v : Word) (s : State) : (respond v s).stsReload = s.stsReload :=
  rfl
@[simp] theorem respond_stsCurrent (v : Word) (s : State) : (respond v s).stsCurrent = s.stsCurrent :=
  rfl
@[simp] theorem respond_stsCb (v : Word) (s : State) : (respond v s).stsCb = s.stsCb := rfl
@[simp] theorem respond_stsMode (v : Word) (s : State) : (respond v s).stsMode = s.stsMode := rfl
@[simp] theorem respond_main (v : Word) (s : State) : (respond v s).main = s.main := rfl
@[simp] theorem respond_handlers (v : Word) (s : State) : (respond v s).handlers = s.handlers := rfl
@[simp] theorem respond_schedule (v : Word) (s : State) : (respond v s).schedule = s.schedule := rfl

/-! ### `raise` -/

@[simp] theorem raise_cfg (e : Status) (s : State) : (raise e s).cfg = s.cfg := rfl
@[simp] theorem raise_inReset (e : Status) (s : State) : (raise e s).inReset = s.inReset := rfl
@[simp] theorem raise_irqInhibit (e : Status) (s : State) : (raise e s).irqInhibit = s.irqInhibit :=
  rfl
@[simp] theorem raise_pins (e : Status) (s : State) : (raise e s).pins = s.pins := rfl
@[simp] theorem raise_icEnable (e : Status) (s : State) : (raise e s).icEnable = s.icEnable := rfl
@[simp] theorem raise_icPending (e : Status) (s : State) : (raise e s).icPending = s.icPending :=
  rfl
@[simp] theorem raise_icActive (e : Status) (s : State) : (raise e s).icActive = s.icActive := rfl
@[simp] theorem raise_icPrio (e : Status) (s : State) : (raise e s).icPrio = s.icPrio := rfl
@[simp] theorem raise_icGroupSel (e : Status) (s : State) : (raise e s).icGroupSel = s.icGroupSel :=
  rfl
@[simp] theorem raise_icGMode (e : Status) (s : State) : (raise e s).icGMode = s.icGMode := rfl
@[simp] theorem raise_eirCfg (e : Status) (s : State) : (raise e s).eirCfg = s.eirCfg := rfl
@[simp] theorem raise_eirMask (e : Status) (s : State) : (raise e s).eirMask = s.eirMask := rfl
@[simp] theorem raise_eirRise (e : Status) (s : State) : (raise e s).eirRise = s.eirRise := rfl
@[simp] theorem raise_eirFall (e : Status) (s : State) : (raise e s).eirFall = s.eirFall := rfl
@[simp] theorem raise_eirPend (e : Status) (s : State) : (raise e s).eirPend = s.eirPend := rfl
@[simp] theorem raise_eirPrev (e : Status) (s : State) : (raise e s).eirPrev = s.eirPrev := rfl
@[simp] theorem raise_eirCb (e : Status) (s : State) : (raise e s).eirCb = s.eirCb := rfl
@[simp] theorem raise_stsEnable (e : Status) (s : State) : (raise e s).stsEnable = s.stsEnable :=
  rfl
@[simp] theorem raise_stsTickInt (e : Status) (s : State) : (raise e s).stsTickInt = s.stsTickInt :=
  rfl
@[simp] theorem raise_stsClkSource (e : Status) (s : State) : (raise e s).stsClkSource = s.stsClkSource :=
  rfl
@[simp] theorem raise_stsCountFlag (e : Status) (s : State) : (raise e s).stsCountFlag = s.stsCountFlag :=
  rfl
@[simp] theorem raise_stsReload (e : Status) (s : State) : (raise e s).stsReload = s.stsReload :=
  rfl
@[simp] theorem raise_stsCurrent (e : Status) (s : State) : (raise e s).stsCurrent = s.stsCurrent :=
  rfl
@[simp] theorem raise_stsCb (e : Status) (s : State) : (raise e s).stsCb = s.stsCb := rfl
@[simp] theorem raise_stsMode (e : Status) (s : State) : (raise e s).stsMode = s.stsMode := rfl
@[simp] theorem raise_main (e : Status) (s : State) : (raise e s).main = s.main := rfl
@[simp] theorem raise_handlers (e : Status) (s : State) : (raise e s).handlers = s.handlers := rfl
@[simp] theorem raise_schedule (e : Status) (s : State) : (raise e s).schedule = s.schedule := rfl

/-! ### `dropScheduled` -/

@[simp] theorem dropScheduled_cfg (s : State) : (dropScheduled s).cfg = s.cfg := rfl
@[simp] theorem dropScheduled_inReset (s : State) : (dropScheduled s).inReset = s.inReset := rfl
@[simp] theorem dropScheduled_irqInhibit (s : State) : (dropScheduled s).irqInhibit = s.irqInhibit :=
  rfl
@[simp] theorem dropScheduled_pins (s : State) : (dropScheduled s).pins = s.pins := rfl
@[simp] theorem dropScheduled_icEnable (s : State) : (dropScheduled s).icEnable = s.icEnable := rfl
@[simp] theorem dropScheduled_icPending (s : State) : (dropScheduled s).icPending = s.icPending :=
  rfl
@[simp] theorem dropScheduled_icActive (s : State) : (dropScheduled s).icActive = s.icActive := rfl
@[simp] theorem dropScheduled_icPrio (s : State) : (dropScheduled s).icPrio = s.icPrio := rfl
@[simp] theorem dropScheduled_icGroupSel (s : State) : (dropScheduled s).icGroupSel = s.icGroupSel :=
  rfl
@[simp] theorem dropScheduled_icGMode (s : State) : (dropScheduled s).icGMode = s.icGMode := rfl
@[simp] theorem dropScheduled_eirCfg (s : State) : (dropScheduled s).eirCfg = s.eirCfg := rfl
@[simp] theorem dropScheduled_eirMask (s : State) : (dropScheduled s).eirMask = s.eirMask := rfl
@[simp] theorem dropScheduled_eirRise (s : State) : (dropScheduled s).eirRise = s.eirRise := rfl
@[simp] theorem dropScheduled_eirFall (s : State) : (dropScheduled s).eirFall = s.eirFall := rfl
@[simp] theorem dropScheduled_eirPend (s : State) : (dropScheduled s).eirPend = s.eirPend := rfl
@[simp] theorem dropScheduled_eirPrev (s : State) : (dropScheduled s).eirPrev = s.eirPrev := rfl
@[simp] theorem dropScheduled_eirCb (s : State) : (dropScheduled s).eirCb = s.eirCb := rfl
@[simp] theorem dropScheduled_stsEnable (s : State) : (dropScheduled s).stsEnable = s.stsEnable :=
  rfl
@[simp] theorem dropScheduled_stsTickInt (s : State) : (dropScheduled s).stsTickInt = s.stsTickInt :=
  rfl
@[simp] theorem dropScheduled_stsClkSource (s : State) : (dropScheduled s).stsClkSource = s.stsClkSource :=
  rfl
@[simp] theorem dropScheduled_stsCountFlag (s : State) : (dropScheduled s).stsCountFlag = s.stsCountFlag :=
  rfl
@[simp] theorem dropScheduled_stsReload (s : State) : (dropScheduled s).stsReload = s.stsReload :=
  rfl
@[simp] theorem dropScheduled_stsCurrent (s : State) : (dropScheduled s).stsCurrent = s.stsCurrent :=
  rfl
@[simp] theorem dropScheduled_stsCb (s : State) : (dropScheduled s).stsCb = s.stsCb := rfl
@[simp] theorem dropScheduled_stsMode (s : State) : (dropScheduled s).stsMode = s.stsMode := rfl
@[simp] theorem dropScheduled_main (s : State) : (dropScheduled s).main = s.main := rfl
@[simp] theorem dropScheduled_handlers (s : State) : (dropScheduled s).handlers = s.handlers := rfl
@[simp] theorem dropScheduled_outputs (s : State) : (dropScheduled s).outputs = s.outputs := rfl

/-! ### `pendLevels` -/

@[simp] theorem pendLevels_cfg (s : State) : (pendLevels s).cfg = s.cfg := rfl
@[simp] theorem pendLevels_inReset (s : State) : (pendLevels s).inReset = s.inReset := rfl
@[simp] theorem pendLevels_irqInhibit (s : State) : (pendLevels s).irqInhibit = s.irqInhibit := rfl
@[simp] theorem pendLevels_pins (s : State) : (pendLevels s).pins = s.pins := rfl
@[simp] theorem pendLevels_icEnable (s : State) : (pendLevels s).icEnable = s.icEnable := rfl
@[simp] theorem pendLevels_icActive (s : State) : (pendLevels s).icActive = s.icActive := rfl
@[simp] theorem pendLevels_icPrio (s : State) : (pendLevels s).icPrio = s.icPrio := rfl
@[simp] theorem pendLevels_icGroupSel (s : State) : (pendLevels s).icGroupSel = s.icGroupSel := rfl
@[simp] theorem pendLevels_icGMode (s : State) : (pendLevels s).icGMode = s.icGMode := rfl
@[simp] theorem pendLevels_eirCfg (s : State) : (pendLevels s).eirCfg = s.eirCfg := rfl
@[simp] theorem pendLevels_eirMask (s : State) : (pendLevels s).eirMask = s.eirMask := rfl
@[simp] theorem pendLevels_eirRise (s : State) : (pendLevels s).eirRise = s.eirRise := rfl
@[simp] theorem pendLevels_eirFall (s : State) : (pendLevels s).eirFall = s.eirFall := rfl
@[simp] theorem pendLevels_eirPend (s : State) : (pendLevels s).eirPend = s.eirPend := rfl
@[simp] theorem pendLevels_eirPrev (s : State) : (pendLevels s).eirPrev = s.eirPrev := rfl
@[simp] theorem pendLevels_eirCb (s : State) : (pendLevels s).eirCb = s.eirCb := rfl
@[simp] theorem pendLevels_stsEnable (s : State) : (pendLevels s).stsEnable = s.stsEnable := rfl
@[simp] theorem pendLevels_stsTickInt (s : State) : (pendLevels s).stsTickInt = s.stsTickInt := rfl
@[simp] theorem pendLevels_stsClkSource (s : State) : (pendLevels s).stsClkSource = s.stsClkSource :=
  rfl
@[simp] theorem pendLevels_stsCountFlag (s : State) : (pendLevels s).stsCountFlag = s.stsCountFlag :=
  rfl
@[simp] theorem pendLevels_stsReload (s : State) : (pendLevels s).stsReload = s.stsReload := rfl
@[simp] theorem pendLevels_stsCurrent (s : State) : (pendLevels s).stsCurrent = s.stsCurrent := rfl
@[simp] theorem pendLevels_stsCb (s : State) : (pendLevels s).stsCb = s.stsCb := rfl
@[simp] theorem pendLevels_stsMode (s : State) : (pendLevels s).stsMode = s.stsMode := rfl
@[simp] theorem pendLevels_main (s : State) : (pendLevels s).main = s.main := rfl
@[simp] theorem pendLevels_handlers (s : State) : (pendLevels s).handlers = s.handlers := rfl
@[simp] theorem pendLevels_schedule (s : State) : (pendLevels s).schedule = s.schedule := rfl
@[simp] theorem pendLevels_outputs (s : State) : (pendLevels s).outputs = s.outputs := rfl

/-! ### `detectLine` -/

@[simp] theorem detectLine_cfg (l : Nat) (s : State) : (detectLine l s).cfg = s.cfg := rfl
@[simp] theorem detectLine_inReset (l : Nat) (s : State) : (detectLine l s).inReset = s.inReset :=
  rfl
@[simp] theorem detectLine_irqInhibit (l : Nat) (s : State) : (detectLine l s).irqInhibit = s.irqInhibit :=
  rfl
@[simp] theorem detectLine_pins (l : Nat) (s : State) : (detectLine l s).pins = s.pins := rfl
@[simp] theorem detectLine_icEnable (l : Nat) (s : State) : (detectLine l s).icEnable = s.icEnable :=
  rfl
@[simp] theorem detectLine_icPending (l : Nat) (s : State) : (detectLine l s).icPending = s.icPending :=
  rfl
@[simp] theorem detectLine_icActive (l : Nat) (s : State) : (detectLine l s).icActive = s.icActive :=
  rfl
@[simp] theorem detectLine_icPrio (l : Nat) (s : State) : (detectLine l s).icPrio = s.icPrio := rfl
@[simp] theorem detectLine_icGroupSel (l : Nat) (s : State) : (detectLine l s).icGroupSel = s.icGroupSel :=
  rfl
@[simp] theorem detectLine_icGMode (l : Nat) (s : State) : (detectLine l s).icGMode = s.icGMode :=
  rfl
@[simp] theorem detectLine_eirCfg (l : Nat) (s : State) : (detectLine l s).eirCfg = s.eirCfg := rfl
@[simp] theorem detectLine_eirMask (l : Nat) (s : State) : (detectLine l s).eirMask = s.eirMask :=
  rfl
@[simp] theorem detectLine_eirRise (l : Nat) (s : State) : (detectLine l s).eirRise = s.eirRise :=
  rfl
@[simp] theorem detectLine_eirFall (l : Nat) (s : State) : (detectLine l s).eirFall = s.eirFall :=
  rfl
@[simp] theorem detectLine_eirCb (l : Nat) (s : State) : (detectLine l s).eirCb = s.eirCb := rfl
@[simp] theorem detectLine_stsEnable (l : Nat) (s : State) : (detectLine l s).stsEnable = s.stsEnable :=
  rfl
@[simp] theorem detectLine_stsTickInt (l : Nat) (s : State) : (detectLine l s).stsTickInt = s.stsTickInt :=
  rfl
@[simp] theorem detectLine_stsClkSource (l : Nat) (s : State) : (detectLine l s).stsClkSource = s.stsClkSource :=
  rfl
@[simp] theorem detectLine_stsCountFlag (l : Nat) (s : State) : (detectLine l s).stsCountFlag = s.stsCountFlag :=
  rfl
@[simp] theorem detectLine_stsReload (l : Nat) (s : State) : (detectLine l s).stsReload = s.stsReload :=
  rfl
@[simp] theorem detectLine_stsCurrent (l : Nat) (s : State) : (detectLine l s).stsCurrent = s.stsCurrent :=
  rfl
@[simp] theorem detectLine_stsCb (l : Nat) (s : State) : (detectLine l s).stsCb = s.stsCb := rfl
@[simp] theorem detectLine_stsMode (l : Nat) (s : State) : (detectLine l s).stsMode = s.stsMode :=
  rfl
@[simp] theorem detectLine_main (l : Nat) (s : State) : (detectLine l s).main = s.main := rfl
@[simp] theorem detectLine_handlers (l : Nat) (s : State) : (detectLine l s).handlers = s.handlers :=
  rfl
@[simp] theorem detectLine_schedule (l : Nat) (s : State) : (detectLine l s).schedule = s.schedule :=
  rfl
@[simp] theorem detectLine_outputs (l : Nat) (s : State) : (detectLine l s).outputs = s.outputs :=
  rfl

/-! ### `storeEirCfg` -/

@[simp] theorem storeEirCfg_cfg (r : Nat) (v : Word) (s : State) : (storeEirCfg r v s).cfg = s.cfg :=
  rfl
@[simp] theorem storeEirCfg_inReset (r : Nat) (v : Word) (s : State) : (storeEirCfg r v s).inReset = s.inReset :=
  rfl
@[simp] theorem storeEirCfg_irqInhibit (r : Nat) (v : Word) (s : State) : (storeEirCfg r v s).irqInhibit = s.irqInhibit :=
  rfl
@[simp] theorem storeEirCfg_pins (r : Nat) (v : Word) (s : State) : (storeEirCfg r v s).pins = s.pins :=
  rfl
@[simp] theorem storeEirCfg_icEnable (r : Nat) (v : Word) (s : State) : (storeEirCfg r v s).icEnable = s.icEnable :=
  rfl
@[simp] theorem storeEirCfg_icPending (r : Nat) (v : Word) (s : State) : (storeEirCfg r v s).icPending = s.icPending :=
  rfl
@[simp] theorem storeEirCfg_icActive (r : Nat) (v : Word) (s : State) : (storeEirCfg r v s).icActive = s.icActive :=
  rfl
@[simp] theorem storeEirCfg_icPrio (r : Nat) (v : Word) (s : State) : (storeEirCfg r v s).icPrio = s.icPrio :=
  rfl
@[simp] theorem storeEirCfg_icGroupSel (r : Nat) (v : Word) (s : State) : (storeEirCfg r v s).icGroupSel = s.icGroupSel :=
  rfl
@[simp] theorem storeEirCfg_icGMode (r : Nat) (v : Word) (s : State) : (storeEirCfg r v s).icGMode = s.icGMode :=
  rfl
@[simp] theorem storeEirCfg_eirMask (r : Nat) (v : Word) (s : State) : (storeEirCfg r v s).eirMask = s.eirMask :=
  rfl
@[simp] theorem storeEirCfg_eirRise (r : Nat) (v : Word) (s : State) : (storeEirCfg r v s).eirRise = s.eirRise :=
  rfl
@[simp] theorem storeEirCfg_eirFall (r : Nat) (v : Word) (s : State) : (storeEirCfg r v s).eirFall = s.eirFall :=
  rfl
@[simp] theorem storeEirCfg_eirPend (r : Nat) (v : Word) (s : State) : (storeEirCfg r v s).eirPend = s.eirPend :=
  rfl
@[simp] theorem storeEirCfg_eirPrev (r : Nat) (v : Word) (s : State) : (storeEirCfg r v s).eirPrev = s.eirPrev :=
  rfl
@[simp] theorem storeEirCfg_eirCb (r : Nat) (v : Word) (s : State) : (storeEirCfg r v s).eirCb = s.eirCb :=
  rfl
@[simp] theorem storeEirCfg_stsEnable (r : Nat) (v : Word) (s : State) : (storeEirCfg r v s).stsEnable = s.stsEnable :=
  rfl
@[simp] theorem storeEirCfg_stsTickInt (r : Nat) (v : Word) (s : State) : (storeEirCfg r v s).stsTickInt = s.stsTickInt :=
  rfl
@[simp] theorem storeEirCfg_stsClkSource (r : Nat) (v : Word) (s : State) : (storeEirCfg r v s).stsClkSource = s.stsClkSource :=
  rfl
@[simp] theorem storeEirCfg_stsCountFlag (r : Nat) (v : Word) (s : State) : (storeEirCfg r v s).stsCountFlag = s.stsCountFlag :=
  rfl
@[simp] theorem storeEirCfg_stsReload (r : Nat) (v : Word) (s : State) : (storeEirCfg r v s).stsReload = s.stsReload :=
  rfl
@[simp] theorem storeEirCfg_stsCurrent (r : Nat) (v : Word) (s : State) : (storeEirCfg r v s).stsCurrent = s.stsCurrent :=
  rfl
@[simp] theorem storeEirCfg_stsCb (r : Nat) (v : Word) (s : State) : (storeEirCfg r v s).stsCb = s.stsCb :=
  rfl
@[simp] theorem storeEirCfg_stsMode (r : Nat) (v : Word) (s : State) : (storeEirCfg r v s).stsMode = s.stsMode :=
  rfl
@[simp] theorem storeEirCfg_main (r : Nat) (v : Word) (s : State) : (storeEirCfg r v s).main = s.main :=
  rfl
@[simp] theorem storeEirCfg_handlers (r : Nat) (v : Word) (s : State) : (storeEirCfg r v s).handlers = s.handlers :=
  rfl
@[simp] theorem storeEirCfg_schedule (r : Nat) (v : Word) (s : State) : (storeEirCfg r v s).schedule = s.schedule :=
  rfl
@[simp] theorem storeEirCfg_outputs (r : Nat) (v : Word) (s : State) : (storeEirCfg r v s).outputs = s.outputs :=
  rfl

/-! ### `mapBusyWaits` -/

@[simp] theorem mapBusyWaits_cfg (f : BusyWait → BusyWait) (s : State) : (mapBusyWaits f s).cfg = s.cfg :=
  rfl
@[simp] theorem mapBusyWaits_inReset (f : BusyWait → BusyWait) (s : State) : (mapBusyWaits f s).inReset = s.inReset :=
  rfl
@[simp] theorem mapBusyWaits_irqInhibit (f : BusyWait → BusyWait) (s : State) : (mapBusyWaits f s).irqInhibit = s.irqInhibit :=
  rfl
@[simp] theorem mapBusyWaits_pins (f : BusyWait → BusyWait) (s : State) : (mapBusyWaits f s).pins = s.pins :=
  rfl
@[simp] theorem mapBusyWaits_icEnable (f : BusyWait → BusyWait) (s : State) : (mapBusyWaits f s).icEnable = s.icEnable :=
  rfl
@[simp] theorem mapBusyWaits_icPending (f : BusyWait → BusyWait) (s : State) : (mapBusyWaits f s).icPending = s.icPending :=
  rfl
@[simp] theorem mapBusyWaits_icActive (f : BusyWait → BusyWait) (s : State) : (mapBusyWaits f s).icActive = s.icActive :=
  rfl
@[simp] theorem mapBusyWaits_icPrio (f : BusyWait → BusyWait) (s : State) : (mapBusyWaits f s).icPrio = s.icPrio :=
  rfl
@[simp] theorem mapBusyWaits_icGroupSel (f : BusyWait → BusyWait) (s : State) : (mapBusyWaits f s).icGroupSel = s.icGroupSel :=
  rfl
@[simp] theorem mapBusyWaits_icGMode (f : BusyWait → BusyWait) (s : State) : (mapBusyWaits f s).icGMode = s.icGMode :=
  rfl
@[simp] theorem mapBusyWaits_eirCfg (f : BusyWait → BusyWait) (s : State) : (mapBusyWaits f s).eirCfg = s.eirCfg :=
  rfl
@[simp] theorem mapBusyWaits_eirMask (f : BusyWait → BusyWait) (s : State) : (mapBusyWaits f s).eirMask = s.eirMask :=
  rfl
@[simp] theorem mapBusyWaits_eirRise (f : BusyWait → BusyWait) (s : State) : (mapBusyWaits f s).eirRise = s.eirRise :=
  rfl
@[simp] theorem mapBusyWaits_eirFall (f : BusyWait → BusyWait) (s : State) : (mapBusyWaits f s).eirFall = s.eirFall :=
  rfl
@[simp] theorem mapBusyWaits_eirPend (f : BusyWait → BusyWait) (s : State) : (mapBusyWaits f s).eirPend = s.eirPend :=
  rfl
@[simp] theorem mapBusyWaits_eirPrev (f : BusyWait → BusyWait) (s : State) : (mapBusyWaits f s).eirPrev = s.eirPrev :=
  rfl
@[simp] theorem mapBusyWaits_eirCb (f : BusyWait → BusyWait) (s : State) : (mapBusyWaits f s).eirCb = s.eirCb :=
  rfl
@[simp] theorem mapBusyWaits_stsEnable (f : BusyWait → BusyWait) (s : State) : (mapBusyWaits f s).stsEnable = s.stsEnable :=
  rfl
@[simp] theorem mapBusyWaits_stsTickInt (f : BusyWait → BusyWait) (s : State) : (mapBusyWaits f s).stsTickInt = s.stsTickInt :=
  rfl
@[simp] theorem mapBusyWaits_stsClkSource (f : BusyWait → BusyWait) (s : State) : (mapBusyWaits f s).stsClkSource = s.stsClkSource :=
  rfl
@[simp] theorem mapBusyWaits_stsCountFlag (f : BusyWait → BusyWait) (s : State) : (mapBusyWaits f s).stsCountFlag = s.stsCountFlag :=
  rfl
@[simp] theorem mapBusyWaits_stsReload (f : BusyWait → BusyWait) (s : State) : (mapBusyWaits f s).stsReload = s.stsReload :=
  rfl
@[simp] theorem mapBusyWaits_stsCurrent (f : BusyWait → BusyWait) (s : State) : (mapBusyWaits f s).stsCurrent = s.stsCurrent :=
  rfl
@[simp] theorem mapBusyWaits_stsCb (f : BusyWait → BusyWait) (s : State) : (mapBusyWaits f s).stsCb = s.stsCb :=
  rfl
@[simp] theorem mapBusyWaits_stsMode (f : BusyWait → BusyWait) (s : State) : (mapBusyWaits f s).stsMode = s.stsMode :=
  rfl
@[simp] theorem mapBusyWaits_schedule (f : BusyWait → BusyWait) (s : State) : (mapBusyWaits f s).schedule = s.schedule :=
  rfl
@[simp] theorem mapBusyWaits_outputs (f : BusyWait → BusyWait) (s : State) : (mapBusyWaits f s).outputs = s.outputs :=
  rfl

/-! ### `takeTrap` -/

@[simp] theorem takeTrap_cfg (i : Nat) (s : State) : (takeTrap i s).cfg = s.cfg := rfl
@[simp] theorem takeTrap_inReset (i : Nat) (s : State) : (takeTrap i s).inReset = s.inReset := rfl
@[simp] theorem takeTrap_irqInhibit (i : Nat) (s : State) : (takeTrap i s).irqInhibit = s.irqInhibit :=
  rfl
@[simp] theorem takeTrap_pins (i : Nat) (s : State) : (takeTrap i s).pins = s.pins := rfl
@[simp] theorem takeTrap_icEnable (i : Nat) (s : State) : (takeTrap i s).icEnable = s.icEnable :=
  rfl
@[simp] theorem takeTrap_icPrio (i : Nat) (s : State) : (takeTrap i s).icPrio = s.icPrio := rfl
@[simp] theorem takeTrap_icGroupSel (i : Nat) (s : State) : (takeTrap i s).icGroupSel = s.icGroupSel :=
  rfl
@[simp] theorem takeTrap_icGMode (i : Nat) (s : State) : (takeTrap i s).icGMode = s.icGMode := rfl
@[simp] theorem takeTrap_eirCfg (i : Nat) (s : State) : (takeTrap i s).eirCfg = s.eirCfg := rfl
@[simp] theorem takeTrap_eirMask (i : Nat) (s : State) : (takeTrap i s).eirMask = s.eirMask := rfl
@[simp] theorem takeTrap_eirRise (i : Nat) (s : State) : (takeTrap i s).eirRise = s.eirRise := rfl
@[simp] theorem takeTrap_eirFall (i : Nat) (s : State) : (takeTrap i s).eirFall = s.eirFall := rfl
@[simp] theorem takeTrap_eirPend (i : Nat) (s : State) : (takeTrap i s).eirPend = s.eirPend := rfl
@[simp] theorem takeTrap_eirPrev (i : Nat) (s : State) : (takeTrap i s).eirPrev = s.eirPrev := rfl
@[simp] theorem takeTrap_eirCb (i : Nat) (s : State) : (takeTrap i s).eirCb = s.eirCb := rfl
@[simp] theorem takeTrap_stsEnable (i : Nat) (s : State) : (takeTrap i s).stsEnable = s.stsEnable :=
  rfl
@[simp] theorem takeTrap_stsTickInt (i : Nat) (s : State) : (takeTrap i s).stsTickInt = s.stsTickInt :=
  rfl
@[simp] theorem takeTrap_stsClkSource (i : Nat) (s : State) : (takeTrap i s).stsClkSource = s.stsClkSource :=
  rfl
@[simp] theorem takeTrap_stsCountFlag (i : Nat) (s : State) : (takeTrap i s).stsCountFlag = s.stsCountFlag :=
  rfl
@[simp] theorem takeTrap_stsReload (i : Nat) (s : State) : (takeTrap i s).stsReload = s.stsReload :=
  rfl
@[simp] theorem takeTrap_stsCurrent (i : Nat) (s : State) : (takeTrap i s).stsCurrent = s.stsCurrent :=
  rfl
@[simp] theorem takeTrap_stsCb (i : Nat) (s : State) : (takeTrap i s).stsCb = s.stsCb := rfl
@[simp] theorem takeTrap_stsMode (i : Nat) (s : State) : (takeTrap i s).stsMode = s.stsMode := rfl
@[simp] theorem takeTrap_main (i : Nat) (s : State) : (takeTrap i s).main = s.main := rfl
@[simp] theorem takeTrap_schedule (i : Nat) (s : State) : (takeTrap i s).schedule = s.schedule :=
  rfl

/-! ### `exitTrap` -/

@[simp] theorem exitTrap_cfg (i : Nat) (s : State) : (exitTrap i s).cfg = s.cfg := rfl
@[simp] theorem exitTrap_inReset (i : Nat) (s : State) : (exitTrap i s).inReset = s.inReset := rfl
@[simp] theorem exitTrap_irqInhibit (i : Nat) (s : State) : (exitTrap i s).irqInhibit = s.irqInhibit :=
  rfl
@[simp] theorem exitTrap_pins (i : Nat) (s : State) : (exitTrap i s).pins = s.pins := rfl
@[simp] theorem exitTrap_icEnable (i : Nat) (s : State) : (exitTrap i s).icEnable = s.icEnable :=
  rfl
@[simp] theorem exitTrap_icPrio (i : Nat) (s : State) : (exitTrap i s).icPrio = s.icPrio := rfl
@[simp] theorem exitTrap_icGroupSel (i : Nat) (s : State) : (exitTrap i s).icGroupSel = s.icGroupSel :=
  rfl
@[simp] theorem exitTrap_icGMode (i : Nat) (s : State) : (exitTrap i s).icGMode = s.icGMode := rfl
@[simp] theorem exitTrap_eirCfg (i : Nat) (s : State) : (exitTrap i s).eirCfg = s.eirCfg := rfl
@[simp] theorem exitTrap_eirMask (i : Nat) (s : State) : (exitTrap i s).eirMask = s.eirMask := rfl
@[simp] theorem exitTrap_eirRise (i : Nat) (s : State) : (exitTrap i s).eirRise = s.eirRise := rfl
@[simp] theorem exitTrap_eirFall (i : Nat) (s : State) : (exitTrap i s).eirFall = s.eirFall := rfl
@[simp] theorem exitTrap_eirPend (i : Nat) (s : State) : (exitTrap i s).eirPend = s.eirPend := rfl
@[simp] theorem exitTrap_eirPrev (i : Nat) (s : State) : (exitTrap i s).eirPrev = s.eirPrev := rfl
@[simp] theorem exitTrap_eirCb (i : Nat) (s : State) : (exitTrap i s).eirCb = s.eirCb := rfl
@[simp] theorem exitTrap_stsEnable (i : Nat) (s : State) : (exitTrap i s).stsEnable = s.stsEnable :=
  rfl
@[simp] theorem exitTrap_stsTickInt (i : Nat) (s : State) : (exitTrap i s).stsTickInt = s.stsTickInt :=
  rfl
@[simp] theorem exitTrap_stsClkSource (i : Nat) (s : State) : (exitTrap i s).stsClkSource = s.stsClkSource :=
  rfl
@[simp] theorem exitTrap_stsCountFlag (i : Nat) (s : State) : (exitTrap i s).stsCountFlag = s.stsCountFlag :=
  rfl
@[simp] theorem exitTrap_stsReload (i : Nat) (s : State) : (exitTrap i s).stsReload = s.stsReload :=
  rfl
@[simp] theorem exitTrap_stsCurrent (i : Nat) (s : State) : (exitTrap i s).stsCurrent = s.stsCurrent :=
  rfl
@[simp] theorem exitTrap_stsCb (i : Nat) (s : State) : (exitTrap i s).stsCb = s.stsCb := rfl
@[simp] theorem exitTrap_stsMode (i : Nat) (s : State) : (exitTrap i s).stsMode = s.stsMode := rfl
@[simp] theorem exitTrap_main (i : Nat) (s : State) : (exitTrap i s).main = s.main := rfl
@[simp] theorem exitTrap_schedule (i : Nat) (s : State) : (exitTrap i s).schedule = s.schedule :=
  rfl

/-! ### `loadTimer` -/

@[simp] theorem loadTimer_cfg (ticks : Word) (s : State) : (loadTimer ticks s).cfg = s.cfg := rfl
@[simp] theorem loadTimer_inReset (ticks : Word) (s : State) : (loadTimer ticks s).inReset = s.inReset :=
  rfl
@[simp] theorem loadTimer_irqInhibit (ticks : Word) (s : State) : (loadTimer ticks s).irqInhibit = s.irqInhibit :=
  rfl
@[simp] theorem loadTimer_pins (ticks : Word) (s : State) : (loadTimer ticks s).pins = s.pins := rfl
@[simp] theorem loadTimer_icEnable (ticks : Word) (s : State) : (loadTimer ticks s).icEnable = s.icEnable :=
  rfl
@[simp] theorem loadTimer_icPending (ticks : Word) (s : State) : (loadTimer ticks s).icPending = s.icPending :=
  rfl
@[simp] theorem loadTimer_icActive (ticks : Word) (s : State) : (loadTimer ticks s).icActive = s.icActive :=
  rfl
@[simp] theorem loadTimer_icPrio (ticks : Word) (s : State) : (loadTimer ticks s).icPrio = s.icPrio :=
  rfl
@[simp] theorem loadTimer_icGroupSel (ticks : Word) (s : State) : (loadTimer ticks s).icGroupSel = s.icGroupSel :=
  rfl
@[simp] theorem loadTimer_icGMode (ticks : Word) (s : State) : (loadTimer ticks s).icGMode = s.icGMode :=
  rfl
@[simp] theorem loadTimer_eirCfg (ticks : Word) (s : State) : (loadTimer ticks s).eirCfg = s.eirCfg :=
  rfl
@[simp] theorem loadTimer_eirMask (ticks : Word) (s : State) : (loadTimer ticks s).eirMask = s.eirMask :=
  rfl
@[simp] theorem loadTimer_eirRise (ticks : Word) (s : State) : (loadTimer ticks s).eirRise = s.eirRise :=
  rfl
@[simp] theorem loadTimer_eirFall (ticks : Word) (s : State) : (loadTimer ticks s).eirFall = s.eirFall :=
  rfl
@[simp] theorem loadTimer_eirPend (ticks : Word) (s : State) : (loadTimer ticks s).eirPend = s.eirPend :=
  rfl
@[simp] theorem loadTimer_eirPrev (ticks : Word) (s : State) : (loadTimer ticks s).eirPrev = s.eirPrev :=
  rfl
@[simp] theorem loadTimer_eirCb (ticks : Word) (s : State) : (loadTimer ticks s).eirCb = s.eirCb :=
  rfl
@[simp] theorem loadTimer_stsEnable (ticks : Word) (s : State) : (loadTimer ticks s).stsEnable = s.stsEnable :=
  rfl
@[simp] theorem loadTimer_stsTickInt (ticks : Word) (s : State) : (loadTimer ticks s).stsTickInt = s.stsTickInt :=
  rfl
@[simp] theorem loadTimer_stsClkSource (ticks : Word) (s : State) : (loadTimer ticks s).stsClkSource = s.stsClkSource :=
  rfl
@[simp] theorem loadTimer_stsCb (ticks : Word) (s : State) : (loadTimer ticks s).stsCb = s.stsCb :=
  rfl
@[simp] theorem loadTimer_stsMode (ticks : Word) (s : State) : (loadTimer ticks s).stsMode = s.stsMode :=
  rfl
@[simp] theorem loadTimer_main (ticks : Word) (s : State) : (loadTimer ticks s).main = s.main := rfl
@[simp] theorem loadTimer_handlers (ticks : Word) (s : State) : (loadTimer ticks s).handlers = s.handlers :=
  rfl
@[simp] theorem loadTimer_schedule (ticks : Word) (s : State) : (loadTimer ticks s).schedule = s.schedule :=
  rfl
@[simp] theorem loadTimer_outputs (ticks : Word) (s : State) : (loadTimer ticks s).outputs = s.outputs :=
  rfl

/-! ### `setCtx` -/

@[simp] theorem setCtx_cfg (c : Ctx) (s : State) : (setCtx c s).cfg = s.cfg := by
  unfold setCtx; split <;> rfl
@[simp] theorem setCtx_inReset (c : Ctx) (s : State) : (setCtx c s).inReset = s.inReset := by
  unfold setCtx; split <;> rfl
@[simp] theorem setCtx_irqInhibit (c : Ctx) (s : State) : (setCtx c s).irqInhibit = s.irqInhibit := by
  unfold setCtx; split <;> rfl
@[simp] theorem setCtx_pins (c : Ctx) (s : State) : (setCtx c s).pins = s.pins := by
  unfold setCtx; split <;> rfl
@[simp] theorem setCtx_icEnable (c : Ctx) (s : State) : (setCtx c s).icEnable = s.icEnable := by
  unfold setCtx; split <;> rfl
@[simp] theorem setCtx_icPending (c : Ctx) (s : State) : (setCtx c s).icPending = s.icPending := by
  unfold setCtx; split <;> rfl
@[simp] theorem setCtx_icActive (c : Ctx) (s : State) : (setCtx c s).icActive = s.icActive := by
  unfold setCtx; split <;> rfl
@[simp] theorem setCtx_icPrio (c : Ctx) (s : State) : (setCtx c s).icPrio = s.icPrio := by
  unfold setCtx; split <;> rfl
@[simp] theorem setCtx_icGroupSel (c : Ctx) (s : State) : (setCtx c s).icGroupSel = s.icGroupSel := by
  unfold setCtx; split <;> rfl
@[simp] theorem setCtx_icGMode (c : Ctx) (s : State) : (setCtx c s).icGMode = s.icGMode := by
  unfold setCtx; split <;> rfl
@[simp] theorem setCtx_eirCfg (c : Ctx) (s : State) : (setCtx c s).eirCfg = s.eirCfg := by
  unfold setCtx; split <;> rfl
@[simp] theorem setCtx_eirMask (c : Ctx) (s : State) : (setCtx c s).eirMask = s.eirMask := by
  unfold setCtx; split <;> rfl
@[simp] theorem setCtx_eirRise (c : Ctx) (s : State) : (setCtx c s).eirRise = s.eirRise := by
  unfold setCtx; split <;> rfl
@[simp] theorem setCtx_eirFall (c : Ctx) (s : State) : (setCtx c s).eirFall = s.eirFall := by
  unfold setCtx; split <;> rfl
@[simp] theorem setCtx_eirPend (c : Ctx) (s : State) : (setCtx c s).eirPend = s.eirPend := by
  unfold setCtx; split <;> rfl
@[simp] theorem setCtx_eirPrev (c : Ctx) (s : State) : (setCtx c s).eirPrev = s.eirPrev := by
  unfold setCtx; split <;> rfl
@[simp] theorem setCtx_eirCb (c : Ctx) (s : State) : (setCtx c s).eirCb = s.eirCb := by
  unfold setCtx; split <;> rfl
@[simp] theorem setCtx_stsEnable (c : Ctx) (s : State) : (setCtx c s).stsEnable = s.stsEnable := by
  unfold setCtx; split <;> rfl
@[simp] theorem setCtx_stsTickInt (c : Ctx) (s : State) : (setCtx c s).stsTickInt = s.stsTickInt := by
  unfold setCtx; split <;> rfl
@[simp] theorem setCtx_stsClkSource (c : Ctx) (s : State) : (setCtx c s).stsClkSource = s.stsClkSource := by
  unfold setCtx; split <;> rfl
@[simp] theorem setCtx_stsCountFlag (c : Ctx) (s : State) : (setCtx c s).stsCountFlag = s.stsCountFlag := by
  unfold setCtx; split <;> rfl
@[simp] theorem setCtx_stsReload (c : Ctx) (s : State) : (setCtx c s).stsReload = s.stsReload := by
  unfold setCtx; split <;> rfl
@[simp] theorem setCtx_stsCurrent (c : Ctx) (s : State) : (setCtx c s).stsCurrent = s.stsCurrent := by
  unfold setCtx; split <;> rfl
@[simp] theorem setCtx_stsCb (c : Ctx) (s : State) : (setCtx c s).stsCb = s.stsCb := by
  unfold setCtx; split <;> rfl
@[simp] theorem setCtx_stsMode (c : Ctx) (s : State) : (setCtx c s).stsMode = s.stsMode := by
  unfold setCtx; split <;> rfl
@[simp] theorem setCtx_schedule (c : Ctx) (s : State) : (setCtx c s).schedule = s.schedule := by
  unfold setCtx; split <;> rfl
@[simp] theorem setCtx_outputs (c : Ctx) (s : State) : (setCtx c s).outputs = s.outputs := by
  unfold setCtx; split <;> rfl

/-! ### `setFrames` -/

@[simp] theorem setFrames_cfg (fs : List Frame) (s : State) : (setFrames fs s).cfg = s.cfg :=
  setCtx_cfg _ _
@[simp] theorem setFrames_inReset (fs : List Frame) (s : State) : (setFrames fs s).inReset = s.inReset :=
  setCtx_inReset _ _
@[simp] theorem setFrames_irqInhibit (fs : List Frame) (s : State) : (setFrames fs s).irqInhibit = s.irqInhibit :=
  setCtx_irqInhibit _ _
@[simp] theorem setFrames_pins (fs : List Frame) (s : State) : (setFrames fs s).pins = s.pins :=
  setCtx_pins _ _
@[simp] theorem setFrames_icEnable (fs : List Frame) (s : State) : (setFrames fs s).icEnable = s.icEnable :=
  setCtx_icEnable _ _
@[simp] theorem setFrames_icPending (fs : List Frame) (s : State) : (setFrames fs s).icPending = s.icPending :=
  setCtx_icPending _ _
@[simp] theorem setFrames_icActive (fs : List Frame) (s : State) : (setFrames fs s).icActive = s.icActive :=
  setCtx_icActive _ _
@[simp] theorem setFrames_icPrio (fs : List Frame) (s : State) : (setFrames fs s).icPrio = s.icPrio :=
  setCtx_icPrio _ _
@[simp] theorem setFrames_icGroupSel (fs : List Frame) (s : State) : (setFrames fs s).icGroupSel = s.icGroupSel :=
  setCtx_icGroupSel _ _
@[simp] theorem setFrames_icGMode (fs : List Frame) (s : State) : (setFrames fs s).icGMode = s.icGMode :=
  setCtx_icGMode _ _
@[simp] theorem setFrames_eirCfg (fs : List Frame) (s : State) : (setFrames fs s).eirCfg = s.eirCfg :=
  setCtx_eirCfg _ _
@[simp] theorem setFrames_eirMask (fs : List Frame) (s : State) : (setFrames fs s).eirMask = s.eirMask :=
  setCtx_eirMask _ _
@[simp] theorem setFrames_eirRise (fs : List Frame) (s : State) : (setFrames fs s).eirRise = s.eirRise :=
  setCtx_eirRise _ _
@[simp] theorem setFrames_eirFall (fs : List Frame) (s : State) : (setFrames fs s).eirFall = s.eirFall :=
  setCtx_eirFall _ _
@[simp] theorem setFrames_eirPend (fs : List Frame) (s : State) : (setFrames fs s).eirPend = s.eirPend :=
  setCtx_eirPend _ _
@[simp] theorem setFrames_eirPrev (fs : List Frame) (s : State) : (setFrames fs s).eirPrev = s.eirPrev :=
  setCtx_eirPrev _ _
@[simp] theorem setFrames_eirCb (fs : List Frame) (s : State) : (setFrames fs s).eirCb = s.eirCb :=
  setCtx_eirCb _ _
@[simp] theorem setFrames_stsEnable (fs : List Frame) (s : State) : (setFrames fs s).stsEnable = s.stsEnable :=
  setCtx_stsEnable _ _
@[simp] theorem setFrames_stsTickInt (fs : List Frame) (s : State) : (setFrames fs s).stsTickInt = s.stsTickInt :=
  setCtx_stsTickInt _ _
@[simp] theorem setFrames_stsClkSource (fs : List Frame) (s : State) : (setFrames fs s).stsClkSource = s.stsClkSource :=
  setCtx_stsClkSource _ _
@[simp] theorem setFrames_stsCountFlag (fs : List Frame) (s : State) : (setFrames fs s).stsCountFlag = s.stsCountFlag :=
  setCtx_stsCountFlag _ _
@[simp] theorem setFrames_stsReload (fs : List Frame) (s : State) : (setFrames fs s).stsReload = s.stsReload :=
  setCtx_stsReload _ _
@[simp] theorem setFrames_stsCurrent (fs : List Frame) (s : State) : (setFrames fs s).stsCurrent = s.stsCurrent :=
  setCtx_stsCurrent _ _
@[simp] theorem setFrames_stsCb (fs : List Frame) (s : State) : (setFrames fs s).stsCb = s.stsCb :=
  setCtx_stsCb _ _
@[simp] theorem setFrames_stsMode (fs : List Frame) (s : State) : (setFrames fs s).stsMode = s.stsMode :=
  setCtx_stsMode _ _
@[simp] theorem setFrames_schedule (fs : List Frame) (s : State) : (setFrames fs s).schedule = s.schedule :=
  setCtx_schedule _ _
@[simp] theorem setFrames_outputs (fs : List Frame) (s : State) : (setFrames fs s).outputs = s.outputs :=
  setCtx_outputs _ _

/-! ### `setBusyWait` -/

@[simp] theorem setBusyWait_cfg (b : BusyWait) (s : State) : (setBusyWait b s).cfg = s.cfg :=
  setCtx_cfg _ _
@[simp] theorem setBusyWait_inReset (b : BusyWait) (s : State) : (setBusyWait b s).inReset = s.inReset :=
  setCtx_inReset _ _
@[simp] theorem setBusyWait_irqInhibit (b : BusyWait) (s : State) : (setBusyWait b s).irqInhibit = s.irqInhibit :=
  setCtx_irqInhibit _ _
@[simp] theorem setBusyWait_pins (b : BusyWait) (s : State) : (setBusyWait b s).pins = s.pins :=
  setCtx_pins _ _
@[simp] theorem setBusyWait_icEnable (b : BusyWait) (s : State) : (setBusyWait b s).icEnable = s.icEnable :=
  setCtx_icEnable _ _
@[simp] theorem setBusyWait_icPending (b : BusyWait) (s : State) : (setBusyWait b s).icPending = s.icPending :=
  setCtx_icPending _ _
@[simp] theorem setBusyWait_icActive (b : BusyWait) (s : State) : (setBusyWait b s).icActive = s.icActive :=
  setCtx_icActive _ _
@[simp] theorem setBusyWait_icPrio (b : BusyWait) (s : State) : (setBusyWait b s).icPrio = s.icPrio :=
  setCtx_icPrio _ _
@[simp] theorem setBusyWait_icGroupSel (b : BusyWait) (s : State) : (setBusyWait b s).icGroupSel = s.icGroupSel :=
  setCtx_icGroupSel _ _
@[simp] theorem setBusyWait_icGMode (b : BusyWait) (s : State) : (setBusyWait b s).icGMode = s.icGMode :=
  setCtx_icGMode _ _
@[simp] theorem setBusyWait_eirCfg (b : BusyWait) (s : State) : (setBusyWait b s).eirCfg = s.eirCfg :=
  setCtx_eirCfg _ _
@[simp] theorem setBusyWait_eirMask (b : BusyWait) (s : State) : (setBusyWait b s).eirMask = s.eirMask :=
  setCtx_eirMask _ _
@[simp] theorem setBusyWait_eirRise (b : BusyWait) (s : State) : (setBusyWait b s).eirRise = s.eirRise :=
  setCtx_eirRise _ _
@[simp] theorem setBusyWait_eirFall (b : BusyWait) (s : State) : (setBusyWait b s).eirFall = s.eirFall :=
  setCtx_eirFall _ _
@[simp] theorem setBusyWait_eirPend (b : BusyWait) (s : State) : (setBusyWait b s).eirPend = s.eirPend :=
  setCtx_eirPend _ _
@[simp] theorem setBusyWait_eirPrev (b : BusyWait) (s : State) : (setBusyWait b s).eirPrev = s.eirPrev :=
  setCtx_eirPrev _ _
@[simp] theorem setBusyWait_eirCb (b : BusyWait) (s : State) : (setBusyWait b s).eirCb = s.eirCb :=
  setCtx_eirCb _ _
@[simp] theorem setBusyWait_stsEnable (b : BusyWait) (s : State) : (setBusyWait b s).stsEnable = s.stsEnable :=
  setCtx_stsEnable _ _
@[simp] theorem setBusyWait_stsTickInt (b : BusyWait) (s : State) : (setBusyWait b s).stsTickInt = s.stsTickInt :=
  setCtx_stsTickInt _ _
@[simp] theorem setBusyWait_stsClkSource (b : BusyWait) (s : State) : (setBusyWait b s).stsClkSource = s.stsClkSource :=
  setCtx_stsClkSource _ _
@[simp] theorem setBusyWait_stsCountFlag (b : BusyWait) (s : State) : (setBusyWait b s).stsCountFlag = s.stsCountFlag :=
  setCtx_stsCountFlag _ _
@[simp] theorem setBusyWait_stsReload (b : BusyWait) (s : State) : (setBusyWait b s).stsReload = s.stsReload :=
  setCtx_stsReload _ _
@[simp] theorem setBusyWait_stsCurrent (b : BusyWait) (s : State) : (setBusyWait b s).stsCurrent = s.stsCurrent :=
  setCtx_stsCurrent _ _
@[simp] theorem setBusyWait_stsCb (b : BusyWait) (s : State) : (setBusyWait b s).stsCb = s.stsCb :=
  setCtx_stsCb _ _
@[simp] theorem setBusyWait_stsMode (b : BusyWait) (s : State) : (setBusyWait b s).stsMode = s.stsMode :=
  setCtx_stsMode _ _
@[simp] theorem setBusyWait_schedule (b : BusyWait) (s : State) : (setBusyWait b s).schedule = s.schedule :=
  setCtx_schedule _ _
@[simp] theorem setBusyWait_outputs (b : BusyWait) (s : State) : (setBusyWait b s).outputs = s.outputs :=
  setCtx_outputs _ _

/-! ### `settle` -/

@[simp] theorem settle_cfg (s : State) : (settle s).cfg = s.cfg := by
  unfold settle; split <;> rfl
@[simp] theorem settle_inReset (s : State) : (settle s).inReset = s.inReset := by
  unfold settle; split <;> rfl
@[simp] theorem settle_irqInhibit (s : State) : (settle s).irqInhibit = s.irqInhibit := by
  unfold settle; split <;> rfl
@[simp] theorem settle_pins (s : State) : (settle s).pins = s.pins := by
  unfold settle; split <;> rfl
@[simp] theorem settle_icEnable (s : State) : (settle s).icEnable = s.icEnable := by
  unfold settle; split <;> rfl
@[simp] theorem settle_icPending (s : State) : (settle s).icPending = s.icPending := by
  unfold settle; split <;> rfl
@[simp] theorem settle_icActive (s : State) : (settle s).icActive = s.icActive := by
  unfold settle; split <;> rfl
@[simp] theorem settle_icPrio (s : State) : (settle s).icPrio = s.icPrio := by
  unfold settle; split <;> rfl
@[simp] theorem settle_icGroupSel (s : State) : (settle s).icGroupSel = s.icGroupSel := by
  unfold settle; split <;> rfl
@[simp] theorem settle_icGMode (s : State) : (settle s).icGMode = s.icGMode := by
  unfold settle; split <;> rfl
@[simp] theorem settle_eirCfg (s : State) : (settle s).eirCfg = s.eirCfg := by
  unfold settle; split <;> rfl
@[simp] theorem settle_eirMask (s : State) : (settle s).eirMask = s.eirMask := by
  unfold settle; split <;> rfl
@[simp] theorem settle_eirRise (s : State) : (settle s).eirRise = s.eirRise := by
  unfold settle; split <;> rfl
@[simp] theorem settle_eirFall (s : State) : (settle s).eirFall = s.eirFall := by
  unfold settle; split <;> rfl
@[simp] theorem settle_eirPend (s : State) : (settle s).eirPend = s.eirPend := by
  unfold settle; split <;> rfl
@[simp] theorem settle_eirPrev (s : State) : (settle s).eirPrev = s.eirPrev := by
  unfold settle; split <;> rfl
@[simp] theorem settle_eirCb (s : State) : (settle s).eirCb = s.eirCb := by
  unfold settle; split <;> rfl
@[simp] theorem settle_stsEnable (s : State) : (settle s).stsEnable = s.stsEnable := by
  unfold settle; split <;> rfl
@[simp] theorem settle_stsTickInt (s : State) : (settle s).stsTickInt = s.stsTickInt := by
  unfold settle; split <;> rfl
@[simp] theorem settle_stsClkSource (s : State) : (settle s).stsClkSource = s.stsClkSource := by
  unfold settle; split <;> rfl
@[simp] theorem settle_stsCountFlag (s : State) : (settle s).stsCountFlag = s.stsCountFlag := by
  unfold settle; split <;> rfl
@[simp] theorem settle_stsReload (s : State) : (settle s).stsReload = s.stsReload := by
  unfold settle; split <;> rfl
@[simp] theorem settle_stsCurrent (s : State) : (settle s).stsCurrent = s.stsCurrent := by
  unfold settle; split <;> rfl
@[simp] theorem settle_stsCb (s : State) : (settle s).stsCb = s.stsCb := by
  unfold settle; split <;> rfl
@[simp] theorem settle_stsMode (s : State) : (settle s).stsMode = s.stsMode := by
  unfold settle; split <;> rfl
@[simp] theorem settle_schedule (s : State) : (settle s).schedule = s.schedule := by
  unfold settle; split <;> rfl
@[simp] theorem settle_outputs (s : State) : (settle s).outputs = s.outputs := by
  unfold settle; split <;> rfl

/-! ### `beforeFieldWrite` -/

@[simp] theorem beforeFieldWrite_cfg (s : State) : (beforeFieldWrite s).cfg = s.cfg := by
  unfold beforeFieldWrite; split <;> rfl
@[simp] theorem beforeFieldWrite_inReset (s : State) : (beforeFieldWrite s).inReset = s.inReset := by
  unfold beforeFieldWrite; split <;> rfl
@[simp] theorem beforeFieldWrite_irqInhibit (s : State) : (beforeFieldWrite s).irqInhibit = s.irqInhibit := by
  unfold beforeFieldWrite; split <;> rfl
@[simp] theorem beforeFieldWrite_pins (s : State) : (beforeFieldWrite s).pins = s.pins := by
  unfold beforeFieldWrite; split <;> rfl
@[simp] theorem beforeFieldWrite_icEnable (s : State) : (beforeFieldWrite s).icEnable = s.icEnable := by
  unfold beforeFieldWrite; split <;> rfl
@[simp] theorem beforeFieldWrite_icPending (s : State) : (beforeFieldWrite s).icPending = s.icPending := by
  unfold beforeFieldWrite; split <;> rfl
@[simp] theorem beforeFieldWrite_icActive (s : State) : (beforeFieldWrite s).icActive = s.icActive := by
  unfold beforeFieldWrite; split <;> rfl
@[simp] theorem beforeFieldWrite_icPrio (s : State) : (beforeFieldWrite s).icPrio = s.icPrio := by
  unfold beforeFieldWrite; split <;> rfl
@[simp] theorem beforeFieldWrite_icGroupSel (s : State) : (beforeFieldWrite s).icGroupSel = s.icGroupSel := by
  unfold beforeFieldWrite; split <;> rfl
@[simp] theorem beforeFieldWrite_icGMode (s : State) : (beforeFieldWrite s).icGMode = s.icGMode := by
  unfold beforeFieldWrite; split <;> rfl
@[simp] theorem beforeFieldWrite_eirCfg (s : State) : (beforeFieldWrite s).eirCfg = s.eirCfg := by
  unfold beforeFieldWrite; split <;> rfl
@[simp] theorem beforeFieldWrite_eirMask (s : State) : (beforeFieldWrite s).eirMask = s.eirMask := by
  unfold beforeFieldWrite; split <;> rfl
@[simp] theorem beforeFieldWrite_eirRise (s : State) : (beforeFieldWrite s).eirRise = s.eirRise := by
  unfold beforeFieldWrite; split <;> rfl
@[simp] theorem beforeFieldWrite_eirFall (s : State) : (beforeFieldWrite s).eirFall = s.eirFall := by
  unfold beforeFieldWrite; split <;> rfl
@[simp] theorem beforeFieldWrite_eirPend (s : State) : (beforeFieldWrite s).eirPend = s.eirPend := by
  unfold beforeFieldWrite; split <;> rfl
@[simp] theorem beforeFieldWrite_eirPrev (s : State) : (beforeFieldWrite s).eirPrev = s.eirPrev := by
  unfold beforeFieldWrite; split <;> rfl
@[simp] theorem beforeFieldWrite_eirCb (s : State) : (beforeFieldWrite s).eirCb = s.eirCb := by
  unfold beforeFieldWrite; split <;> rfl
@[simp] theorem beforeFieldWrite_stsEnable (s : State) : (beforeFieldWrite s).stsEnable = s.stsEnable := by
  unfold beforeFieldWrite; split <;> rfl
@[simp] theorem beforeFieldWrite_stsTickInt (s : State) : (beforeFieldWrite s).stsTickInt = s.stsTickInt := by
  unfold beforeFieldWrite; split <;> rfl
@[simp] theorem beforeFieldWrite_stsClkSource (s : State) : (beforeFieldWrite s).stsClkSource = s.stsClkSource := by
  unfold beforeFieldWrite; split <;> rfl
@[simp] theorem beforeFieldWrite_stsReload (s : State) : (beforeFieldWrite s).stsReload = s.stsReload := by
  unfold beforeFieldWrite; split <;> rfl
@[simp] theorem beforeFieldWrite_stsCurrent (s : State) : (beforeFieldWrite s).stsCurrent = s.stsCurrent := by
  unfold beforeFieldWrite; split <;> rfl
@[simp] theorem beforeFieldWrite_stsCb (s : State) : (beforeFieldWrite s).stsCb = s.stsCb := by
  unfold beforeFieldWrite; split <;> rfl
@[simp] theorem beforeFieldWrite_stsMode (s : State) : (beforeFieldWrite s).stsMode = s.stsMode := by
  unfold beforeFieldWrite; split <;> rfl
@[simp] theorem beforeFieldWrite_main (s : State) : (beforeFieldWrite s).main = s.main := by
  unfold beforeFieldWrite; split <;> rfl
@[simp] theorem beforeFieldWrite_handlers (s : State) : (beforeFieldWrite s).handlers = s.handlers := by
  unfold beforeFieldWrite; split <;> rfl
@[simp] theorem beforeFieldWrite_schedule (s : State) : (beforeFieldWrite s).schedule = s.schedule := by
  unfold beforeFieldWrite; split <;> rfl
@[simp] theorem beforeFieldWrite_outputs (s : State) : (beforeFieldWrite s).outputs = s.outputs := by
  unfold beforeFieldWrite; split <;> rfl

/-! ### `setTimerEnable` -/

@[simp] theorem setTimerEnable_cfg (b : Bool) (s : State) : (setTimerEnable b s).cfg = s.cfg :=
  beforeFieldWrite_cfg s
@[simp] theorem setTimerEnable_inReset (b : Bool) (s : State) : (setTimerEnable b s).inReset = s.inReset :=
  beforeFieldWrite_inReset s
@[simp] theorem setTimerEnable_irqInhibit (b : Bool) (s : State) : (setTimerEnable b s).irqInhibit = s.irqInhibit :=
  beforeFieldWrite_irqInhibit s
@[simp] theorem setTimerEnable_pins (b : Bool) (s : State) : (setTimerEnable b s).pins = s.pins :=
  beforeFieldWrite_pins s
@[simp] theorem setTimerEnable_icEnable (b : Bool) (s : State) : (setTimerEnable b s).icEnable = s.icEnable :=
  beforeFieldWrite_icEnable s
@[simp] theorem setTimerEnable_icPending (b : Bool) (s : State) : (setTimerEnable b s).icPending = s.icPending :=
  beforeFieldWrite_icPending s
@[simp] theorem setTimerEnable_icActive (b : Bool) (s : State) : (setTimerEnable b s).icActive = s.icActive :=
  beforeFieldWrite_icActive s
@[simp] theorem setTimerEnable_icPrio (b : Bool) (s : State) : (setTimerEnable b s).icPrio = s.icPrio :=
  beforeFieldWrite_icPrio s
@[simp] theorem setTimerEnable_icGroupSel (b : Bool) (s : State) : (setTimerEnable b s).icGroupSel = s.icGroupSel :=
  beforeFieldWrite_icGroupSel s
@[simp] theorem setTimerEnable_icGMode (b : Bool) (s : State) : (setTimerEnable b s).icGMode = s.icGMode :=
  beforeFieldWrite_icGMode s
@[simp] theorem setTimerEnable_eirCfg (b : Bool) (s : State) : (setTimerEnable b s).eirCfg = s.eirCfg :=
  beforeFieldWrite_eirCfg s
@[simp] theorem setTimerEnable_eirMask (b : Bool) (s : State) : (setTimerEnable b s).eirMask = s.eirMask :=
  beforeFieldWrite_eirMask s
@[simp] theorem setTimerEnable_eirRise (b : Bool) (s : State) : (setTimerEnable b s).eirRise = s.eirRise :=
  beforeFieldWrite_eirRise s
@[simp] theorem setTimerEnable_eirFall (b : Bool) (s : State) : (setTimerEnable b s).eirFall = s.eirFall :=
  beforeFieldWrite_eirFall s
@[simp] theorem setTimerEnable_eirPend (b : Bool) (s : State) : (setTimerEnable b s).eirPend = s.eirPend :=
  beforeFieldWrite_eirPend s
@[simp] theorem setTimerEnable_eirPrev (b : Bool) (s : State) : (setTimerEnable b s).eirPrev = s.eirPrev :=
  beforeFieldWrite_eirPrev s
@[simp] theorem setTimerEnable_eirCb (b : Bool) (s : State) : (setTimerEnable b s).eirCb = s.eirCb :=
  beforeFieldWrite_eirCb s
@[simp] theorem setTimerEnable_stsTickInt (b : Bool) (s : State) : (setTimerEnable b s).stsTickInt = s.stsTickInt :=
  beforeFieldWrite_stsTickInt s
@[simp] theorem setTimerEnable_stsClkSource (b : Bool) (s : State) : (setTimerEnable b s).stsClkSource = s.stsClkSource :=
  beforeFieldWrite_stsClkSource s
@[simp] theorem setTimerEnable_stsReload (b : Bool) (s : State) : (setTimerEnable b s).stsReload = s.stsReload :=
  beforeFieldWrite_stsReload s
@[simp] theorem setTimerEnable_stsCurrent (b : Bool) (s : State) : (setTimerEnable b s).stsCurrent = s.stsCurrent :=
  beforeFieldWrite_stsCurrent s
@[simp] theorem setTimerEnable_stsCb (b : Bool) (s : State) : (setTimerEnable b s).stsCb = s.stsCb :=
  beforeFieldWrite_stsCb s
@[simp] theorem setTimerEnable_stsMode (b : Bool) (s : State) : (setTimerEnable b s).stsMode = s.stsMode :=
  beforeFieldWrite_stsMode s
@[simp] theorem setTimerEnable_main (b : Bool) (s : State) : (setTimerEnable b s).main = s.main :=
  beforeFieldWrite_main s
@[simp] theorem setTimerEnable_handlers (b : Bool) (s : State) : (setTimerEnable b s).handlers = s.handlers :=
  beforeFieldWrite_handlers s
@[simp] theorem setTimerEnable_schedule (b : Bool) (s : State) : (setTimerEnable b s).schedule = s.schedule :=
  beforeFieldWrite_schedule s
@[simp] theorem setTimerEnable_outputs (b : Bool) (s : State) : (setTimerEnable b s).outputs = s.outputs :=
  beforeFieldWrite_outputs s

/-! ### `resetBlock` -/

@[simp] theorem resetBlock_cfg (s : State) : (resetBlock s).cfg = s.cfg := rfl
@[simp] theorem resetBlock_irqInhibit (s : State) : (resetBlock s).irqInhibit = s.irqInhibit := rfl
@[simp] theorem resetBlock_pins (s : State) : (resetBlock s).pins = s.pins := rfl
@[simp] theorem resetBlock_schedule (s : State) : (resetBlock s).schedule = s.schedule := rfl
@[simp] theorem resetBlock_outputs (s : State) : (resetBlock s).outputs = s.outputs := rfl

/-! ### `setPin` -/

@[simp] theorem setPin_cfg (p l : Nat) (level : Bool) (s : State) : (setPin p l level s).cfg = s.cfg := by
  unfold setPin; split <;> rfl
@[simp] theorem setPin_inReset (p l : Nat) (level : Bool) (s : State) : (setPin p l level s).inReset = s.inReset := by
  unfold setPin; split <;> rfl
@[simp] theorem setPin_irqInhibit (p l : Nat) (level : Bool) (s : State) : (setPin p l level s).irqInhibit = s.irqInhibit := by
  unfold setPin; split <;> rfl
@[simp] theorem setPin_icEnable (p l : Nat) (level : Bool) (s : State) : (setPin p l level s).icEnable = s.icEnable := by
  unfold setPin; split <;> rfl
@[simp] theorem setPin_icPending (p l : Nat) (level : Bool) (s : State) : (setPin p l level s).icPending = s.icPending := by
  unfold setPin; split <;> rfl
@[simp] theorem setPin_icActive (p l : Nat) (level : Bool) (s : State) : (setPin p l level s).icActive = s.icActive := by
  unfold setPin; split <;> rfl
@[simp] theorem setPin_icPrio (p l : Nat) (level : Bool) (s : State) : (setPin p l level s).icPrio = s.icPrio := by
  unfold setPin; split <;> rfl
@[simp] theorem setPin_icGroupSel (p l : Nat) (level : Bool) (s : State) : (setPin p l level s).icGroupSel = s.icGroupSel := by
  unfold setPin; split <;> rfl
@[simp] theorem setPin_icGMode (p l : Nat) (level : Bool) (s : State) : (setPin p l level s).icGMode = s.icGMode := by
  unfold setPin; split <;> rfl
@[simp] theorem setPin_eirCfg (p l : Nat) (level : Bool) (s : State) : (setPin p l level s).eirCfg = s.eirCfg := by
  unfold setPin; split <;> rfl
@[simp] theorem setPin_eirMask (p l : Nat) (level : Bool) (s : State) : (setPin p l level s).eirMask = s.eirMask := by
  unfold setPin; split <;> rfl
@[simp] theorem setPin_eirRise (p l : Nat) (level : Bool) (s : State) : (setPin p l level s).eirRise = s.eirRise := by
  unfold setPin; split <;> rfl
@[simp] theorem setPin_eirFall (p l : Nat) (level : Bool) (s : State) : (setPin p l level s).eirFall = s.eirFall := by
  unfold setPin; split <;> rfl
@[simp] theorem setPin_eirPend (p l : Nat) (level : Bool) (s : State) : (setPin p l level s).eirPend = s.eirPend := by
  unfold setPin; split <;> rfl
@[simp] theorem setPin_eirPrev (p l : Nat) (level : Bool) (s : State) : (setPin p l level s).eirPrev = s.eirPrev := by
  unfold setPin; split <;> rfl
@[simp] theorem setPin_eirCb (p l : Nat) (level : Bool) (s : State) : (setPin p l level s).eirCb = s.eirCb := by
  unfold setPin; split <;> rfl
@[simp] theorem setPin_stsEnable (p l : Nat) (level : Bool) (s : State) : (setPin p l level s).stsEnable = s.stsEnable := by
  unfold setPin; split <;> rfl
@[simp] theorem setPin_stsTickInt (p l : Nat) (level : Bool) (s : State) : (setPin p l level s).stsTickInt = s.stsTickInt := by
  unfold setPin; split <;> rfl
@[simp] theorem setPin_stsClkSource (p l : Nat) (level : Bool) (s : State) : (setPin p l level s).stsClkSource = s.stsClkSource := by
  unfold setPin; split <;> rfl
@[simp] theorem setPin_stsCountFlag (p l : Nat) (level : Bool) (s : State) : (setPin p l level s).stsCountFlag = s.stsCountFlag := by
  unfold setPin; split <;> rfl
@[simp] theorem setPin_stsReload (p l : Nat) (level : Bool) (s : State) : (setPin p l level s).stsReload = s.stsReload := by
  unfold setPin; split <;> rfl
@[simp] theorem setPin_stsCurrent (p l : Nat) (level : Bool) (s : State) : (setPin p l level s).stsCurrent = s.stsCurrent := by
  unfold setPin; split <;> rfl
@[simp] theorem setPin_stsCb (p l : Nat) (level : Bool) (s : State) : (setPin p l level s).stsCb = s.stsCb := by
  unfold setPin; split <;> rfl
@[simp] theorem setPin_stsMode (p l : Nat) (level : Bool) (s : State) : (setPin p l level s).stsMode = s.stsMode := by
  unfold setPin; split <;> rfl
@[simp] theorem setPin_main (p l : Nat) (level : Bool) (s : State) : (setPin p l level s).main = s.main := by
  unfold setPin; split <;> rfl
@[simp] theorem setPin_handlers (p l : Nat) (level : Bool) (s : State) : (setPin p l level s).handlers = s.handlers := by
  unfold setPin; split <;> rfl
@[simp] theorem setPin_schedule (p l : Nat) (level : Bool) (s : State) : (setPin p l level s).schedule = s.schedule := by
  unfold setPin; split <;> rfl
@[simp] theorem setPin_outputs (p l : Nat) (level : Bool) (s : State) : (setPin p l level s).outputs = s.outputs := by
  unfold setPin; split <;> rfl

end Sys2Proof.Machine
end

