-- ==== Sys2Proof/Laws/Ops.lean ====
section
/-! SUPPORT. For each shared operation, one lemma that says what it can do, to be cited instead of
unfolding the operation. -/

namespace Sys2Proof.Machine

/-! ### Contexts -/

@[simp] theorem ctx_setCtx (c : Ctx) (s : State) : ctx (setCtx c s) = c := by
  unfold setCtx ctx; cases s.handlers <;> rfl

@[simp] theorem sources_setCtx (c : Ctx) (s : State) :
    (setCtx c s).handlers.map Handler.source = s.handlers.map Handler.source := by
  unfold setCtx; cases s.handlers <;> simp

/-- Only the running context is replaced. -/
theorem suspendedKept_setCtx (c : Ctx) (s : State) : SuspendedKept s (setCtx c s) := by
  refine ⟨by simp [nest], ?_, ?_⟩ <;> unfold setCtx <;> cases s.handlers <;> simp

@[simp] theorem nest_setCtx (c : Ctx) (s : State) : nest (setCtx c s) = nest s := by simp [nest]

@[simp] theorem issuer_setCtx (c : Ctx) (s : State) : issuer (setCtx c s) = issuer s := by
  unfold setCtx issuer; cases s.handlers <;> simp

/-- `setCtx` as one update of the two fields it can write. -/
theorem setCtx_eq (c : Ctx) (s : State) :
    setCtx c s = { s with main := (setCtx c s).main, handlers := (setCtx c s).handlers } := by
  unfold setCtx; split <;> rfl

@[simp] theorem issuer_setFrames (fs : List Frame) (s : State) :
    issuer (setFrames fs s) = issuer s := issuer_setCtx _ _

@[simp] theorem issuer_setBusyWait (b : BusyWait) (s : State) :
    issuer (setBusyWait b s) = issuer s := issuer_setCtx _ _

@[simp] theorem issuer_setTimerEnable (b : Bool) (s : State) :
    issuer (setTimerEnable b s) = issuer s := by simp [issuer]

@[simp] theorem issuer_beforeFieldWrite (s : State) :
    issuer (beforeFieldWrite s) = issuer s := by simp [issuer]

/-- A step's settling changes no source, no frame and nothing outside the contexts. -/
theorem settle_eq (s : State) :
    settle s = { s with main := (settle s).main, handlers := (settle s).handlers } := by
  unfold settle mapBusyWaits; split <;> rfl

@[simp] theorem sources_settle (s : State) :
    (settle s).handlers.map Handler.source = s.handlers.map Handler.source := by
  unfold settle mapBusyWaits; split <;> simp

@[simp] theorem nest_settle (s : State) : nest (settle s) = nest s := by simp [nest]

@[simp] theorem sources_mapBusyWaits (f : BusyWait → BusyWait) (s : State) :
    (mapBusyWaits f s).handlers.map Handler.source = s.handlers.map Handler.source := by
  simp [mapBusyWaits]

/-! ### The timer's control fields -/

/-- A write of `ENABLE` by an operation, with the read that `CTRL_FIELD_WRITE` = rmw puts before it. -/
theorem setTimerEnable_eq (b : Bool) (s : State) :
    setTimerEnable b s = { s with
      stsEnable := b
      stsCountFlag := if s.cfg.ctrlFieldWrite = .rmw then false else s.stsCountFlag } := by
  unfold setTimerEnable beforeFieldWrite; cases h : s.cfg.ctrlFieldWrite <;> simp

/-! ### Requests -/

/-- The request of a line: pending and enabled (R143). -/
@[simp] theorem getLsbD_lineRequests (s : State) (l : Nat) :
    (lineRequests s).getLsbD l = (s.eirPend.getLsbD l && s.eirMask.getLsbD l) :=
  BitVec.getLsbD_and

/-- The level of a source is the OR of its lines' requests. -/
theorem getLsbD_sourceLevels (s : State) (i : Nat) (h : i < 240) :
    (sourceLevels s).getLsbD i = requestHigh s i := by
  rw [sourceLevels, getLsbD_foldl_setBit _ _ _ _ _ h, requestHigh]; simp [eirSource]

/-- The pend step of the EIR sources, source by source. -/
theorem getLsbD_pendLevels (s : State) (j : Nat) (h : j < 240) :
    (pendLevels s).icPending.getLsbD j
      = (s.icPending.getLsbD j || (requestHigh s j && !s.icActive.getLsbD j)) := by
  simp only [pendLevels, BitVec.getLsbD_or, BitVec.getLsbD_and, BitVec.getLsbD_not,
    getLsbD_sourceLevels s j h, h, decide_true, Bool.true_and]

/-- Requests read the flags, the mask and the map of lines to sources, and nothing else. -/
theorem requestHigh_congr {s t : State} (hp : t.eirPend = s.eirPend) (hm : t.eirMask = s.eirMask)
    (hc : t.cfg = s.cfg) (i : Nat) : requestHigh t i = requestHigh s i := by
  simp [requestHigh, hp, hm, hc]

/-! ### Lines -/

/-- The multiplexer reads the selectors, the pins and the parameters, and nothing else. -/
theorem muxLevel_congr {s t : State} (he : t.eirCfg = s.eirCfg) (hp : t.pins = s.pins)
    (hc : t.cfg = s.cfg) (l : Nat) : muxLevel t l = muxLevel s l := by
  simp [muxLevel, portSel, he, hp, hc]

@[simp] theorem muxLevel_detectLine (l k : Nat) (s : State) :
    muxLevel (detectLine l s) k = muxLevel s k := muxLevel_congr rfl rfl rfl k

@[simp] theorem muxLevel_pendLevels (k : Nat) (s : State) :
    muxLevel (pendLevels s) k = muxLevel s k := muxLevel_congr rfl rfl rfl k

/-- The detector of line `l` on the previous levels. -/
theorem getLsbD_detectLine_eirPrev (l k : Nat) (s : State) (hk : k < 16) :
    (detectLine l s).eirPrev.getLsbD k = if k = l then muxLevel s k else s.eirPrev.getLsbD k := by
  rw [detectLine, getLsbD_setBit]
  by_cases h : k = l
  · subst h; simp [hk]
  · simp [h]

/-- The detector of line `l` on the pending flags. -/
theorem getLsbD_detectLine_eirPend (l k : Nat) (s : State) (hk : k < 16) :
    (detectLine l s).eirPend.getLsbD k = (s.eirPend.getLsbD k || (k == l && edgeSeen s k)) := by
  unfold detectLine
  by_cases h : k = l
  · subst h
    cases he : edgeSeen s k <;> simp only [if_true, Bool.false_eq_true, if_false]
    · simp
    · rw [getLsbD_setBit_self _ _ _ hk]; simp
  · have hb : (k == l) = false := by simp [h]
    rw [hb, Bool.false_and, Bool.or_false]
    split
    · exact getLsbD_setBit_ne _ _ h
    · rfl

/-- `EIR.SETPORT` replaces the selector field of its line and keeps the other three of the word. -/
theorem selectorField_withSelector (old : Half) (l q : Nat) (sel : BitVec 4) (hq : q < 4) :
    ((withSelector (old.setWidth 32) l sel).setWidth 16).extractLsb' (4 * q) 4
      = if q = l % 4 then sel else old.extractLsb' (4 * q) 4 := by
  have hp : l % 4 < 4 := Nat.mod_lt _ (by decide)
  unfold withSelector
  generalize l % 4 = p at hp
  interval_cases p <;> interval_cases q <;> apply BitVec.eq_of_getLsbD_eq <;> intro i hi <;>
    interval_cases i <;> simp

/-- A write of one selector register leaves the selectors of the lines of the other three. -/
theorem portSel_storeEirCfg (r k : Nat) (v : Word) (s : State) (h : k / 4 ≠ r) :
    portSel (storeEirCfg r v s) k = portSel s k := by
  simp only [portSel, storeEirCfg_eirCfg, Vector.getElem?_setIfInBounds, if_neg h.symm]

/-- The selectors after `EIR.SETPORT` has written its register (R144). -/
theorem portSel_setPort (l k : Nat) (sel : BitVec 4) (s : State) (hl : l < 16) :
    portSel (storeEirCfg (l / 4) (withSelector (memRead (.eirCfg (l / 4)) s).1 l sel) s) k
      = if k = l then sel else portSel s k := by
  have h4 : l / 4 < 4 := by omega
  by_cases hq : k / 4 = l / 4
  · simp only [portSel, storeEirCfg_eirCfg, memRead, regValue, Vector.getElem?_setIfInBounds]
    rw [if_pos hq.symm, if_pos h4, Option.getD_some, selectorField_withSelector _ _ _ _ (by omega)]
    by_cases he : k = l
    · subst he; simp
    · have h5 : k % 4 ≠ l % 4 := by omega
      rw [if_neg h5, if_neg he, hq]
  · have he : k ≠ l := by rintro rfl; exact hq rfl
    rw [portSel_storeEirCfg _ _ _ _ hq, if_neg he]

/-- What a list of detectors leaves as it is. -/
theorem detectLines_eq (ls : List Nat) (s : State) :
    detectLines ls s = { s with
      eirPend := (detectLines ls s).eirPend, eirPrev := (detectLines ls s).eirPrev } := by
  induction ls generalizing s with
  | nil => rfl
  | cons l ls ih =>
    have h : detectLines (l :: ls) s = detectLines ls (detectLine l s) := rfl
    rw [h, ih]; rfl

/-- The detectors of some lines on the previous levels: those lines have seen their level. -/
theorem getLsbD_detectLines_eirPrev (ls : List Nat) (k : Nat) (s : State) (hk : k < 16) :
    (detectLines ls s).eirPrev.getLsbD k
      = if k ∈ ls then muxLevel s k else s.eirPrev.getLsbD k := by
  induction ls generalizing s with
  | nil => simp [detectLines]
  | cons l ls ih =>
    have h : detectLines (l :: ls) s = detectLines ls (detectLine l s) := rfl
    rw [h, ih, muxLevel_detectLine, getLsbD_detectLine_eirPrev _ _ _ hk]
    by_cases h1 : k = l <;> by_cases h2 : k ∈ ls <;> simp [h1, h2]

/-! ### Operands -/

/-- What a command with a source index answers. -/
theorem onSource_eq (index : Byte) (s : State) (run : Nat → State) :
    (index.toNat ≤ 239 ∧ onSource index s run = .next (run index.toNat)) ∨
      (239 < index.toNat ∧ onSource index s run = .next (raise .invalidIndex s)) := by
  unfold onSource
  by_cases h : index.toNat ≤ 239
  · exact .inl ⟨h, by rw [if_pos h]⟩
  · exact .inr ⟨by omega, by rw [if_neg h]⟩

/-- What a command with a line number answers. -/
theorem onLine_eq (line : Byte) (s : State) (run : Nat → State) :
    (line.toNat ≤ 15 ∧ onLine line s run = .next (run line.toNat)) ∨
      (15 < line.toNat ∧ onLine line s run = .next (raise .invalidIndex s)) := by
  unfold onLine
  by_cases h : line.toNat ≤ 15
  · exact .inl ⟨h, by rw [if_pos h]⟩
  · exact .inr ⟨by omega, by rw [if_neg h]⟩

theorem onSource_ok {index : Byte} (h : index.toNat ≤ 239) (s : State) (run : Nat → State) :
    onSource index s run = .next (run index.toNat) := by rw [onSource, if_pos h]

theorem onLine_ok {line : Byte} (h : line.toNat ≤ 15) (s : State) (run : Nat → State) :
    onLine line s run = .next (run line.toNat) := by rw [onLine, if_pos h]

/-- What a slot holds of a reference: the reference when it fits, and never more than its width (R34, R40). -/
theorem heldCallback_spec (c : Config) (h : CbRef) :
    (h.toNat < 2 ^ c.cbrefBits → heldCallback c h = h) ∧
      (heldCallback c h).toNat < 2 ^ c.cbrefBits := by
  unfold heldCallback
  refine ⟨fun hf => by rw [if_pos hf], ?_⟩
  split
  · assumption
  · rw [toNat_truncBits]; exact Nat.mod_lt _ (Nat.two_pow_pos _)

/-- The modes are the numbers 0 to 4, each the subgroup width of its mode (R27, R28). -/
theorem modeOfNumber_eq_some_iff (mode : BitVec 3) (m : GroupingMode) :
    modeOfNumber mode = some m ↔ subWidth m = mode.toNat := by
  cases m <;> revert mode <;> decide

theorem modeOfNumber_of_le {mode : BitVec 3} (h : mode.toNat ≤ 4) :
    ∃ m, modeOfNumber mode = some m ∧ subWidth m = mode.toNat := by
  have hs : ∀ b : BitVec 3, b.toNat ≤ 4 → (modeOfNumber b).isSome := by decide
  obtain ⟨m, hm⟩ := Option.isSome_iff_exists.mp (hs mode h)
  exact ⟨m, hm, (modeOfNumber_eq_some_iff mode m).mp hm⟩

theorem isSome_ite_some {α : Type} (p : Prop) [Decidable p] (x : α) (y : Option α) :
    (if p then some x else y).isSome = (decide p || y.isSome) := by
  by_cases h : p <;> simp [h]

/-- A register number is in the map exactly when it names a register (R71). -/
theorem regOfNumber_isSome (n : Half) : (regOfNumber n).isSome = regMapped n := by
  rw [Bool.eq_iff_iff]
  simp only [regOfNumber, regMapped, isSome_ite_some, Option.isSome_none, Bool.or_eq_true,
    Bool.and_eq_true, Bool.or_false, decide_eq_true_eq, beq_iff_eq]
  omega

/-! ### Routines, traps and the counter -/

/-- `Invoke(h)`: one output, and one frame more in the running context (R215). -/
theorem invoke_eq (h : CbRef) (f : Frame) (s : State) :
    invoke h f s = { s with
        main := (invoke h f s).main, handlers := (invoke h f s).handlers
        outputs := .cb h :: s.outputs } ∧
      ctx (invoke h f s) = { ctx s with frames := f :: (ctx s).frames } ∧
      SuspendedKept s (invoke h f s) := by
  refine ⟨?_, ctx_setCtx _ _, suspendedKept_setCtx _ _⟩
  unfold invoke setFrames; rw [setCtx_eq]; rfl

/-- The routine of a line invokes its callback, or, with an empty slot, ends (R148). -/
theorem dispatchLine_cases (l : Nat) (port : Bool) (s : State) :
    (s.eirCb[l]?.getD 0 ≠ 0 ∧
        dispatchLine l port s = invoke (s.eirCb[l]?.getD 0) (.lineCall l port) s) ∨
      (s.eirCb[l]?.getD 0 = 0 ∧ dispatchLine l port s = finishLine l port s) := by
  unfold dispatchLine
  split
  · exact .inl ⟨‹_›, rfl⟩
  · exact .inr ⟨not_not.mp ‹_›, rfl⟩

/-- The end of a line's routine: the flag cleared, and a response where a command is owed one. -/
theorem finishLine_eq (l : Nat) (port : Bool) (s : State) :
    finishLine l port s = { s with
      eirPend := setBit s.eirPend l false
      outputs := if port then responded .ok 0 s else s.outputs } := by
  unfold finishLine dispatchDone; cases port <;> rfl

/-- The timer's routine invokes its callback, or, with an empty slot, does nothing (R172). -/
theorem dispatchTimer_cases (port : Bool) (s : State) :
    (s.stsCb ≠ 0 ∧ dispatchTimer port s = invoke s.stsCb (.stsCall port) s) ∨
      (s.stsCb = 0 ∧ dispatchTimer port s = { s with
        outputs := if port then responded .ok 0 s else s.outputs }) := by
  unfold dispatchTimer
  split
  · exact .inl ⟨‹_›, rfl⟩
  · refine .inr ⟨not_not.mp ‹_›, ?_⟩
    unfold dispatchDone; cases port <;> rfl

/-- The end of the timer's routine (R172). -/
theorem finishTimer_eq (port : Bool) (s : State) :
    finishTimer port s = { s with
      stsEnable := if s.stsMode = .single then false else s.stsEnable
      stsCountFlag := if s.stsMode = .single ∧ s.cfg.ctrlFieldWrite = .rmw then false
                      else s.stsCountFlag
      outputs := if port then responded .ok 0 s else s.outputs } := by
  unfold finishTimer dispatchDone
  by_cases hm : s.stsMode = .single <;> cases port <;>
    simp [hm, setTimerEnable_eq, respond, emit, responded, issuer]

/-- A count event is no step of the counter, a reload, a count, or a crossing (R161). -/
theorem countDown_cases (s : State) :
    (s.stsCurrent = 0 ∧ countDown s = { s with stsCurrent := s.stsReload }) ∨
      (s.stsCurrent = 1 ∧ countDown s = { s with
        stsCurrent := 0
        stsCountFlag := true
        icPending := if s.stsTickInt then setBit s.icPending s.cfg.stsSrc true
                     else s.icPending }) ∨
      (s.stsCurrent ≠ 0 ∧ s.stsCurrent ≠ 1 ∧
        countDown s = { s with stsCurrent := s.stsCurrent - 1 }) := by
  unfold countDown
  by_cases h0 : s.stsCurrent = 0
  · exact .inl ⟨h0, by rw [if_pos h0]⟩
  · by_cases h1 : s.stsCurrent = 1
    · exact .inr (.inl ⟨h1, by rw [if_neg h0, if_pos h1]⟩)
    · exact .inr (.inr ⟨h0, h1, by rw [if_neg h0, if_neg h1]⟩)

/-- A source whose take step is enabled is `best`, with the inhibit input at 0 (R204, R205). -/
theorem takeable_eq_some {s : State} {i : Nat} (h : takeable s = some i) :
    best s = some i ∧ s.irqInhibit = false ∧ preValue s i < currentPriority s := by
  unfold takeable at h
  split at h
  · split at h
    · cases h
      rename_i hb hc
      simp only [Bool.and_eq_true, Bool.not_eq_true', decide_eq_true_eq] at hc
      exact ⟨hb, hc.1, hc.2⟩
    · cases h
  · cases h

/-- `CUR` is above a value exactly when the main context and every source in service are (R203). -/
theorem lt_currentPriority (s : State) (v : Nat) :
    v < currentPriority s ↔ v < idlePriority s.cfg ∧ ∀ j ∈ nest s, v < preValue s j := by
  have h : ∀ (hs : List Handler) (m : Nat),
      v < hs.foldl (fun m h => min m (preValue s h.source)) m ↔
        v < m ∧ ∀ h ∈ hs, v < preValue s h.source := by
    intro hs
    induction hs with
    | nil => simp
    | cons a hs ih => intro m; rw [List.foldl_cons, ih, lt_min_iff]; simp [and_assoc]
  rw [currentPriority, h]; simp [nest]

/-- An exit step is enabled only for the innermost handler, finished (R208). -/
theorem exitable_eq_some {s : State} {i : Nat} (h : exitable s = some i) :
    ∃ hs, s.handlers = ⟨i, Ctx.start⟩ :: hs := by
  unfold exitable at h
  split at h
  · rename_i hd tl heq
    split at h
    · rename_i hc; cases h; exact ⟨tl, by rw [heq, ← hc]⟩
    · cases h
  · cases h

/-! ### Steps -/

/-- Every command answers a next state: a rejected one too (R190). -/
theorem exec_next (i : Instr) (s : State) : ∃ t, exec i s = .next t := by
  cases i <;> try exact ⟨_, rfl⟩
  case eirSetEdge l e => simp only [exec, execEirSetEdge, onEdgeLine]; split <;> exact ⟨_, rfl⟩

/-- Every step settles the ages of what one agent's step leaves. -/
theorem step_settles {s t : State} (h : step s = .next t) : ∃ u, t = settle u := by
  unfold step at h
  split at h
  · rename_i i _
    obtain ⟨u, hu⟩ := exec_next i (dropScheduled s)
    rw [hu] at h; cases h; exact ⟨u, rfl⟩
  all_goals cases h; exact ⟨_, rfl⟩

/-- The step of an agent that is no command. -/
theorem step_event {s : State} {e : Event} {rest : List Event} (h : Next e rest s)
    (he : ∀ cw, e ≠ .command cw) :
    step s = .next (settle (agentStep e { s with schedule := rest })) := by
  have hf : fetch s = .event e := by
    cases e <;> simp only [fetch, h.1]
    rename_i cw; exact absurd rfl (he cw)
  simp only [step, hf, environmentStep, dropScheduled, h.1, h.2, settleResult, List.tail_cons,
    Bool.false_eq_true, if_false]

/-- A mapped register number names a register, which the two raw commands act on (R110, R111). -/
theorem raw_access {n : Half} (h : regMapped n = true) :
    ∃ r, regOfNumber n = some r ∧
      (∀ s, exec (.regRd n) s = .next (respond (regValue s r) (afterRead r s))) ∧
      ∀ data s, exec (.regWr n data) s = .next (respond 0 (memWrite r data s)) := by
  have hs := regOfNumber_isSome n
  rw [h] at hs
  obtain ⟨r, hr⟩ := Option.isSome_iff_exists.mp hs
  exact ⟨r, hr, fun s => by simp only [exec, execRegRd, onReg, hr, memRead],
    fun data s => by simp only [exec, execRegWr, onReg, hr]⟩

end Sys2Proof.Machine
end

