-- ==== Sys2Proof/Laws/PerInstr.lean ====
section
/-! SUPPORT. Statements about every command, one lemma for each constructor. -/

namespace Sys2Proof.Laws.EncodedFields

/-- The fields of a command's word are the operands and the operation code it was built from (R91). -/
def Statement (i : Instr) : Prop := Fields.ofWord (encode i) = i.fields

theorem regRd (n : Half) : Statement (.regRd n) := ofWord_encode _
theorem regWr (n : Half) (data : Word) : Statement (.regWr n data) := ofWord_encode _
theorem icEnable (i : Byte) : Statement (.icEnable i) := ofWord_encode _
theorem icDisable (i : Byte) : Statement (.icDisable i) := ofWord_encode _
theorem icSetPend (i : Byte) : Statement (.icSetPend i) := ofWord_encode _
theorem icClrPend (i : Byte) : Statement (.icClrPend i) := ofWord_encode _
theorem icIsActive (i : Byte) : Statement (.icIsActive i) := ofWord_encode _
theorem icSetGrouping (m : BitVec 3) : Statement (.icSetGrouping m) := ofWord_encode _
theorem icSetPrio (i : Byte) (g : Byte) (u : Byte) : Statement (.icSetPrio i g u) := ofWord_encode _
theorem icEncPrio (m : BitVec 3) (g : Byte) (u : Byte) : Statement (.icEncPrio m g u) := ofWord_encode _
theorem eirSetPort (l : Byte) (p : BitVec 4) : Statement (.eirSetPort l p) := ofWord_encode _
theorem eirSetTrigger (l : Byte) (m : TriggerMode) (e : BitVec 2) : Statement (.eirSetTrigger l m e) := ofWord_encode _
theorem eirSetEdge (l : Byte) (e : BitVec 2) : Statement (.eirSetEdge l e) := ofWord_encode _
theorem eirRegCb (l : Byte) (h : CbRef) : Statement (.eirRegCb l h) := ofWord_encode _
theorem eirDispatch (l : Byte) : Statement (.eirDispatch l) := ofWord_encode _
theorem stsInit : Statement .stsInit := ofWord_encode _
theorem stsBusyWait (w : Word) : Statement (.stsBusyWait w) := ofWord_encode _
theorem stsElapsed : Statement .stsElapsed := ofWord_encode _
theorem stsRemaining : Statement .stsRemaining := ofWord_encode _
theorem stsSetSingle (w : Word) (h : CbRef) : Statement (.stsSetSingle w h) := ofWord_encode _
theorem stsSetPeriodic (w : Word) (h : CbRef) : Statement (.stsSetPeriodic w h) := ofWord_encode _
theorem stsStop : Statement .stsStop := ofWord_encode _
theorem stsDispatch : Statement .stsDispatch := ofWord_encode _

end Sys2Proof.Laws.EncodedFields
end

