-- ==== Sys2Proof/Machine/Assembler.lean ====
section
/-! DEFINITION. The assembler syntax (R99, R100): one command a line, a mnemonic and operands in the
document's argument order, separated by commas; comments from `;`; names of enumerations, ports and
callbacks. It reads a line as a list of characters and answers the command it spells. -/

namespace Sys2Proof.Machine

/-- An operand as written: a number or a name (R99). -/
inductive AsmOperand where
  | number (n : Nat)
  | name (s : String)
  deriving DecidableEq, Repr

/-- A line as written: the mnemonic and its operands (R99). -/
structure AsmLine where
  mnemonic : String
  operands : List AsmOperand
  deriving DecidableEq, Repr

/-- The value of a hexadecimal digit. -/
def hexDigit (c : Char) : Option Nat :=
  if '0' ≤ c ∧ c ≤ '9' then some (c.toNat - '0'.toNat)
  else if 'a' ≤ c ∧ c ≤ 'f' then some (c.toNat - 'a'.toNat + 10)
  else if 'A' ≤ c ∧ c ≤ 'F' then some (c.toNat - 'A'.toNat + 10)
  else none

/-- The number that digits of a base spell, after `acc`. -/
def digitsValue (base : Nat) : Nat → List Char → Option Nat
  | acc, [] => some acc
  | acc, c :: cs =>
    match hexDigit c with
    | some d => if d < base then digitsValue base (acc * base + d) cs else none
    | none => none

/-- A decimal or `0x` hexadecimal number (R99). -/
def numberOf (cs : List Char) : Option Nat :=
  match cs with
  | [] => none
  | '0' :: 'x' :: c :: ds => digitsValue 16 0 (c :: ds)
  | c :: ds => digitsValue 10 0 (c :: ds)

/-- White space within a line. -/
def isBlank (c : Char) : Bool := c == ' ' || c == '\t'

/-- Characters without the white space around them. -/
def trimmed (cs : List Char) : List Char :=
  ((cs.dropWhile isBlank).reverse.dropWhile isBlank).reverse

/-- The parts between commas. -/
def splitCommas (cs : List Char) : List (List Char) :=
  cs.foldr (fun c parts =>
    if c == ',' then [] :: parts
    else match parts with
      | [] => [[c]]
      | p :: ps => (c :: p) :: ps) [[]]

/-- One operand. -/
def operandOf (cs : List Char) : AsmOperand :=
  match numberOf (trimmed cs) with
  | some n => .number n
  | none => .name (String.ofList (trimmed cs))

/-- A line read: its comment dropped, the mnemonic up to the first white space, the operands between
commas; `none` for a line without a command (R99). -/
def readLine (cs : List Char) : Option AsmLine :=
  let code := trimmed (cs.takeWhile fun c => c != ';')
  let mnemonic := code.takeWhile fun c => !isBlank c
  let rest := trimmed (code.dropWhile fun c => !isBlank c)
  if mnemonic.isEmpty then none
  else some ⟨String.ofList mnemonic, if rest.isEmpty then [] else (splitCommas rest).map operandOf⟩

/-- A number that fits `n` bits. -/
def fitting (n v : Nat) : Option (BitVec n) := if v < 2 ^ n then some (BitVec.ofNat n v) else none

/-- A plain number operand of `n` bits. -/
def asNumber (n : Nat) : AsmOperand → Option (BitVec n)
  | .number v => fitting n v
  | .name _ => none

/-- A grouping mode by number or name (R95). -/
def asMode : AsmOperand → Option (BitVec 3)
  | .number v => fitting 3 v
  | .name s =>
    match s with
    | "GROUP16_SUB0" => some 0
    | "GROUP8_SUB2" => some 1
    | "GROUP4_SUB4" => some 2
    | "GROUP2_SUB8" => some 3
    | "GROUP0_SUB16" => some 4
    | _ => none

/-- An edge by number or name (R95). -/
def asEdge : AsmOperand → Option (BitVec 2)
  | .number v => fitting 2 v
  | .name s =>
    match s with
    | "Rising" => some 0
    | "Falling" => some 1
    | "OnChange" => some 2
    | _ => none

/-- A trigger mode by number or name (R95). -/
def asTrigger : AsmOperand → Option TriggerMode
  | .number v => if v = 0 then some .disabled else if v = 1 then some .enabled else none
  | .name s =>
    match s with
    | "Disabled" => some .disabled
    | "Enabled" => some .enabled
    | _ => none

/-- A port by selector value, or by name, which stands for its `PORT_SELECTOR` (R99, R6). -/
def asPort (c : Config) : AsmOperand → Option (BitVec 4)
  | .number v => fitting 4 v
  | .name s => c.portSelector.lookup s

/-- A callback reference by number, by a name that the program's heading binds, or `NULL` (R99). -/
def asCallback (heading : List (String × CbRef)) : AsmOperand → Option CbRef
  | .number v => fitting 16 v
  | .name s => if s = "NULL" then some 0 else heading.lookup s

/-- The command a line spells, under the parameters, which name the ports, and a program heading, which
binds names of callbacks to numbers (R99, R100). -/
def assemble (c : Config) (heading : List (String × CbRef)) (l : AsmLine) : Option Instr :=
  match l.mnemonic, l.operands with
  | "REG.RD", [n] => do return .regRd (← asNumber 16 n)
  | "REG.WR", [n, d] => do return .regWr (← asNumber 16 n) (← asNumber 32 d)
  | "IC.ENABLE", [i] => do return .icEnable (← asNumber 8 i)
  | "IC.DISABLE", [i] => do return .icDisable (← asNumber 8 i)
  | "IC.SETPEND", [i] => do return .icSetPend (← asNumber 8 i)
  | "IC.CLRPEND", [i] => do return .icClrPend (← asNumber 8 i)
  | "IC.ISACTIVE", [i] => do return .icIsActive (← asNumber 8 i)
  | "IC.SETGROUPING", [m] => do return .icSetGrouping (← asMode m)
  | "IC.SETPRIO", [i, g, u] => do
    return .icSetPrio (← asNumber 8 i) (← asNumber 8 g) (← asNumber 8 u)
  | "IC.ENCPRIO", [m, g, u] => do
    return .icEncPrio (← asMode m) (← asNumber 8 g) (← asNumber 8 u)
  | "EIR.SETPORT", [p, n] => do return .eirSetPort (← asNumber 8 n) (← asPort c p)
  | "EIR.SETTRIGGER", [n, m] => do return .eirSetTrigger (← asNumber 8 n) (← asTrigger m) 0
  | "EIR.SETTRIGGER", [n, m, e] => do
    return .eirSetTrigger (← asNumber 8 n) (← asTrigger m) (← asEdge e)
  | "EIR.SETEDGE", [n, e] => do return .eirSetEdge (← asNumber 8 n) (← asEdge e)
  | "EIR.REGCB", [n, h] => do return .eirRegCb (← asNumber 8 n) (← asCallback heading h)
  | "EIR.DISPATCH", [n] => do return .eirDispatch (← asNumber 8 n)
  | "STS.INIT", [] => some .stsInit
  | "STS.BUSYWAIT", [t] => do return .stsBusyWait (← asNumber 32 t)
  | "STS.ELAPSED", [] => some .stsElapsed
  | "STS.REMAINING", [] => some .stsRemaining
  | "STS.SETSINGLE", [t, h] => do return .stsSetSingle (← asNumber 32 t) (← asCallback heading h)
  | "STS.SETPERIODIC", [t, h] => do
    return .stsSetPeriodic (← asNumber 32 t) (← asCallback heading h)
  | "STS.STOP", [] => some .stsStop
  | "STS.DISPATCH", [] => some .stsDispatch
  | "EIR.ENABLE", [n] => do return .eirEnable (← asNumber 8 n)
  | "EIR.DISABLE", [n] => do return .eirDisable (← asNumber 8 n)
  | "EIR.UNREGCB", [n] => do return .eirUnregCb (← asNumber 8 n)
  | _, _ => none

/-- The command word of a line of text, if it spells a command (R99). -/
def assembleText (c : Config) (heading : List (String × CbRef)) (text : String) : Option CmdWord :=
  ((readLine text.toList).bind (assemble c heading)).map encode

end Sys2Proof.Machine
end

