-- ==== Sys2Proof/Tests/Slice0.lean ====
section
/-! SUPPORT. Small tests with values from `95_test_vectors.md`, and for every obligation with hypotheses a
witness that meets them together. -/

namespace Sys2Proof.Tests

open Sys2Proof Sys2Proof.Machine

-- One theorem after the other: a hundred at once ask for more threads than the memory limit has stacks.
set_option Elab.async false

/-! ### Helpers -/

/-- The parameters of `95_test_vectors.md`: the defaults, and values for those that have none. -/
def vectorConfig : Config :=
  { defaultConfig with
    stsSrc := 50, stsCfgTickInt := true, stsCfgClkSrc := true, stsCalib := 0 }

/-- The state from reset with these parameters. -/
def start : State := { State.reset with cfg := vectorConfig }

/-- The state a result leads to. -/
def after : Result → State
  | .next t => t
  | .fault _ => start
  | .refused _ => start

/-- One step with one scheduled event. -/
def stepOf (e : Event) (s : State) : State := after (step { s with schedule := [e] })

/-- A bank with some sources' bits 1. -/
def bits (is : List Nat) : BitVec 240 := is.foldl (fun v i => setBit v i true) 0

/-- `STS_CTRL` = 0x10007. -/
def timing : State :=
  { start with stsEnable := true, stsTickInt := true, stsClkSource := true, stsCountFlag := true }

/-- Line 5 pending and enabled, its callback 0x42. -/
def requesting : State :=
  { start with eirPend := 0x20, eirMask := 0x20, eirCb := start.eirCb.set 5 0x42 }

/-- Source 23 in service, in the callback of line 5 on the trap path, lines 6 to 9 to follow. -/
def inLineCallback : State :=
  { requesting with
    icActive := bits [23]
    handlers := [⟨23, ⟨.idle, [.lineCall 5 false, .group [6, 7, 8, 9]]⟩⟩] }

/-- Source 23 in service, its body finished, line 5 still requesting. -/
def handlerDone : State := { requesting with icActive := bits [23], handlers := [⟨23, Ctx.start⟩] }

/-- Sources 10 and 20 enabled and pending, of equal priority 0x40 (vector A1). -/
def twoEqual : State :=
  { start with
    icEnable := bits [10, 20], icPending := bits [10, 20]
    icPrio := (start.icPrio.set 10 4).set 20 4 }

/-- The same with source 11 of priority 0x40 in service. -/
def twoWaiting : State :=
  { twoEqual with
    icPrio := twoEqual.icPrio.set 11 4
    icActive := bits [11], handlers := [⟨11, ⟨.idle, [.foreign]⟩⟩] }

/-- Source 23 in service, every line of its group looked at. -/
def groupEnd : State :=
  { requesting with icActive := bits [23], handlers := [⟨23, ⟨.idle, [.group []]⟩⟩] }

/-- The handler of `STS_SRC` in the callback of a periodic job. -/
def periodicCallback : State :=
  { timing with
    stsMode := .periodic, icActive := bits [50], handlers := [⟨50, ⟨.idle, [.stsCall false]⟩⟩] }

/-- `s` with callback slots of 4 bits. -/
def narrow (s : State) : State := { s with cfg := { vectorConfig with cbrefBits := 4 } }

/-- `s` with one scheduled event. -/
def scheduled (e : Event) (s : State) : State := { s with schedule := [e] }

/-! ### Well-formedness (R96): one ill-formed term for each check -/

theorem test_refuses_unmapped_register :
    (Instr.regRd 0x0028).wellFormed = false ∧ (Instr.regWr 0x020C 5).wellFormed = false ∧
      (Instr.regRd 0x0031).legal = false ∧ (Instr.regRd 0x01F0).legal = false ∧
      (Instr.regRd 0x0204).legal = false ∧ (Instr.regRd 0x0304).legal = false := by decide

theorem test_refuses_reserved_mode :
    (Instr.icSetGrouping 5).wellFormed = false ∧ (Instr.icEncPrio 7 1 1).wellFormed = false := by
  decide

theorem test_refuses_reserved_edge : (Instr.eirSetEdge 5 3).wellFormed = false := by decide

theorem test_refuses_source_above_239 :
    (Instr.icEnable 240).wellFormed = false ∧ (Instr.icSetPrio 240 0 0).wellFormed = false := by
  decide

theorem test_refuses_line_above_15 :
    (Instr.eirSetPort 16 1).wellFormed = false ∧ (Instr.eirDispatch 16).wellFormed = false := by
  decide

theorem test_accepts_boundaries :
    (Instr.regRd 0x01EF).wellFormed ∧ (Instr.icEnable 239).wellFormed ∧
      (Instr.icSetGrouping 4).wellFormed ∧ (Instr.eirSetEdge 15 2).wellFormed ∧
      (Instr.eirSetTrigger 15 .enabled 3).wellFormed := by decide

/-! ### Decoding (R94): a word written out for every row -/

theorem test_decode_reg :
    decode 0x0100020300000000 = .ok (.regRd 0x0203) ∧
    decode 0x0200003005FA0500 = .ok (.regWr 0x0030 0x05FA0500) := by decide

theorem test_decode_ic :
    decode 0x1000000600000000 = .ok (.icEnable 6) ∧
    decode 0x1100000600000000 = .ok (.icDisable 6) ∧
    decode 0x1200002800000000 = .ok (.icSetPend 40) ∧
    decode 0x1300002800000000 = .ok (.icClrPend 40) ∧
    decode 0x1400001700000000 = .ok (.icIsActive 23) ∧
    decode 0x1500000200000000 = .ok (.icSetGrouping 2) ∧
    decode 0x1601020600000000 = .ok (.icSetPrio 6 2 1) ∧
    decode 0x1703070400000000 = .ok (.icEncPrio 4 7 3) := by decide

theorem test_decode_eir :
    decode 0x2000010500000000 = .ok (.eirSetPort 5 1) ∧
    decode 0x2103000500000000 = .ok (.eirSetTrigger 5 .enabled 1) ∧
    decode 0x2202000F00000000 = .ok (.eirSetEdge 15 2) ∧
    decode 0x2312340500000000 = .ok (.eirRegCb 5 0x1234) ∧
    decode 0x2F00000500000000 = .ok (.eirDispatch 5) := by decide

theorem test_decode_sts :
    decode 0x3000000000000000 = .ok .stsInit ∧
    decode 0x31000000000003E8 = .ok (.stsBusyWait 1000) ∧
    decode 0x3200000000000000 = .ok .stsElapsed ∧
    decode 0x3300000000000000 = .ok .stsRemaining ∧
    decode 0x34000700000003E8 = .ok (.stsSetSingle 1000 7) ∧
    decode 0x35123400000001F4 = .ok (.stsSetPeriodic 500 0x1234) ∧
    decode 0x3600000000000000 = .ok .stsStop ∧
    decode 0x3F00000000000000 = .ok .stsDispatch := by decide

/-- The rows of vector group V-DEC that decode to nothing. -/
theorem test_decode_rejects :
    ([0x0000000000000000, 0x0300000000000000, 0x1800000000000000, 0x2400000000000000,
      0x3700000000000000, 0x4000000000000000, 0xFF00000000000000] : List CmdWord).all
        (fun w => decode w = .error .reservedOpcode) ∧
    ([0x1000010600000000, 0x1000000600000001, 0x1500000800000000, 0x1601020600000001,
      0x2000100500000000, 0x2108000500000000, 0x2101010500000000, 0x2204000500000000,
      0x2300420500000001, 0x0101000000000000, 0x0100000000000001, 0x3000000000000001,
      0x3100000100000005, 0x3200000100000000, 0x3400070100000005, 0x3601000000000000,
      0x3F00000000000001] : List CmdWord).all (fun w => decode w = .error .mustBeZero) := by
  decide

theorem test_encode :
    encode (.regWr 0x0030 0x05FA0700) = 0x0200003005FA0700 ∧
    encode (.icSetPrio 239 255 255) = 0x16FFFFEF00000000 ∧
    encode (.eirRegCb 5 0x0042) = 0x2300420500000000 ∧
    encode (.eirEnable 5) = 0x2101000500000000 ∧
    encode (.stsSetPeriodic 3 7) = 0x3500070000000003 := by decide

theorem test_table_word : decodeTableWord 64 0x2000010500000000 = some (.eirSetPort 5 1) := by decide

theorem test_assembler :
    assembleText vectorConfig [] "EIR.SETPORT PORTB, 5 ; line 5" = some 0x2000010500000000 ∧
    assembleText vectorConfig [("cb", 7)] "STS.SETSINGLE 1000, cb" = some 0x34000700000003E8 ∧
    assembleText vectorConfig [] "IC.SETGROUPING GROUP4_SUB4" = some 0x1500000200000000 ∧
    assembleText vectorConfig [] "EIR.UNREGCB 5" = some 0x2300000500000000 ∧
    assembleText vectorConfig [] "REG.RD 0x0300" = some 0x0100030000000000 := by decide +kernel

/-! ### One step of each command (vectors of parts 1 and 2) -/

theorem test_regRd_control_clears_flag :
    let t := after (exec (.regRd 0x0300) timing)
    t.outputs = [.response none .ok 0x10007] ∧ t.stsCountFlag = false := by decide +kernel

theorem test_regRd_pricfg_reads_key_and_selector :
    (after (exec (.regRd 0x0030) { start with icGroupSel := 7 })).outputs
      = [.response none .ok 0xFA050700] := by decide +kernel

theorem test_regWr_pricfg_needs_key :
    (after (exec (.regWr 0x0030 0x05FAFFFF) start)).icGroupSel = 7 ∧
    (after (exec (.regWr 0x0030 0xFA050300) start)).icGroupSel = 0 := by decide +kernel

theorem test_regWr_reload_is_truncated :
    (after (exec (.regWr 0x0301 0xFF000005) start)).stsReload = 5 := by decide +kernel

theorem test_icEnable_last_source :
    regValue (after (exec (.icEnable 239) start)) (.iser 7) = 0x8000 := by decide +kernel

theorem test_icDisable :
    regValue (after (exec (.icDisable 6) { start with icEnable := bits [6, 7] })) (.icer 0) = 0x80 := by
  decide +kernel

theorem test_icSetPend : regValue (after (exec (.icSetPend 40) start)) (.ispr 1) = 0x100 := by
  decide +kernel

theorem test_icClrPend_request_still_high :
    (after (exec (.icClrPend 23) { requesting with icPending := bits [23, 40] })).icPending
      = bits [23, 40] ∧
    (after (exec (.icClrPend 40) { requesting with icPending := bits [23, 40] })).icPending
      = bits [23] := by decide +kernel

theorem test_icIsActive :
    (after (exec (.icIsActive 23) inLineCallback)).outputs = [.response (some 23) .ok 1] ∧
    (after (exec (.icIsActive 6) inLineCallback)).outputs = [.response (some 23) .ok 0] := by
  decide +kernel

theorem test_icSetGrouping :
    let t := after (exec (.icSetGrouping 2) start)
    t.icGroupSel = 5 ∧ t.icGMode = .group4Sub4 := by decide +kernel

theorem test_icSetPrio :
    prioField (after (exec (.icSetPrio 6 2 1) { start with icGMode := .group4Sub4 })) 6 = 0x90 ∧
    prioField (after (exec (.icSetPrio 239 255 255) start)) 239 = 0xF0 := by decide +kernel

theorem test_icEncPrio_wide_subgroup :
    (after (exec (.icEncPrio 2 2 5) start)).outputs = [.response none .ok 0x90] ∧
    (after (exec (.icEncPrio 2 2 5)
      { start with cfg := { vectorConfig with encOverflow := .overlay } })).outputs
      = [.response none .ok 0xD0] := by decide +kernel

theorem test_eirSetPort_keeps_neighbours :
    (after (exec (.eirSetPort 5 1) { start with eirCfg := #v[0, 0x7777, 0, 0] })).eirCfg
      = #v[0, 0x7717, 0, 0] := by decide +kernel

/-- Vector V-EIR-3, step 11: the selector change moves the line to a high pin. -/
theorem test_eirSetPort_sees_an_edge :
    let t := after (exec (.eirSetPort 5 1)
      { start with eirRise := 0x20, eirMask := 0x20, pins := start.pins.set 1 0x20 })
    t.eirPend = 0x20 ∧ t.eirPrev = 0x20 ∧ t.icPending = bits [23] := by decide +kernel

theorem test_eirSetTrigger_ignores_edge :
    let t := after (exec (.eirSetTrigger 5 .enabled 3) { start with eirPend := 0x20 })
    t.eirMask = 0x20 ∧ t.eirRise = 0 ∧ t.eirFall = 0 ∧ t.icPending = bits [23] := by decide +kernel

theorem test_eirSetEdge :
    let t := after (exec (.eirSetEdge 5 1) { start with eirRise := 0x60, eirFall := 0x40 })
    t.eirRise = 0x40 ∧ t.eirFall = 0x60 := by decide +kernel

theorem test_eirRegCb : (after (exec (.eirRegCb 5 0x42) start)).eirCb[5] = 0x42 := by decide +kernel

/-- `CBREF_BITS` = 4: the slot holds 4 bits whatever the command carries, a fitting reference as it is. -/
theorem test_narrow_slot_holds_its_width :
    (after (exec (.eirRegCb 5 0xF) (narrow start))).eirCb[5] = 0xF ∧
    (after (exec (.stsSetSingle 9 0xF) (narrow start))).stsCb = 0xF ∧
    (heldCallback (narrow start).cfg 0x10).toNat < 16 := by
  exact ⟨by decide +kernel, by decide +kernel, (heldCallback_spec (narrow start).cfg 0x10).2⟩

theorem test_eirDispatch_empty_slot :
    let t := after (exec (.eirDispatch 5) { start with eirPend := 0x120 })
    t.eirPend = 0x100 ∧ t.outputs = [.response none .ok 0] := by decide +kernel

theorem test_eirDispatch_invokes_once :
    let t := after (exec (.eirDispatch 5) requesting)
    t.eirPend = 0x20 ∧ t.outputs = [.cb 0x42] ∧ t.main.frames = [.lineCall 5 true] := by
  decide +kernel

theorem test_stsInit :
    regValue (after (exec .stsInit start)) .stsCtrl = 6 := by decide +kernel

theorem test_stsBusyWait_start :
    let t := after (exec (.stsBusyWait 2) start)
    t.stsReload = 2 ∧ regValue t .stsCtrl = 1 ∧ t.main.bw = .spin 0 ∧ t.outputs = [] := by
  decide +kernel

theorem test_stsElapsed :
    (after (exec .stsElapsed { start with stsReload := 1000, stsCurrent := 400 })).outputs
      = [.response none .ok 600] ∧
    (after (exec .stsElapsed { start with stsReload := 2, stsCurrent := 3 })).outputs
      = [.response none .ok 0xFFFFFFFF] := by decide +kernel

theorem test_stsRemaining :
    (after (exec .stsRemaining { start with stsReload := 1000, stsCurrent := 400 })).outputs
      = [.response none .ok 400] := by decide +kernel

theorem test_stsSetSingle_truncates :
    let t := after (exec (.stsSetSingle 0x01000002 1) start)
    t.stsReload = 2 ∧ t.stsCb = 1 ∧ regValue t .stsCtrl = 1 := by decide +kernel

theorem test_stsSetPeriodic :
    let t := after (exec (.stsSetPeriodic 500 7) { timing with stsCurrent := 9 })
    t.stsReload = 500 ∧ t.stsCurrent = 0 ∧ t.stsMode = .periodic ∧ regValue t .stsCtrl = 7 := by
  decide +kernel

theorem test_stsStop_keeps_flag :
    regValue (after (exec .stsStop timing)) .stsCtrl = 0x10006 := by decide +kernel

theorem test_stsDispatch_empty_single_is_not_stopped :
    let t := after (exec .stsDispatch timing)
    t.stsEnable = true ∧ t.outputs = [.response none .ok 0] := by decide +kernel

theorem test_stsDispatch_invokes :
    let t := after (exec .stsDispatch { timing with stsCb := 7 })
    t.stsEnable = true ∧ t.outputs = [.cb 7] := by decide +kernel

/-! ### One step of each agent -/

theorem test_pin_raises_masked_line_flag_only :
    let t := stepOf (.pin 0 5 true) { start with eirRise := 0x20 }
    t.eirPend = 0x20 ∧ t.eirPrev = 0x20 ∧ t.icPending = 0 := by decide +kernel

theorem test_count_crossing :
    let t := stepOf (.count true)
      { timing with stsCountFlag := false, stsReload := 3, stsCurrent := 1 }
    t.stsCurrent = 0 ∧ t.stsCountFlag = true ∧ t.icPending = bits [50] := by decide +kernel

theorem test_count_reload_is_no_crossing :
    let t := stepOf (.count true) { timing with stsCountFlag := false, stsReload := 3 }
    t.stsCurrent = 3 ∧ t.stsCountFlag = false ∧ t.icPending = 0 := by decide +kernel

/-- Under inhibit a counted event ages a busy-wait, and an event on the other input does not. -/
theorem test_count_ages_under_inhibit :
    let s := { timing with main := ⟨.spin 4, []⟩, irqInhibit := true, stsReload := 9, stsCurrent := 5 }
    (stepOf (.count true) s).main.bw = .spin 5 ∧ (stepOf (.count false) s).main.bw = .spin 4 ∧
    (stepOf (.count true) { s with irqInhibit := false }).main.bw = .spin 0 := by decide +kernel

theorem test_take_lower_index_first :
    let t := stepOf .take twoEqual
    nest t = [10] ∧ t.icPending = bits [20] ∧ t.icActive = bits [10] ∧ t.outputs = [.take 10] := by
  decide +kernel

theorem test_take_waits_for_equal_priority : nest (stepOf .take twoWaiting) = [11] := by decide +kernel

/-- Vector A7: with `PREEMPT_FIELD` = group a source of the same group waits. -/
theorem test_take_by_group :
    let s := { twoWaiting with icGroupSel := 5, icPrio := (start.icPrio.set 11 9).set 10 8 }
    nest (stepOf .take s) = [11, 20] ∧
    nest (stepOf .take { s with
      icEnable := bits [10], cfg := { vectorConfig with preemptField := .group } }) = [11] := by
  decide +kernel

theorem test_exit_request_still_high :
    let t := stepOf .exit handlerDone
    t.icActive = 0 ∧ t.icPending = bits [23] ∧ nest t = [] ∧ t.outputs = [.exit 23] := by
  decide +kernel

theorem test_group_body_ends_after_its_last_line :
    (ctx (stepOf .advance groupEnd)).frames = [] ∧ nest (stepOf .exit (stepOf .advance groupEnd)) = [] := by
  decide +kernel

theorem test_callback_return_clears_flag :
    let t := stepOf .ret inLineCallback
    t.eirPend = 0 ∧ t.outputs = [] ∧ (ctx t).frames = [.group [6, 7, 8, 9]] := by decide +kernel

/-- The level of a pin whose port line 5 does not select is stored (vector V-EIR-3); port 6 does not exist. -/
theorem test_pin_of_unselected_port_is_stored :
    let t := stepOf (.pin 1 5 true) { start with eirRise := 0x20 }
    t.pins[1] = 0x20 ∧ t.eirPend = 0 ∧
      (after (exec (.eirSetPort 5 1) t)).eirPend = 0x20 ∧ (stepOf (.pin 6 5 true) start).pins[6] = 0 := by
  decide +kernel

/-- Vector V-STS-4, step 8: the poll that reads the flag as 1 is the finish step. -/
theorem test_poll_finishes :
    let t := stepOf .advance
      { start with
        main := ⟨.spin 0, []⟩, stsEnable := true, stsCountFlag := true
        stsReload := 2, stsCurrent := 2 }
    t.stsReload = 0 ∧ t.stsCurrent = 0 ∧ regValue t .stsCtrl = 0 ∧ t.main.bw = .idle ∧
      t.outputs = [.response none .ok 0] := by decide +kernel

theorem test_flag_is_lost_only_past_a_finite_window :
    let s := { start with main := ⟨.spin 3, []⟩, irqInhibit := true, stsCountFlag := true }
    (stepOf .loseFlag s).stsCountFlag = true ∧
    (stepOf .loseFlag { s with cfg := { vectorConfig with latchWindow := some 2 } }).stsCountFlag
      = false := by decide +kernel

/-- Reset released with pin 0 of port 0 high: `EIR_PREV` takes the level (R44). -/
theorem test_reset_release :
    let t := stepOf (.resetLine false)
      { timing with inReset := true, pins := start.pins.set 0 1, eirMask := 7 }
    t.eirPrev = 1 ∧ t.eirMask = 0 ∧ regValue t .stsCtrl = 0 ∧ t.inReset = false := by decide +kernel

theorem test_fetch_word_runs_first :
    (after (step (start.withFetchWord 64 0x1000000600000000))).icEnable = bits [6] ∧
    (after (step (handlerDone.withFetchWord 64 0x1400001700000000))).outputs
      = [.response (some 23) .ok 1] := by decide +kernel

/-! ### Witnesses: the hypotheses of each obligation met together -/

theorem witness_EncodeInvertsDecode :
    decode 0x2107000500000000 = .ok (.eirSetTrigger 5 .enabled 3) := by decide

theorem witness_DecoderAgreesWithOpcodeMap :
    decode 0x2107000500000000 = .ok (.eirSetTrigger 5 .enabled 3) ∧
    (Instr.eirSetTrigger 0 .disabled 0).row ∈ opcodeMap ∧
    (Instr.eirSetTrigger 0 .disabled 0).row.hits 0x2107000500000000 = true := by decide +kernel

/-- A command issued from main and from a callback; one that a context in Spin, a routine of the block and a
finished handler cannot issue; an event, and an empty schedule. -/
theorem witness_StepRunsDecodedCommand :
    let command := scheduled (.command 0x1000000600000000)
    let spinning := { start with main := ⟨.spin 3, []⟩ }
    (command start).schedule = [.command 0x1000000600000000] ∧ canIssue (command start) = true ∧
    decode 0x1000000600000000 = .ok (.icEnable 6) ∧ start.handlers = [] ∧
    canIssue (command inLineCallback) = true ∧
    inLineCallback.handlers = [⟨23, ⟨.idle, [.lineCall 5 false, .group [6, 7, 8, 9]]⟩⟩] ∧
    canIssue (command spinning) = false ∧ canIssue (command groupEnd) = false ∧
    canIssue (command handlerDone) = false ∧ (after (step (command spinning))).icEnable = 0 ∧
    (scheduled .take start).schedule = [.take] ∧ start.schedule = [] := by decide +kernel

theorem witness_UndecodableWordOnlyResponds :
    (scheduled (.command 0x1800000000000000) start).schedule = [.command 0x1800000000000000] ∧
    canIssue (scheduled (.command 0x1800000000000000) start) = true ∧
    (∀ r ∈ opcodeMap, r.hits 0x1800000000000000 = false) := by decide +kernel

theorem witness_IllegalCommandWinsAndOnlyResponds :
    (Instr.regRd 0x01F0).legal = false ∧ (Instr.icSetGrouping 5).legal = false ∧
    (Instr.eirSetEdge 5 3).legal = false := by decide

theorem witness_InvalidIndexOnlyResponds :
    (Instr.icEnable 240).legal = true ∧ (Instr.icEnable 240).inRange = false ∧
    (Instr.eirSetEdge 16 2).legal = true ∧ (Instr.eirSetEdge 16 2).inRange = false := by decide

/-- A command that responds, the two dispatches with a callback, and a busy-wait. -/
theorem witness_WellFormedCommandCompletes :
    (Instr.icEnable 239).wellFormed = true ∧
    (Instr.eirDispatch 5).wellFormed = true ∧ requesting.eirCb[(5 : Byte).toNat]?.getD 0 ≠ 0 ∧
    Instr.stsDispatch.wellFormed = true ∧
    (after (exec (.stsSetSingle 9 7) start)).stsCb ≠ 0 ∧
    (Instr.stsBusyWait 0).wellFormed = true := by decide +kernel

/-- A state with a source in service, a pending line and a running timer keeps the invariant's parts. -/
theorem witness_StepKeepsInvariant :
    BlockInv { inLineCallback with stsReload := 0xFFFFFF, stsCurrent := 5, icGroupSel := 7 } ∧
    ∃ t, step { inLineCallback with stsReload := 0xFFFFFF, stsCurrent := 5, icGroupSel := 7 }
      = .next t := by
  refine ⟨⟨by decide +kernel, ⟨by decide +kernel, fun i => ?_⟩, fun l hl hm ha => ?_, ?_, ?_, ?_, ?_⟩,
    ⟨_, rfl⟩⟩
  · have h : (bits [23]).getLsbD i = decide (i = 23) := by
      by_cases hi : i < 240
      · have hb : bits [23] = 1#240 <<< 23 := by decide +kernel
        rw [hb, getLsbD_one_shiftLeft _ _ hi]
      · have h23 : i ≠ 23 := by omega
        rw [BitVec.getLsbD_of_ge _ _ (by omega), decide_eq_false h23]
    show i ∈ [23] ↔ (bits [23]).getLsbD i = true
    rw [h, List.mem_singleton, decide_eq_true_iff]
  · by_cases h16 : l < 16
    · have hall : ∀ l, l < 16 →
          inLineCallback.eirPend.getLsbD l = true →
          inLineCallback.icActive.getLsbD (vectorConfig.eirSrc[l]?.getD 0) = true := by decide +kernel
      have hc := hall l h16 hl
      exact absurd (hc.symm.trans ha) (by decide)
    · rw [BitVec.getLsbD_of_ge _ _ (by omega)] at hl; cases hl
  · intro _; decide +kernel
  · exact ⟨by decide +kernel, by decide +kernel⟩
  · show (7 : BitVec 16).toNat < _; decide +kernel
  · exact ⟨by decide +kernel, by decide +kernel⟩

theorem witness_StepKeepsParametersAndOutputs : ∃ t, step (scheduled .take twoEqual) = .next t :=
  ⟨_, rfl⟩

theorem witness_StepWithoutInhibitResetsAllAges :
    ∃ t, step (scheduled (.count false) { start with main := ⟨.spin 5, []⟩ }) = .next t ∧
      t.irqInhibit = false ∧ t.inReset = false := ⟨_, rfl, rfl, rfl⟩

/-- A take and an exit, scheduled and the block's own, a release of `RESET`, a step of another agent. -/
theorem witness_OnlyTrapStepsChangeActive :
    let released := scheduled (.resetLine false) { handlerDone with inReset := true }
    (∃ t, step (scheduled .take twoEqual) = .next t ∧ nest t = [] ++ [10]) ∧
    (∃ t, step twoEqual = .next t ∧ nest t = [] ++ [10]) ∧
    (∃ t, step (scheduled .exit handlerDone) = .next t ∧ nest handlerDone = nest t ++ [23]) ∧
    (∃ t, step handlerDone = .next t ∧ nest handlerDone = nest t ++ [23]) ∧
    (∃ t, step released = .next t ∧ nest released = [23] ∧ nest t = []) ∧
    (∃ t, step (scheduled (.raise 40) twoWaiting) = .next t ∧ nest t = [11]) :=
  ⟨⟨_, rfl, by decide +kernel⟩, ⟨_, rfl, by decide +kernel⟩, ⟨_, rfl, by decide +kernel⟩,
    ⟨_, rfl, by decide +kernel⟩, ⟨_, rfl, by decide +kernel, by decide +kernel⟩,
    ⟨_, rfl, by decide +kernel⟩⟩

/-- A count event, and a command that is none of the owners: every premise of every clause holds. -/
theorem witness_OnlyOwnCommandsWriteVariables :
    let event := scheduled (.count true) timing
    let stop := scheduled (.command 0x3600000000000000) timing
    (∃ t, step event = .next t) ∧ event.inReset = false ∧ fetch event = .event (.count true) ∧
    (∃ t, step stop = .next t) ∧ stop.inReset = false ∧ fetch stop = .instruction .stsStop :=
  ⟨⟨_, rfl⟩, rfl, rfl, ⟨_, rfl⟩, rfl, by decide +kernel⟩

theorem witness_ResetTable : ∃ s t : State, t = resetBlock s ∧ s = timing := ⟨_, _, rfl, rfl⟩

/-- Under `RESET`: nothing scheduled, a count event, pins of two ports, the release; and the inputs driven
while it is released. -/
theorem witness_AssertedResetHoldsTheBlock :
    let s := { timing with inReset := true }
    let driven := fun (e : Event) (u : State) =>
      fetch (scheduled e u) = .event e ∧ ∃ t, step (scheduled e u) = .next t
    (s.inReset = true ∧ fetch s = .nothing ∧ ∃ t, step s = .next t) ∧
    driven (.count true) s ∧ driven (.pin 0 15 true) s ∧ driven (.pin 15 0 true) s ∧
    driven (.resetLine false) s ∧ driven (.inhibit true) s ∧
    driven (.inhibit true) timing ∧ driven (.resetLine true) timing ∧
    driven (.resetLine false) timing ∧ timing.inReset = false :=
  ⟨⟨rfl, rfl, ⟨_, rfl⟩⟩, ⟨rfl, ⟨_, rfl⟩⟩, ⟨rfl, ⟨_, rfl⟩⟩, ⟨rfl, ⟨_, rfl⟩⟩, ⟨rfl, ⟨_, rfl⟩⟩,
    ⟨rfl, ⟨_, rfl⟩⟩, ⟨rfl, ⟨_, rfl⟩⟩, ⟨rfl, ⟨_, rfl⟩⟩, ⟨rfl, ⟨_, rfl⟩⟩, rfl⟩

/-- A register number for every clause, at both ends of a range. -/
theorem witness_RegisterReadValues :
    ([0x0000, 0x0007, 0x0008, 0x000F, 0x0010, 0x001F, 0x0020, 0x0027, 0x0030, 0x0100, 0x01EF, 0x0200,
      0x0201, 0x0202, 0x0203, 0x0208, 0x020B, 0x0300, 0x0301, 0x0302, 0x0303] : List Half).all
        regMapped = true ∧
    timing.cfg.wf = true ∧ SelectorFits timing :=
  ⟨by decide, by decide +kernel, by unfold SelectorFits; decide +kernel⟩

theorem witness_BankWritesActOnWrittenOnes :
    (0 : Nat) < 8 ∧ (7 : Nat) < 8 ∧
    (after (exec (.regWr 0x0007 0xFFFFFFFF) start)).icEnable.getLsbD 239 = true ∧
    (after (exec (.regWr 0x001F 0) { requesting with icPending := 0 })).icPending = bits [23] := by
  decide +kernel

theorem witness_PriorityWriteKeepsUpperNibble :
    (0 : Nat) < 240 ∧ (239 : Nat) < 240 ∧
    prioField (after (exec (.regWr 0x01EF 0xFFFFFFFF) start)) 239 = 0xF0 := by decide +kernel

/-- Register 1 holds the selector of line 5, whose new pin is high. -/
theorem witness_SelectorRegisterWriteRunsDetectors :
    (0 : Nat) < 4 ∧ (3 : Nat) < 4 ∧
    (after (exec (.regWr 0x0209 0xFFFF0010)
      { start with eirRise := 0x20, pins := start.pins.set 1 0xFFFF })).eirPend = 0x20 := by
  decide +kernel

theorem witness_SelectorAndActiveModeComeApart :
    start.cfg.wf = true ∧ modeOfNumber 0 = some .group16Sub0 ∧
    modeOfNumber 4 = some .group0Sub16 ∧
    (0x05FA0700 : Word).toNat / 65536 = start.cfg.unlockKey.toNat ∧
    (0xFA050300 : Word).toNat / 65536 ≠ start.cfg.unlockKey.toNat ∧
    exec (.icSetPrio 9 2 1) start = .next (after (exec (.icSetPrio 9 2 1) start)) :=
  ⟨by decide +kernel, rfl, rfl, rfl, by decide +kernel, rfl⟩

/-- Indices 0 and 239, for the statements about a source. -/
theorem witness_source_index :
    (0 : Byte).toNat ≤ 239 ∧ (239 : Byte).toNat ≤ 239 ∧ ¬ (240 : Byte).toNat ≤ 239 := by decide

/-- Lines 0 and 15, for the statements about a line; codes 0 and 2, for those about an edge. -/
theorem witness_line_and_edge :
    (0 : Byte).toNat ≤ 15 ∧ (15 : Byte).toNat ≤ 15 ∧ ¬ (16 : Byte).toNat ≤ 15 ∧
    (0 : BitVec 2).toNat ≤ 2 ∧ (2 : BitVec 2).toNat ≤ 2 ∧ ¬ (3 : BitVec 2).toNat ≤ 2 := by decide

/-- References that fit a slot of 16 and of 4 bits, and one that does not fit the latter. -/
theorem witness_callback_width :
    (0xFFFF : CbRef).toNat < 2 ^ start.cfg.cbrefBits ∧
    (0xF : CbRef).toNat < 2 ^ (narrow start).cfg.cbrefBits ∧
    ¬ (0x10 : CbRef).toNat < 2 ^ (narrow start).cfg.cbrefBits := by decide +kernel

/-- Modes 0 and 4, for the statements about a mode number. -/
theorem witness_mode_number :
    (0 : BitVec 3).toNat ≤ 4 ∧ (4 : BitVec 3).toNat ≤ 4 ∧ ¬ (5 : BitVec 3).toNat ≤ 4 := by decide

theorem witness_EncoderOrdersByGroupThenSubgroup :
    let m := GroupingMode.group8Sub2
    (7 : Byte).toNat < 2 ^ groupWidth m ∧ (0 : Byte).toNat < 2 ^ groupWidth m ∧
    (1 : Byte).toNat < 2 ^ subWidth m ∧ (0 : Byte).toNat < 2 ^ subWidth m := by decide

theorem witness_SetEdgeAndSetTriggerCommute :
    exec (.eirSetEdge 5 2) start = .next (after (exec (.eirSetEdge 5 2) start)) ∧
    exec (.eirSetTrigger 5 .enabled 0) start
      = .next (after (exec (.eirSetTrigger 5 .enabled 0) start)) ∧
    (2 : BitVec 2).toNat ≤ 2 ∧ (5 : Byte).toNat ≤ 15 := ⟨rfl, rfl, by decide, by decide⟩

theorem witness_LineDispatchInvokesOrClears :
    (15 : Byte).toNat ≤ 15 ∧ start.eirCb[(15 : Byte).toNat]?.getD 0 = 0 ∧
    requesting.eirCb[(5 : Byte).toNat]?.getD 0 = 0x42 ∧ (0x42 : CbRef) ≠ 0 := by decide +kernel

theorem witness_LineCallbackReturnClearsFlag :
    Next .ret [] (scheduled .ret inLineCallback) ∧
    ctx (scheduled .ret inLineCallback) = ⟨.idle, .lineCall 5 false :: [.group [6, 7, 8, 9]]⟩ ∧
    Next .ret [] (scheduled .ret { requesting with main := ⟨.idle, [.lineCall 5 true]⟩ }) ∧
    ctx (scheduled .ret { requesting with main := ⟨.idle, [.lineCall 5 true]⟩ })
      = ⟨.idle, [.lineCall 5 true]⟩ ∧
    Next .ret [] (scheduled .ret twoWaiting) ∧
    ctx (scheduled .ret twoWaiting) = ⟨.idle, .foreign :: []⟩ :=
  ⟨⟨rfl, rfl⟩, rfl, ⟨rfl, rfl⟩, rfl, ⟨rfl, rfl⟩, rfl⟩

/-- Port 0 is the selected one, port 7 exists and is not, port 15 does not exist, nor does the port that a
line with selector 5 selects. -/
theorem witness_PinStepRunsEdgeDetector :
    Next (.pin 0 15 true) [] (scheduled (.pin 0 15 true) start) ∧
    portSel (scheduled (.pin 0 15 true) start) 15 = BitVec.ofNat 4 0 ∧
    portExists (scheduled (.pin 0 15 true) start).cfg 0 = true ∧
    Next (.pin 15 0 true) [] (scheduled (.pin 15 0 true) start) ∧
    portSel (scheduled (.pin 15 0 true) start) 0 ≠ BitVec.ofNat 4 15 ∧
    portExists vectorConfig 15 = false ∧ portExists vectorConfig 7 = true ∧
    Next (.pin 7 0 true) [] (scheduled (.pin 7 0 true) start) ∧
    portExists vectorConfig (portSel { start with eirCfg := #v[5, 0, 0, 0] } 0).toNat = false :=
  ⟨⟨rfl, rfl⟩, by decide +kernel, by decide +kernel, ⟨rfl, rfl⟩, by decide +kernel, by decide +kernel,
    by decide +kernel, ⟨rfl, rfl⟩, by decide +kernel⟩

theorem witness_BusyWaitPollEndsExactlyOnFlag :
    Next .advance [] (scheduled .advance { timing with main := ⟨.spin 0, []⟩ }) ∧
    ctx (scheduled .advance { timing with main := ⟨.spin 0, []⟩ }) = ⟨.spin 0, []⟩ ∧
    (scheduled .advance { timing with main := ⟨.spin 0, []⟩ }).stsCountFlag = true ∧
    Next .advance [] (scheduled .advance { start with main := ⟨.spin 7, []⟩ }) ∧
    ctx (scheduled .advance { start with main := ⟨.spin 7, []⟩ }) = ⟨.spin 7, []⟩ ∧
    (scheduled .advance { start with main := ⟨.spin 7, []⟩ }).stsCountFlag = false :=
  ⟨⟨rfl, rfl⟩, rfl, rfl, ⟨rfl, rfl⟩, rfl, rfl⟩

/-- An infinite window, a busy-wait older than the window, and one exactly as old. -/
theorem witness_FlagIsLostOnlyPastTheWindow :
    Next .loseFlag [] (scheduled .loseFlag timing) ∧ timing.cfg.latchWindow = none ∧
    Next .loseFlag [] (scheduled .loseFlag
      { timing with cfg := { vectorConfig with latchWindow := some 0 }, main := ⟨.spin 1, []⟩ }) ∧
    Next .loseFlag [] (scheduled .loseFlag
      { timing with cfg := { vectorConfig with latchWindow := some 1 }, main := ⟨.spin 1, []⟩ }) :=
  ⟨⟨rfl, rfl⟩, rfl, ⟨rfl, rfl⟩, ⟨rfl, rfl⟩⟩

theorem witness_TimerDispatchInvokesOrDoesNothing :
    start.stsCb = 0 ∧ ({ start with stsCb := 7 } : State).stsCb ≠ 0 := by decide +kernel

theorem witness_TimerCallbackReturnStopsSingleJob :
    Next .ret [] (scheduled .ret { timing with main := ⟨.idle, [.stsCall true]⟩ }) ∧
    ctx (scheduled .ret { timing with main := ⟨.idle, [.stsCall true]⟩ })
      = ⟨.idle, .stsCall true :: []⟩ ∧ timing.stsMode = .single ∧
    Next .ret [] (scheduled .ret periodicCallback) ∧
    ctx (scheduled .ret periodicCallback) = ⟨.idle, .stsCall false :: []⟩ ∧
    periodicCallback.stsMode = .periodic := ⟨⟨rfl, rfl⟩, rfl, rfl, ⟨rfl, rfl⟩, rfl, rfl⟩

/-- Counting at 0 and at 1; not counting: the wrong input, and a stopped counter. -/
theorem witness_CountEventRule :
    Next (.count true) [] (scheduled (.count true) timing) ∧
    timing.stsEnable = true ∧ timing.stsClkSource = true ∧ timing.stsCurrent = 0 ∧
    ({ timing with stsCurrent := 1 } : State).stsCurrent ≠ 0 ∧
    Next (.count false) [] (scheduled (.count false) timing) ∧ timing.stsClkSource ≠ false ∧
    Next (.count false) [] (scheduled (.count false) start) ∧ start.stsEnable = false :=
  ⟨⟨rfl, rfl⟩, rfl, rfl, rfl, by decide +kernel, ⟨rfl, rfl⟩, by decide +kernel, ⟨rfl, rfl⟩, rfl⟩

theorem witness_CrossingAfterReloadPlusOneEvents :
    ({ timing with stsCountFlag := false, stsReload := 1 } : State).stsCurrent = 0 ∧
    ({ timing with stsCountFlag := false, stsReload := 1 } : State).stsEnable = true ∧
    ({ timing with stsCountFlag := false, stsReload := 1 } : State).stsCountFlag = false ∧
    ({ timing with stsCountFlag := false, stsReload := 1 } : State).stsReload ≠ 0 ∧
    timing.stsCurrent = 0 ∧ timing.stsReload = 0 := by decide +kernel

theorem witness_CurrentStaysBelowReload :
    timing.stsCurrent ≤ timing.stsReload ∧ (∃ t, step (scheduled (.count true) timing) = .next t) ∧
    (∀ n data, fetch (scheduled (.count true) timing) ≠ .instruction (.regWr n data)) :=
  ⟨by decide +kernel, ⟨_, rfl⟩, nofun⟩

theorem witness_ExternalRequestPends :
    Next (.raise 239) [] (scheduled (.raise 239) start) ∧
    linesOf (scheduled (.raise 239) start).cfg 239 = [] ∧
    239 ≠ (scheduled (.raise 239) start).cfg.stsSrc :=
  ⟨⟨rfl, rfl⟩, by decide +kernel, by decide +kernel⟩

/-- Both settings of `PREEMPT_FIELD`: a take that occurs in main, and one that waits for an equal `pre`. -/
theorem witness_TakeNeedsStrictlyMoreUrgentSource :
    let byGroup := fun s : State => { s with
      icGroupSel := 7, cfg := { vectorConfig with preemptField := .group } }
    Next .take [] (scheduled .take twoEqual) ∧ twoEqual.cfg.preemptField = .full ∧
    twoEqual.irqInhibit = false ∧ best (scheduled .take twoEqual) = some 10 ∧
    (prioField twoEqual 10).toNat < 256 ∧ nest twoEqual = [] ∧
    Next .take [] (scheduled .take twoWaiting) ∧ best (scheduled .take twoWaiting) = some 10 ∧
    nest twoWaiting = [11] ∧ prioField twoWaiting 11 ≤ prioField twoWaiting 10 ∧
    Next .take [] (scheduled .take (byGroup twoEqual)) ∧
    (byGroup twoEqual).cfg.preemptField = .group ∧ (byGroup twoEqual).icGroupSel.toNat ≤ 7 ∧
    best (scheduled .take (byGroup twoEqual)) = some 10 ∧
    (prioField (byGroup twoEqual) 10).toNat / 2 ^ (4 + 4) < 16 := by
  refine ⟨⟨rfl, rfl⟩, rfl, rfl, ?_, ?_, rfl, ⟨rfl, rfl⟩, ?_, rfl, ?_, ⟨rfl, rfl⟩, rfl, ?_, ?_, ?_⟩ <;>
    decide +kernel

/-- Sources of the four kinds of handler body, the last source among them. -/
theorem witness_TakingATrap :
    linesOf vectorConfig 50 = [] ∧ (50 : Nat) = vectorConfig.stsSrc ∧ linesOf vectorConfig 239 = [] ∧
    (239 : Nat) < 240 ∧ linesOf vectorConfig 6 = [0] ∧
    linesOf vectorConfig 23 = [5, 6, 7, 8, 9] := by decide +kernel

theorem witness_ReturningFromATrap :
    Next .exit [] (scheduled .exit handlerDone) ∧
    (scheduled .exit handlerDone).handlers = ⟨23, Ctx.start⟩ :: [] := ⟨⟨rfl, rfl⟩, rfl⟩

/-- Line 0 with an empty slot, line 5 with a callback, and the timer with each. -/
theorem witness_SingleEntryBodiesRunTheirRoutine :
    let line := fun l => scheduled .advance { requesting with
      handlers := [⟨6, ⟨.idle, [.lineStart l]⟩⟩] }
    let timer := scheduled .advance { timing with handlers := [⟨50, ⟨.idle, [.stsStart]⟩⟩] }
    Next .advance [] (line 0) ∧ ctx (line 0) = ⟨.idle, .lineStart 0 :: []⟩ ∧
    (line 0).eirCb[0]?.getD 0 = 0 ∧
    Next .advance [] (line 5) ∧ ctx (line 5) = ⟨.idle, .lineStart 5 :: []⟩ ∧
    (line 5).eirCb[5]?.getD 0 ≠ 0 ∧
    Next .advance [] timer ∧ ctx timer = ⟨.idle, .stsStart :: []⟩ ∧ timer.stsCb = 0 ∧
    ({ timer with stsCb := 7 } : State).stsCb ≠ 0 :=
  ⟨⟨rfl, rfl⟩, rfl, by decide +kernel, ⟨rfl, rfl⟩, rfl, by decide +kernel, ⟨rfl, rfl⟩, rfl, rfl,
    by decide +kernel⟩

/-- A line that requests with a callback, one that requests without, one that does not request. -/
theorem witness_GroupEntryServesRequestingLines :
    let s := scheduled .advance { requesting with
      eirPend := 0x60, eirMask := 0x60, handlers := [⟨23, ⟨.idle, [.group [5, 6, 7]]⟩⟩] }
    Next .advance [] s ∧ ctx s = ⟨.idle, .group (5 :: [6, 7]) :: []⟩ ∧
    (s.eirPend.getLsbD 5 && s.eirMask.getLsbD 5) = true ∧ s.eirCb[5]?.getD 0 ≠ 0 ∧
    (s.eirPend.getLsbD 6 && s.eirMask.getLsbD 6) = true ∧ s.eirCb[6]?.getD 0 = 0 ∧
    (s.eirPend.getLsbD 7 && s.eirMask.getLsbD 7) = false ∧
    Next .advance [] (scheduled .advance groupEnd) ∧
    ctx (scheduled .advance groupEnd) = ⟨.idle, .group [] :: []⟩ :=
  ⟨⟨rfl, rfl⟩, rfl, by decide +kernel, by decide +kernel, by decide +kernel, by decide +kernel,
    by decide +kernel, ⟨rfl, rfl⟩, rfl⟩

theorem witness_EnabledTakeOccursWhenNothingIsScheduled :
    twoEqual.schedule = [] ∧ twoEqual.inReset = false ∧ takeable twoEqual = some 10 := by
  decide +kernel

end Sys2Proof.Tests
end

section
/-! SUPPORT. What `fetch` reads and what `step` then runs, one lemma for each kind of step (R9, R79). -/

namespace Sys2Proof.Machine

/-- A routine lets commands be issued outside any routine of main, in a running callback, and in an
environment handler body (R9, R214, R215). -/
theorem framesIssue_iff (inMain : Bool) (fs : List Frame) :
    framesIssue inMain fs = true ↔
      (inMain = true ∧ fs = []) ∨ (∃ l port rest, fs = .lineCall l port :: rest) ∨
        (∃ port rest, fs = .stsCall port :: rest) ∨ ∃ rest, fs = .foreign :: rest := by
  cases fs with
  | nil => simp [framesIssue]
  | cons f fs => cases f <;> simp [framesIssue]

/-- When the running context can issue a command (R9, R166, R230). -/
theorem canIssue_iff (s : State) :
    canIssue s = true ↔ s.inReset = false ∧ (ctx s).bw = .idle ∧
      framesIssue s.handlers.isEmpty (ctx s).frames = true := by
  simp [canIssue, and_assoc]

theorem fetch_of_schedule_nil {s : State} (h : s.schedule = []) : fetch s = .nothing := by
  rw [fetch, h]

theorem fetch_of_event {s : State} {e : Event} {rest : List Event} (h : s.schedule = e :: rest)
    (he : ∀ cw, e ≠ .command cw) : fetch s = .event e := by
  rw [fetch, h]
  cases e with
  | command cw => exact absurd rfl (he cw)
  | _ => rfl

theorem fetch_of_command {s : State} {cw : CmdWord} {i : Instr} {rest : List Event}
    (h : s.schedule = .command cw :: rest) (hc : canIssue s = true) (hd : decode cw = .ok i) :
    fetch s = .instruction i := by
  simp only [fetch, h, hc, hd, if_true]

/-- A command that the running context cannot issue is a step that nothing decodes (log 6). -/
theorem fetch_of_command_not_issued {s : State} {cw : CmdWord} {rest : List Event}
    (h : s.schedule = .command cw :: rest) (hc : canIssue s = false) :
    fetch s = .event (.command cw) := by
  simp only [fetch, h, hc, Bool.false_eq_true, if_false]

theorem dropScheduled_eq {s : State} {e : Event} {rest : List Event} (h : s.schedule = e :: rest) :
    dropScheduled s = { s with schedule := rest } := by
  rw [dropScheduled, h, List.tail_cons]

theorem environmentStep_command (cw : CmdWord) (s : State) :
    environmentStep (.command cw) s = s := by
  unfold environmentStep; split <;> rfl

theorem step_of_instruction {s t : State} {i : Instr} (hf : fetch s = .instruction i)
    (he : exec i (dropScheduled s) = .next t) : step s = .next (settle t) := by
  simp only [step, hf, he, settleResult]

theorem step_of_event {s : State} {e : Event} (hf : fetch s = .event e) :
    step s = .next (settle (environmentStep e (dropScheduled s))) := by
  simp only [step, hf, settleResult]

/-- What a step can do: it runs what `fetch` reads, and then settles the ages. -/
theorem step_cases {s t : State} (h : step s = .next t) :
    ∃ u, t = settle u ∧
      ((∃ i, fetch s = .instruction i ∧ exec i (dropScheduled s) = .next u) ∨
        (fetch s = .illegal ∧ u = raise .illegalCommand (dropScheduled s)) ∨
        (∃ e, fetch s = .event e ∧ u = environmentStep e (dropScheduled s)) ∨
        (fetch s = .nothing ∧ u = ownStep s)) := by
  unfold step at h
  cases hf : fetch s with
  | instruction i =>
    obtain ⟨u, hu⟩ := exec_next i (dropScheduled s)
    simp only [hf, hu, settleResult] at h; cases h
    exact ⟨u, rfl, .inl ⟨i, rfl, hu⟩⟩
  | illegal => rw [hf] at h; cases h; exact ⟨_, rfl, .inr (.inl ⟨rfl, rfl⟩)⟩
  | event e => rw [hf] at h; cases h; exact ⟨_, rfl, .inr (.inr (.inl ⟨e, rfl, rfl⟩))⟩
  | nothing => rw [hf] at h; cases h; exact ⟨_, rfl, .inr (.inr (.inr ⟨rfl, rfl⟩))⟩

/-- With nothing scheduled the block holds still, or one of its own agents steps (log 7). -/
theorem ownStep_cases (s : State) :
    ownStep s = s ∨ ownStep s = takeStep s ∨ ownStep s = advance s ∨
      ownStep s = returnStep s ∨ ownStep s = exitStep s := by
  unfold ownStep
  split
  · exact .inl rfl
  · split
    · exact .inr (.inl rfl)
    · split
      · exact .inr (.inr (.inl rfl))
      · split
        · exact .inr (.inr (.inr (.inl rfl)))
        · exact .inr (.inr (.inr (.inr rfl)))

end Sys2Proof.Machine
end

section
/-! SUPPORT. Every operation of the block keeps the parameters and adds at most one output (R6, R10). -/

namespace Sys2Proof.Machine

/-- The parameters and the outputs of `t` are those of `s`. -/
structure Silent (s t : State) : Prop where
  cfg : t.cfg = s.cfg
  outputs : t.outputs = s.outputs

/-- The parameters of `t` are those of `s`, and its outputs those of `s` with at most one more. -/
structure EmitsAtMostOne (s t : State) : Prop where
  cfg : t.cfg = s.cfg
  outputs : t.outputs = s.outputs ∨ ∃ o, t.outputs = o :: s.outputs

theorem EmitsAtMostOne.of_emit {s t : State} (o : Output) (hc : t.cfg = s.cfg)
    (ho : t.outputs = o :: s.outputs) : EmitsAtMostOne s t :=
  ⟨hc, .inr ⟨o, ho⟩⟩

theorem EmitsAtMostOne.refl (s : State) : EmitsAtMostOne s s := ⟨rfl, .inl rfl⟩

theorem Silent.emitsAtMostOne {s t : State} (h : Silent s t) : EmitsAtMostOne s t :=
  ⟨h.cfg, .inl h.outputs⟩

theorem Silent.trans_emits {s u t : State} (h : Silent s u) (k : EmitsAtMostOne u t) :
    EmitsAtMostOne s t :=
  ⟨k.cfg.trans h.cfg, h.outputs ▸ k.outputs⟩

theorem EmitsAtMostOne.trans_silent {s u t : State} (h : EmitsAtMostOne s u) (k : Silent u t) :
    EmitsAtMostOne s t :=
  ⟨k.cfg.trans h.cfg, k.outputs ▸ h.outputs⟩

theorem emitsAtMostOne_respond (v : Word) (s : State) : EmitsAtMostOne s (respond v s) :=
  .of_emit _ rfl rfl

theorem emitsAtMostOne_raise (e : Status) (s : State) : EmitsAtMostOne s (raise e s) :=
  .of_emit _ rfl rfl

/-- A command that writes silently and then responds. -/
theorem Silent.respond {s u : State} (h : Silent s u) (v : Word) : EmitsAtMostOne s (respond v u) :=
  h.trans_emits (emitsAtMostOne_respond v u)

/-! ### Operations that emit nothing -/

theorem silent_dropScheduled (s : State) : Silent s (dropScheduled s) := ⟨rfl, rfl⟩

theorem silent_settle (s : State) : Silent s (settle s) := ⟨settle_cfg s, settle_outputs s⟩

theorem silent_setFrames (fs : List Frame) (s : State) : Silent s (setFrames fs s) :=
  ⟨setFrames_cfg fs s, setFrames_outputs fs s⟩

@[simp] theorem detectLines_cfg (ls : List Nat) (s : State) : (detectLines ls s).cfg = s.cfg := by
  rw [detectLines_eq]

@[simp] theorem detectLines_outputs (ls : List Nat) (s : State) :
    (detectLines ls s).outputs = s.outputs := by
  rw [detectLines_eq]

theorem silent_afterRead (r : Reg) (s : State) : Silent s (afterRead r s) := by
  cases r <;> exact ⟨rfl, rfl⟩

theorem silent_writePricfg (v : Word) (s : State) : Silent s (writePricfg v s) := by
  unfold writePricfg; split <;> exact ⟨rfl, rfl⟩

theorem silent_memWrite (r : Reg) (v : Word) (s : State) : Silent s (memWrite r v s) := by
  cases r with
  | pricfg => exact silent_writePricfg v s
  | eirCfg r => exact ⟨by simp [memWrite], by simp [memWrite]⟩
  | _ => exact ⟨rfl, rfl⟩

theorem silent_setTimerEnable (b : Bool) (s : State) : Silent s (setTimerEnable b s) :=
  ⟨setTimerEnable_cfg b s, setTimerEnable_outputs b s⟩

theorem silent_startJob (m : JobMode) (ticks : Word) (callback : CbRef) (s : State) :
    Silent s (startJob m ticks callback s) := by
  constructor <;> simp [startJob]

theorem silent_busyWaitStart (ticks : Word) (s : State) : Silent s (busyWaitStart ticks s) := by
  constructor <;> simp [busyWaitStart]

theorem silent_countDown (s : State) : Silent s (countDown s) := by
  obtain ⟨-, h⟩ | ⟨-, h⟩ | ⟨-, -, h⟩ := countDown_cases s <;> rw [h] <;> exact ⟨rfl, rfl⟩

theorem silent_countEvent (input : Bool) (s : State) : Silent s (countEvent input s) := by
  unfold countEvent
  split
  · split
    · exact ⟨(silent_countDown _).cfg, (silent_countDown _).outputs⟩
    · exact silent_countDown s
  · exact ⟨rfl, rfl⟩

theorem silent_setPin (p l : Nat) (level : Bool) (s : State) : Silent s (setPin p l level s) :=
  ⟨setPin_cfg p l level s, setPin_outputs p l level s⟩

theorem silent_pinStep (p l : Nat) (level : Bool) (s : State) : Silent s (pinStep p l level s) := by
  constructor <;> simp [pinStep]

theorem silent_raiseRequest (i : Nat) (s : State) : Silent s (raiseRequest i s) := by
  unfold raiseRequest; split <;> exact ⟨rfl, rfl⟩

theorem silent_loseFlagStep (s : State) : Silent s (loseFlagStep s) := by
  unfold loseFlagStep; split <;> exact ⟨rfl, rfl⟩

theorem silent_driveReset (level : Bool) (s : State) : Silent s (driveReset level s) := by
  unfold driveReset
  split
  · exact ⟨rfl, rfl⟩
  · split <;> exact ⟨rfl, rfl⟩

/-! ### Dispatch routines, traps and busy-waits -/

theorem emitsAtMostOne_invoke (h : CbRef) (f : Frame) (s : State) :
    EmitsAtMostOne s (invoke h f s) := by
  rw [(invoke_eq h f s).1]; exact .of_emit _ rfl rfl

/-- The response owed by a dispatch is one output, and on the trap path there is none (R195, R213). -/
theorem EmitsAtMostOne.of_response_owed {s t : State} (port : Bool) (hc : t.cfg = s.cfg)
    (ho : t.outputs = if port then responded .ok 0 s else s.outputs) : EmitsAtMostOne s t := by
  cases port with
  | false => exact ⟨hc, .inl ho⟩
  | true => exact .of_emit _ hc ho

theorem emitsAtMostOne_finishLine (l : Nat) (port : Bool) (s : State) :
    EmitsAtMostOne s (finishLine l port s) := by
  rw [finishLine_eq]; exact .of_response_owed port rfl rfl

theorem emitsAtMostOne_finishTimer (port : Bool) (s : State) :
    EmitsAtMostOne s (finishTimer port s) := by
  rw [finishTimer_eq]; exact .of_response_owed port rfl rfl

theorem emitsAtMostOne_dispatchLine (l : Nat) (port : Bool) (s : State) :
    EmitsAtMostOne s (dispatchLine l port s) := by
  obtain ⟨-, h⟩ | ⟨-, h⟩ := dispatchLine_cases l port s <;> rw [h]
  · exact emitsAtMostOne_invoke _ _ s
  · exact emitsAtMostOne_finishLine l port s

theorem emitsAtMostOne_dispatchTimer (port : Bool) (s : State) :
    EmitsAtMostOne s (dispatchTimer port s) := by
  obtain ⟨-, h⟩ | ⟨-, h⟩ := dispatchTimer_cases port s <;> rw [h]
  · exact emitsAtMostOne_invoke _ _ s
  · exact .of_response_owed port rfl rfl

theorem emitsAtMostOne_busyWaitFinish (s : State) : EmitsAtMostOne s (busyWaitFinish s) :=
  Silent.respond ⟨by simp, by simp⟩ 0

theorem emitsAtMostOne_busyWaitPoll (s : State) : EmitsAtMostOne s (busyWaitPoll s) := by
  have hr : Silent s (memRead .stsCtrl s).2 := silent_afterRead .stsCtrl s
  unfold busyWaitPoll
  split
  · exact hr.trans_emits (emitsAtMostOne_busyWaitFinish _)
  · exact hr.emitsAtMostOne

theorem emitsAtMostOne_takeStep (s : State) : EmitsAtMostOne s (takeStep s) := by
  unfold takeStep
  split
  · exact .of_emit _ rfl rfl
  · exact .refl s

theorem emitsAtMostOne_exitStep (s : State) : EmitsAtMostOne s (exitStep s) := by
  unfold exitStep
  split
  · exact .of_emit _ rfl rfl
  · exact .refl s

theorem emitsAtMostOne_advanceFrames (s : State) (fs : List Frame) :
    EmitsAtMostOne s (advanceFrames s fs) := by
  cases fs with
  | nil => exact .refl s
  | cons f fs =>
    cases f with
    | lineStart l =>
      exact (silent_setFrames fs s).trans_emits (emitsAtMostOne_dispatchLine l false _)
    | group lines =>
      cases lines with
      | nil => exact (silent_setFrames fs s).emitsAtMostOne
      | cons l ls =>
        rw [advanceFrames]
        split
        · exact (silent_setFrames _ s).trans_emits (emitsAtMostOne_dispatchLine l false _)
        · exact (silent_setFrames _ s).emitsAtMostOne
    | stsStart => exact (silent_setFrames fs s).trans_emits (emitsAtMostOne_dispatchTimer false _)
    | lineCall | stsCall | foreign => exact .refl s

theorem emitsAtMostOne_advance (s : State) : EmitsAtMostOne s (advance s) := by
  unfold advance
  split
  · exact emitsAtMostOne_busyWaitPoll s
  · exact emitsAtMostOne_advanceFrames s _

theorem emitsAtMostOne_returnFrames (s : State) (fs : List Frame) :
    EmitsAtMostOne s (returnFrames s fs) := by
  cases fs with
  | nil => exact .refl s
  | cons f fs =>
    cases f with
    | lineCall l port =>
      exact (silent_setFrames fs s).trans_emits (emitsAtMostOne_finishLine l port _)
    | stsCall port => exact (silent_setFrames fs s).trans_emits (emitsAtMostOne_finishTimer port _)
    | foreign => exact (silent_setFrames fs s).emitsAtMostOne
    | lineStart | group | stsStart => exact .refl s

theorem emitsAtMostOne_returnStep (s : State) : EmitsAtMostOne s (returnStep s) := by
  unfold returnStep
  split
  · exact .refl s
  · exact emitsAtMostOne_returnFrames s _

/-! ### Commands -/

/-- A command with a source index emits at most one output when its run on a source does. -/
theorem emitsAtMostOne_onSource {index : Byte} {s t : State} {run : Nat → State}
    (h : onSource index s run = .next t) (hrun : ∀ i, EmitsAtMostOne s (run i)) :
    EmitsAtMostOne s t := by
  obtain ⟨-, he⟩ | ⟨-, he⟩ := onSource_eq index s run <;> rw [he] at h <;> cases h
  · exact hrun _
  · exact emitsAtMostOne_raise _ s

theorem emitsAtMostOne_onLine {line : Byte} {s t : State} {run : Nat → State}
    (h : onLine line s run = .next t) (hrun : ∀ l, EmitsAtMostOne s (run l)) :
    EmitsAtMostOne s t := by
  obtain ⟨-, he⟩ | ⟨-, he⟩ := onLine_eq line s run <;> rw [he] at h <;> cases h
  · exact hrun _
  · exact emitsAtMostOne_raise _ s

theorem emitsAtMostOne_onEdgeLine {line : Byte} {edge : BitVec 2} {s t : State}
    {run : Edge → Nat → State} (h : onEdgeLine line edge s run = .next t)
    (hrun : ∀ e l, EmitsAtMostOne s (run e l)) : EmitsAtMostOne s t := by
  unfold onEdgeLine at h
  split at h
  · exact emitsAtMostOne_onLine h (hrun _)
  · cases h; exact emitsAtMostOne_raise _ s

theorem emitsAtMostOne_onMode {mode : BitVec 3} {s t : State} {run : GroupingMode → State}
    (h : onMode mode s run = .next t) (hrun : ∀ m, EmitsAtMostOne s (run m)) :
    EmitsAtMostOne s t := by
  unfold onMode at h
  cases h
  split
  · exact hrun _
  · exact emitsAtMostOne_raise _ s

theorem emitsAtMostOne_onReg {n : Half} {s t : State} {run : Reg → State}
    (h : onReg n s run = .next t) (hrun : ∀ r, EmitsAtMostOne s (run r)) :
    EmitsAtMostOne s t := by
  unfold onReg at h
  cases h
  split
  · exact hrun _
  · exact emitsAtMostOne_raise _ s

theorem emitsAtMostOne_exec {i : Instr} {s t : State} (h : exec i s = .next t) :
    EmitsAtMostOne s t := by
  unfold exec at h
  cases i with
  | regRd n => exact emitsAtMostOne_onReg h fun r => (silent_afterRead r s).respond _
  | regWr n data => exact emitsAtMostOne_onReg h fun r => (silent_memWrite r data s).respond 0
  | icEnable => exact emitsAtMostOne_onSource h fun _ => .of_emit _ rfl rfl
  | icDisable => exact emitsAtMostOne_onSource h fun _ => .of_emit _ rfl rfl
  | icSetPend => exact emitsAtMostOne_onSource h fun _ => .of_emit _ rfl rfl
  | icClrPend => exact emitsAtMostOne_onSource h fun _ => .of_emit _ rfl rfl
  | icIsActive => exact emitsAtMostOne_onSource h fun _ => emitsAtMostOne_respond _ s
  | icSetGrouping =>
    refine emitsAtMostOne_onMode h fun m => Silent.respond ?_ 0
    exact ⟨(silent_memWrite .pricfg _ s).cfg, (silent_memWrite .pricfg _ s).outputs⟩
  | icSetPrio => exact emitsAtMostOne_onSource h fun i => (silent_memWrite (.pri i) _ s).respond 0
  | icEncPrio => exact emitsAtMostOne_onMode h fun _ => emitsAtMostOne_respond _ s
  | eirSetPort => exact emitsAtMostOne_onLine h fun _ => .of_emit _ rfl rfl
  | eirSetTrigger => exact emitsAtMostOne_onLine h fun _ => .of_emit _ rfl rfl
  | eirSetEdge => exact emitsAtMostOne_onEdgeLine h fun _ _ => .of_emit _ rfl rfl
  | eirRegCb => exact emitsAtMostOne_onLine h fun _ => .of_emit _ rfl rfl
  | eirDispatch => exact emitsAtMostOne_onLine h fun l => emitsAtMostOne_dispatchLine l true s
  | stsInit => cases h; exact Silent.respond ⟨by simp, by simp⟩ 0
  | stsBusyWait ticks => cases h; exact (silent_busyWaitStart ticks s).emitsAtMostOne
  | stsElapsed => cases h; exact emitsAtMostOne_respond _ s
  | stsRemaining => cases h; exact emitsAtMostOne_respond _ s
  | stsSetSingle => cases h; exact (silent_startJob _ _ _ s).respond 0
  | stsSetPeriodic => cases h; exact (silent_startJob _ _ _ s).respond 0
  | stsStop => cases h; exact (silent_setTimerEnable false s).respond 0
  | stsDispatch => cases h; exact emitsAtMostOne_dispatchTimer true s

/-! ### Steps -/

theorem silent_stepInReset (e : Event) (s : State) : Silent s (stepInReset e s) := by
  cases e with
  | pin p l level => exact silent_setPin _ _ _ s
  | resetLine level => exact silent_driveReset level s
  | _ => exact ⟨rfl, rfl⟩

theorem emitsAtMostOne_agentStep (e : Event) (s : State) : EmitsAtMostOne s (agentStep e s) := by
  cases e with
  | command cw => exact .refl s
  | advance => exact emitsAtMostOne_advance s
  | ret => exact emitsAtMostOne_returnStep s
  | take => exact emitsAtMostOne_takeStep s
  | exit => exact emitsAtMostOne_exitStep s
  | pin p l level => exact (silent_pinStep _ _ _ s).emitsAtMostOne
  | count input => exact (silent_countEvent input s).emitsAtMostOne
  | raise i => exact (silent_raiseRequest _ s).emitsAtMostOne
  | inhibit level => exact Silent.emitsAtMostOne ⟨rfl, rfl⟩
  | resetLine level => exact (silent_driveReset level s).emitsAtMostOne
  | loseFlag => exact (silent_loseFlagStep s).emitsAtMostOne

theorem emitsAtMostOne_environmentStep (e : Event) (s : State) :
    EmitsAtMostOne s (environmentStep e s) := by
  unfold environmentStep
  split
  · exact (silent_stepInReset e s).emitsAtMostOne
  · exact emitsAtMostOne_agentStep e s

theorem emitsAtMostOne_ownStep (s : State) : EmitsAtMostOne s (ownStep s) := by
  obtain h | h | h | h | h := ownStep_cases s <;> rw [h]
  · exact .refl s
  · exact emitsAtMostOne_takeStep s
  · exact emitsAtMostOne_advance s
  · exact emitsAtMostOne_returnStep s
  · exact emitsAtMostOne_exitStep s

theorem emitsAtMostOne_step {s t : State} (h : step s = .next t) : EmitsAtMostOne s t := by
  have hdrop := silent_dropScheduled s
  obtain ⟨u, rfl, hu⟩ := step_cases h
  suffices hs : EmitsAtMostOne s u from hs.trans_silent (silent_settle u)
  obtain ⟨i, -, he⟩ | ⟨-, rfl⟩ | ⟨e, -, rfl⟩ | ⟨-, rfl⟩ := hu
  · exact hdrop.trans_emits (emitsAtMostOne_exec he)
  · exact hdrop.trans_emits (emitsAtMostOne_raise _ _)
  · exact hdrop.trans_emits (emitsAtMostOne_environmentStep e _)
  · exact emitsAtMostOne_ownStep s

end Sys2Proof.Machine
end

section
/-! The statements of the scope: what a step runs, what it never changes, external requests. -/

namespace Sys2Proof.Machine

/-- Settles O13: no operation of a step writes a parameter, and each emits at most once. -/
theorem stepKeepsParametersAndOutputs : Obligations.StepKeepsParametersAndOutputs := by
  intro s t h
  obtain ⟨hcfg, hout | ⟨o, hout⟩⟩ := emitsAtMostOne_step h
  · exact ⟨hcfg, [], hout, Nat.zero_le 1⟩
  · exact ⟨hcfg, [o], hout, Nat.le_refl 1⟩

/-- A request on an input that the source has makes its source pending and writes nothing else (R202). -/
theorem raiseRequest_of_external {i : Nat} {s : State} (hl : linesOf s.cfg i = [])
    (hs : i ≠ s.cfg.stsSrc) :
    raiseRequest i s = { s with icPending := setBit s.icPending i true } :=
  if_pos ⟨hl, hs⟩

/-- Settles O53: with `RESET` released the scheduled request is the agent's step, which sets one bit. -/
theorem externalRequestPends : Obligations.ExternalRequestPends := by
  intro s i rest hn hl hs
  have hstep := step_event hn nofun
  rw [agentStep, raiseRequest_of_external (s := { s with schedule := rest }) hl hs] at hstep
  refine ⟨_, hstep, by rw [settle_icPending], fun j hj => ?_⟩
  rw [settle_icPending, getLsbD_setBit]
  by_cases hji : j = i.val <;> simp [hji]

/-- Settles O5: by what `fetch` reads from the schedule, case by case. -/
theorem stepRunsDecodedCommand : Obligations.StepRunsDecodedCommand := by
  intro s rest
  refine ⟨fun h => by rw [ctx, h], fun h hs heq => by rw [ctx, heq], ?_, ?_, ?_,
    fun e => fetch_of_event, fetch_of_schedule_nil⟩
  · rw [canIssue_iff, framesIssue_iff, List.isEmpty_iff]
  · intro cw i hsched hissue hdecode
    have hf := fetch_of_command hsched hissue hdecode
    obtain ⟨t, ht⟩ := exec_next i (dropScheduled s)
    exact ⟨hf, t, dropScheduled_eq hsched ▸ ht, step_of_instruction hf ht⟩
  · intro cw hsched hissue
    have hf := fetch_of_command_not_issued hsched hissue
    have hstep := step_of_event hf
    rw [environmentStep_command, dropScheduled_eq hsched] at hstep
    exact ⟨hf, hstep⟩

end Sys2Proof.Machine
end

section
/-! SUPPORT. What a step can do, said once: an ordinary step is a chain of a few kinds of write, and the others
are a take, an exit, or the release of `RESET`. -/

namespace Sys2Proof.Machine

/-- One kind of write that ordinary steps are made of. Each keeps the invariant of the block, and none touches
the parameters, `IC_ACTIVE` or the nesting; `who` is what the step runs, which the writes of the three
variables of R27, R34 and R40 name. -/
inductive Write (who : Fetched) (s : State) : State → Prop
  /-- elements that the invariant does not read -/
  | other {t : State}
      (h : t = { s with
        irqInhibit := t.irqInhibit, icEnable := t.icEnable, icPrio := t.icPrio
        eirRise := t.eirRise, eirFall := t.eirFall
        stsEnable := t.stsEnable, stsTickInt := t.stsTickInt, stsClkSource := t.stsClkSource
        stsCountFlag := t.stsCountFlag
        main := t.main, handlers := t.handlers, schedule := t.schedule, outputs := t.outputs })
      (hn : nest t = nest s) : Write who s t
  /-- sources made pending -/
  | pend (m : BitVec 240) : Write who s { s with icPending := s.icPending ||| m }
  /-- line flags cleared -/
  | unflag (m : Half) : Write who s { s with eirPend := s.eirPend &&& m }
  /-- pending bits or the line mask written, with the pend step of R200 -/
  | repend (p : BitVec 240) (m : Half) :
      Write who s (pendLevels { s with icPending := p, eirMask := m })
  /-- selectors or pins written, with the detectors of the lines whose level can change (R142) -/
  | lines (ls : List Nat) {u : State} (h : u = { s with eirCfg := u.eirCfg, pins := u.pins })
      (hmux : ∀ l, l < 16 → l ∉ ls → muxLevel u l = muxLevel s l) :
      Write who s (pendLevels (detectLines ls u))
  /-- pins driven while `RESET` is asserted (R232) -/
  | heldPins {t : State} (hr : s.inReset = true) (h : t = { s with pins := t.pins }) : Write who s t
  /-- `RESET` asserted -/
  | assertReset : Write who s { s with inReset := true }
  /-- timer registers written with values that fit (R37, R38) -/
  | ticks (r c : Word)
      (h : TicksFit s → r.toNat < 2 ^ s.cfg.tickBits ∧ c.toNat < 2 ^ s.cfg.tickBits) :
      Write who s { s with stsReload := r, stsCurrent := c }
  /-- the grouping selector written with a value that fits (R26) -/
  | selector (g : BitVec 16) (h : g.toNat < 2 ^ s.cfg.groupSelBits) :
      Write who s { s with icGroupSel := g }
  /-- the active mode, by its command (R27) -/
  | mode (m : GroupingMode) (hw : ∃ n, who = .instruction (.icSetGrouping n)) :
      Write who s { s with icGMode := m }
  /-- a line's callback slot, by its command (R34) -/
  | lineSlot (l : Nat) (c : CbRef) (hw : ∃ n d, who = .instruction (.eirRegCb n d)) :
      Write who s { s with eirCb := s.eirCb.setIfInBounds l (heldCallback s.cfg c) }
  /-- the job slot, by the two set-interval commands (R40) -/
  | jobSlot (m : JobMode) (c : CbRef)
      (hw : (∃ w d, who = .instruction (.stsSetSingle w d)) ∨
        ∃ w d, who = .instruction (.stsSetPeriodic w d)) :
      Write who s { s with stsCb := heldCallback s.cfg c, stsMode := m }

/-- A chain of writes. -/
def Routine (who : Fetched) : State → State → Prop := Relation.ReflTransGen (Write who)

section
variable {who : Fetched} {s t u : State}

theorem Routine.refl (s : State) : Routine who s s := Relation.ReflTransGen.refl

theorem Routine.trans (h : Routine who s t) (k : Routine who t u) : Routine who s u :=
  Relation.ReflTransGen.trans h k

theorem Write.routine (h : Write who s t) : Routine who s t := Relation.ReflTransGen.single h

/-- A chain of writes and one more. -/
theorem Routine.write (h : Routine who s t) (k : Write who t u) : Routine who s u :=
  Relation.ReflTransGen.tail h k

/-- A command that writes and then responds. -/
theorem Routine.respond (h : Routine who s t) (v : Word) : Routine who s (respond v t) :=
  h.write (.other rfl rfl)

end

/-! ### Operations -/

section
variable (who : Fetched) (s : State)

theorem routine_respond (v : Word) : Routine who s (respond v s) := (Routine.refl s).respond v

theorem routine_raise (e : Status) : Routine who s (raise e s) := Write.routine (.other rfl rfl)

theorem routine_dropScheduled : Routine who s (dropScheduled s) := Write.routine (.other rfl rfl)

theorem routine_setCtx (c : Ctx) : Routine who s (setCtx c s) :=
  (Write.other (by rw [setCtx_eq]) (nest_setCtx c s)).routine

theorem routine_setFrames (fs : List Frame) : Routine who s (setFrames fs s) :=
  routine_setCtx who s _

theorem routine_mapBusyWaits (f : BusyWait → BusyWait) : Routine who s (mapBusyWaits f s) :=
  (Write.other rfl (by simp only [nest, sources_mapBusyWaits])).routine

theorem routine_settle : Routine who s (settle s) :=
  (Write.other (by rw [settle_eq]) (nest_settle s)).routine

theorem routine_beforeFieldWrite : Routine who s (beforeFieldWrite s) := by
  unfold beforeFieldWrite
  split
  · exact .refl s
  · exact Write.routine (.other rfl rfl)

theorem routine_setTimerEnable (b : Bool) : Routine who s (setTimerEnable b s) :=
  (routine_beforeFieldWrite who s).write (.other rfl rfl)

theorem routine_afterRead (r : Reg) : Routine who s (afterRead r s) := by
  cases r with
  | stsCtrl => exact Write.routine (.other rfl rfl)
  | _ => exact .refl s

theorem toNat_truncBits_lt {n : Nat} (k : Nat) (v : BitVec n) : (truncBits k v).toNat < 2 ^ k := by
  rw [toNat_truncBits]; exact Nat.mod_lt _ (Nat.two_pow_pos k)

theorem groupSelOfWord_lt (c : Config) (v : Word) :
    (groupSelOfWord c v).toNat < 2 ^ c.groupSelBits := by
  rw [groupSelOfWord, BitVec.toNat_setWidth]
  exact (Nat.mod_le _ _).trans_lt (toNat_truncBits_lt _ _)

theorem routine_writePricfg (v : Word) : Routine who s (writePricfg v s) := by
  unfold writePricfg
  split
  · exact (Write.selector _ (groupSelOfWord_lt s.cfg v)).routine
  · exact .refl s

/-- A write of a selector register runs the detectors of its four lines; the other lines keep their level. -/
theorem write_eirCfg (r : Nat) (v : Word) : Write who s (memWrite (.eirCfg r) v s) := by
  refine .lines [4 * r, 4 * r + 1, 4 * r + 2, 4 * r + 3] (u := storeEirCfg r v s) rfl fun l _ hl => ?_
  have hr : l / 4 ≠ r := by simp only [List.mem_cons, List.not_mem_nil, or_false] at hl; omega
  simp only [muxLevel, portSel_storeEirCfg r l v s hr, storeEirCfg_cfg, storeEirCfg_pins]

theorem routine_memWrite (r : Reg) (v : Word) : Routine who s (memWrite r v s) := by
  cases r with
  | ispr k => exact (Write.pend _).routine
  | icpr k => exact (Write.repend _ s.eirMask).routine
  | pricfg => exact routine_writePricfg who s v
  | imr => exact (Write.repend s.icPending _).routine
  | pr => exact (Write.unflag _).routine
  | eirCfg r => exact (write_eirCfg who s r v).routine
  | stsReload => exact (Write.ticks _ _ fun h => ⟨toNat_truncBits_lt _ v, h.2⟩).routine
  | stsCurrent =>
    exact (Write.ticks s.stsReload 0 fun h => ⟨h.1, Nat.two_pow_pos _⟩).routine.write (.other rfl rfl)
  | iabr | stsCalib => exact .refl s
  | iser | icer | pri | rtsr | ftsr | stsCtrl => exact Write.routine (.other rfl rfl)

theorem routine_loadTimer (ticks : Word) : Routine who s (loadTimer ticks s) :=
  (routine_memWrite who s .stsReload ticks).trans (routine_memWrite who _ .stsCurrent 0)

theorem routine_busyWaitStart (ticks : Word) : Routine who s (busyWaitStart ticks s) :=
  ((routine_loadTimer who s ticks).trans (routine_setTimerEnable who _ true)).trans
    (routine_setCtx who _ _)

theorem routine_busyWaitFinish : Routine who s (busyWaitFinish s) :=
  (((routine_loadTimer who s 0).trans (routine_setTimerEnable who _ false)).trans
    (routine_setCtx who _ _)).respond 0

theorem routine_busyWaitPoll : Routine who s (busyWaitPoll s) := by
  have hread : Routine who s (memRead .stsCtrl s).2 := routine_afterRead who s .stsCtrl
  unfold busyWaitPoll
  split
  · exact hread.trans (routine_busyWaitFinish who _)
  · exact hread

theorem routine_dispatchDone (port : Bool) : Routine who s (dispatchDone port s) := by
  cases port with
  | false => exact .refl s
  | true => exact routine_respond who s 0

theorem routine_invoke (h : CbRef) (f : Frame) : Routine who s (invoke h f s) :=
  (routine_setFrames who s _).write (.other rfl rfl)

theorem routine_finishLine (l : Nat) (port : Bool) : Routine who s (finishLine l port s) :=
  (Write.unflag _).routine.trans (routine_dispatchDone who _ port)

theorem routine_dispatchLine (l : Nat) (port : Bool) : Routine who s (dispatchLine l port s) := by
  obtain ⟨-, h⟩ | ⟨-, h⟩ := dispatchLine_cases l port s <;> rw [h]
  · exact routine_invoke who s _ _
  · exact routine_finishLine who s l port

theorem routine_finishTimer (port : Bool) : Routine who s (finishTimer port s) := by
  unfold finishTimer
  split
  · exact (routine_setTimerEnable who s false).trans (routine_dispatchDone who _ port)
  · exact routine_dispatchDone who s port

theorem routine_dispatchTimer (port : Bool) : Routine who s (dispatchTimer port s) := by
  unfold dispatchTimer
  split
  · exact routine_invoke who s _ _
  · exact routine_dispatchDone who s port

/-! ### Steps of the other agents -/

theorem routine_advanceFrames (fs : List Frame) : Routine who s (advanceFrames s fs) := by
  cases fs with
  | nil => exact .refl s
  | cons f fs =>
    cases f with
    | lineStart l => exact (routine_setFrames who s fs).trans (routine_dispatchLine who _ l false)
    | group lines =>
      cases lines with
      | nil => exact routine_setFrames who s fs
      | cons l ls =>
        rw [advanceFrames]
        split
        · exact (routine_setFrames who s _).trans (routine_dispatchLine who _ l false)
        · exact routine_setFrames who s _
    | stsStart => exact (routine_setFrames who s fs).trans (routine_dispatchTimer who _ false)
    | lineCall | stsCall | foreign => exact .refl s

theorem routine_advance : Routine who s (advance s) := by
  unfold advance
  split
  · exact routine_busyWaitPoll who s
  · exact routine_advanceFrames who s _

theorem routine_returnFrames (fs : List Frame) : Routine who s (returnFrames s fs) := by
  cases fs with
  | nil => exact .refl s
  | cons f fs =>
    cases f with
    | lineCall l port => exact (routine_setFrames who s fs).trans (routine_finishLine who _ l port)
    | stsCall port => exact (routine_setFrames who s fs).trans (routine_finishTimer who _ port)
    | foreign => exact routine_setFrames who s fs
    | lineStart | group | stsStart => exact .refl s

theorem routine_returnStep : Routine who s (returnStep s) := by
  unfold returnStep
  split
  · exact .refl s
  · exact routine_returnFrames who s _

/-- A pin of one line leaves the multiplexers of the other lines as they are (R141). -/
theorem muxLevel_setPin (p l k : Nat) (level : Bool) (h : k ≠ l) :
    muxLevel (setPin p l level s) k = muxLevel s k := by
  have hbit : ∀ q : Nat,
      ((setPin p l level s).pins[q]?.getD 0).getLsbD k = (s.pins[q]?.getD 0).getLsbD k := by
    intro q
    unfold setPin
    split
    · by_cases hq : p = q
      · subst hq
        by_cases hp : p < 16 <;> simp [hp, getLsbD_setBit_ne _ _ h]
      · simp [hq]
    · rfl
  simp only [muxLevel, portSel, setPin_cfg, setPin_eirCfg, hbit]

theorem setPin_eq (p l : Nat) (level : Bool) :
    setPin p l level s = { s with pins := (setPin p l level s).pins } := by
  unfold setPin; split <;> rfl

theorem routine_pinStep (p l : Nat) (level : Bool) : Routine who s (pinStep p l level s) := by
  refine (Write.lines [l] (u := setPin p l level s) (by rw [setPin_eq]) fun k _ hk => ?_).routine
  exact muxLevel_setPin s p l k level fun h => hk (h ▸ List.mem_singleton_self l)

theorem toNat_sub_one_le {c : Word} (h : c ≠ 0) : (c - 1).toNat ≤ c.toNat := by bv_omega

theorem routine_countDown : Routine who s (countDown s) := by
  obtain ⟨-, h⟩ | ⟨-, h⟩ | ⟨hne, -, h⟩ := countDown_cases s <;> rw [h]
  · exact (Write.ticks s.stsReload _ fun h => ⟨h.1, h.1⟩).routine
  · have hzero : Routine who s { s with stsCurrent := 0, stsCountFlag := true } :=
      (Write.ticks s.stsReload 0 fun h => ⟨h.1, Nat.two_pow_pos _⟩).routine.write (.other rfl rfl)
    split
    · exact hzero.write (.pend _)
    · exact hzero
  · exact (Write.ticks s.stsReload _ fun h => ⟨h.1, (toNat_sub_one_le hne).trans_lt h.2⟩).routine

theorem routine_countEvent (input : Bool) : Routine who s (countEvent input s) := by
  unfold countEvent
  split
  · split
    · exact (routine_mapBusyWaits who s _).trans (routine_countDown who _)
    · exact routine_countDown who s
  · exact .refl s

theorem routine_raiseRequest (i : Nat) : Routine who s (raiseRequest i s) := by
  unfold raiseRequest
  split
  · exact (Write.pend _).routine
  · exact .refl s

theorem routine_loseFlagStep : Routine who s (loseFlagStep s) := by
  unfold loseFlagStep
  split
  · exact Write.routine (.other rfl rfl)
  · exact .refl s

end

end Sys2Proof.Machine
end

section
/-! SUPPORT. Every command is a chain of writes, and what every step can do. -/

namespace Sys2Proof.Machine

/-! ### Operand forms: what holds of a rejection and of every accepted run holds of the answer -/

section
variable {P : State → Prop} {s t : State} (hraise : ∀ e, P (raise e s))
include hraise

theorem onSource_elim {index : Byte} {run : Nat → State} (h : onSource index s run = .next t)
    (hrun : ∀ i, i < 240 → P (run i)) : P t := by
  obtain ⟨hi, he⟩ | ⟨-, he⟩ := onSource_eq index s run <;> rw [he] at h <;> cases h
  · exact hrun _ (by omega)
  · exact hraise _

theorem onLine_elim {line : Byte} {run : Nat → State} (h : onLine line s run = .next t)
    (hrun : ∀ l, l < 16 → P (run l)) : P t := by
  obtain ⟨hl, he⟩ | ⟨-, he⟩ := onLine_eq line s run <;> rw [he] at h <;> cases h
  · exact hrun _ (by omega)
  · exact hraise _

theorem onEdgeLine_elim {line : Byte} {edge : BitVec 2} {run : Edge → Nat → State}
    (h : onEdgeLine line edge s run = .next t) (hrun : ∀ e l, l < 16 → P (run e l)) : P t := by
  unfold onEdgeLine at h
  split at h
  · exact onLine_elim hraise h (hrun _)
  · cases h; exact hraise _

theorem onMode_elim {mode : BitVec 3} {run : GroupingMode → State}
    (h : onMode mode s run = .next t) (hrun : ∀ m, P (run m)) : P t := by
  unfold onMode at h
  cases h
  split
  · exact hrun _
  · exact hraise _

theorem onReg_elim {n : Half} {run : Reg → State} (h : onReg n s run = .next t)
    (hrun : ∀ r, P (run r)) : P t := by
  unfold onReg at h
  cases h
  split
  · exact hrun _
  · exact hraise _

end

/-! ### Commands -/

/-- `EIR.SETPORT` runs one detector, and no other line's level can change (R144, R142). -/
theorem write_setPort (who : Fetched) (s : State) (l : Nat) (sel : BitVec 4) (hl : l < 16) :
    Write who s (pendLevels (detectLine l
      (storeEirCfg (l / 4) (withSelector (memRead (.eirCfg (l / 4)) s).1 l sel) s))) := by
  refine .lines [l] rfl fun k _ hk => ?_
  have hne : k ≠ l := fun h => hk (h ▸ List.mem_singleton_self l)
  simp only [muxLevel, portSel_setPort l k sel s hl, if_neg hne, storeEirCfg_cfg, storeEirCfg_pins]

theorem routine_startJob {who : Fetched} (s : State) (m : JobMode) (ticks : Word) (c : CbRef)
    (hw : (∃ w d, who = .instruction (.stsSetSingle w d)) ∨
      ∃ w d, who = .instruction (.stsSetPeriodic w d)) :
    Routine who s (startJob m ticks c s) :=
  ((routine_loadTimer who s ticks).write (.jobSlot m c hw)).trans
    (routine_setTimerEnable who _ true)

theorem routine_exec {i : Instr} {s t : State} (h : exec i s = .next t) :
    Routine (.instruction i) s t := by
  have hraise := routine_raise (.instruction i) s
  unfold exec at h
  cases i with
  | regRd n => exact onReg_elim hraise h fun r => (routine_afterRead _ s r).respond _
  | regWr n data => exact onReg_elim hraise h fun r => (routine_memWrite _ s r data).respond 0
  | icEnable | icDisable =>
    exact onSource_elim hraise h fun _ _ => Write.routine (.other rfl rfl)
  | icSetPend =>
    exact onSource_elim hraise h fun _ _ => (Write.routine (.pend _)).respond 0
  | icClrPend =>
    exact onSource_elim hraise h fun _ _ => (Write.routine (.repend _ s.eirMask)).respond 0
  | icIsActive => exact onSource_elim hraise h fun _ _ => routine_respond _ s _
  | icSetGrouping mode =>
    exact onMode_elim hraise h fun m =>
      ((routine_writePricfg _ s _).write (.mode m ⟨mode, rfl⟩)).respond 0
  | icSetPrio => exact onSource_elim hraise h fun _ _ => Write.routine (.other rfl rfl)
  | icEncPrio => exact onMode_elim hraise h fun _ => routine_respond _ s _
  | eirSetPort line sel =>
    exact onLine_elim hraise h fun l hl => (write_setPort _ s l sel hl).routine.respond 0
  | eirSetTrigger =>
    exact onLine_elim hraise h fun _ _ => (Write.routine (.repend s.icPending _)).respond 0
  | eirSetEdge => exact onEdgeLine_elim hraise h fun _ _ _ => Write.routine (.other rfl rfl)
  | eirRegCb line callback =>
    exact onLine_elim hraise h fun l _ =>
      (Write.routine (.lineSlot l callback ⟨line, callback, rfl⟩)).respond 0
  | eirDispatch => exact onLine_elim hraise h fun l _ => routine_dispatchLine _ s l true
  | stsInit =>
    cases h; exact (routine_beforeFieldWrite _ s).write (.other rfl rfl)
  | stsBusyWait ticks => cases h; exact routine_busyWaitStart _ s ticks
  | stsElapsed | stsRemaining => cases h; exact routine_respond _ s _
  | stsSetSingle ticks callback =>
    cases h; exact (routine_startJob s .single ticks callback (.inl ⟨_, _, rfl⟩)).respond 0
  | stsSetPeriodic ticks callback =>
    cases h; exact (routine_startJob s .periodic ticks callback (.inr ⟨_, _, rfl⟩)).respond 0
  | stsStop => cases h; exact (routine_setTimerEnable _ s false).respond 0
  | stsDispatch => cases h; exact routine_dispatchTimer _ s true

/-! ### Steps -/

/-- What the operation of a step leaves of `s`: the result of a chain of writes, or of a take, an exit, or
the release of `RESET`. -/
inductive Effect (who : Fetched) (s : State) : State → Prop
  | routine {t : State} (h : Routine who s t) : Effect who s t
  | take (i : Nat) (hw : who = .event .take ∨ who = .nothing) (hr : s.inReset = false)
      (ht : takeable s = some i) : Effect who s (takeTrap i s)
  | exit (i : Nat) (hw : who = .event .exit ∨ who = .nothing) (hr : s.inReset = false)
      (he : exitable s = some i) : Effect who s (exitTrap i s)
  | release (hw : who = .event (.resetLine false)) (hr : s.inReset = true) :
      Effect who s (resetBlock s)

theorem effect_takeStep {who : Fetched} {s : State} (hw : who = .event .take ∨ who = .nothing)
    (hr : s.inReset = false) : Effect who s (takeStep s) := by
  unfold takeStep
  cases ht : takeable s with
  | none => exact .routine (.refl s)
  | some i => exact .take i hw hr ht

theorem effect_exitStep {who : Fetched} {s : State} (hw : who = .event .exit ∨ who = .nothing)
    (hr : s.inReset = false) : Effect who s (exitStep s) := by
  unfold exitStep
  cases he : exitable s with
  | none => exact .routine (.refl s)
  | some i => exact .exit i hw hr he

theorem effect_driveReset (level : Bool) (s : State) :
    Effect (.event (.resetLine level)) s (driveReset level s) := by
  unfold driveReset
  cases level with
  | true => exact .routine (Write.routine .assertReset)
  | false =>
    by_cases hr : s.inReset = true
    · simpa [hr] using Effect.release rfl hr
    · simpa [hr] using Effect.routine (Routine.refl s)

theorem effect_stepInReset {s : State} (hr : s.inReset = true) (e : Event) :
    Effect (.event e) s (stepInReset e s) := by
  cases e with
  | pin p l level => exact .routine (Write.routine (.heldPins hr (by rw [stepInReset, setPin_eq])))
  | inhibit level => exact .routine (Write.routine (.other rfl rfl))
  | resetLine level => exact effect_driveReset level s
  | _ => exact .routine (.refl s)

theorem effect_agentStep {s : State} (hr : s.inReset = false) (e : Event) :
    Effect (.event e) s (agentStep e s) := by
  cases e with
  | command cw => exact .routine (.refl s)
  | advance => exact .routine (routine_advance _ s)
  | ret => exact .routine (routine_returnStep _ s)
  | take => exact effect_takeStep (.inl rfl) hr
  | exit => exact effect_exitStep (.inl rfl) hr
  | pin p l level => exact .routine (routine_pinStep _ s _ _ level)
  | count input => exact .routine (routine_countEvent _ s input)
  | raise i => exact .routine (routine_raiseRequest _ s _)
  | inhibit level => exact .routine (Write.routine (.other rfl rfl))
  | resetLine level => exact effect_driveReset level s
  | loseFlag => exact .routine (routine_loseFlagStep _ s)

theorem effect_environmentStep (e : Event) (s : State) :
    Effect (.event e) s (environmentStep e s) := by
  unfold environmentStep
  split
  · exact effect_stepInReset ‹_› e
  · exact effect_agentStep (Bool.not_eq_true _ ▸ ‹_›) e

theorem effect_ownStep (s : State) : Effect .nothing s (ownStep s) := by
  cases hr : s.inReset with
  | true => rw [ownStep, if_pos hr]; exact .routine (.refl s)
  | false =>
    obtain h | h | h | h | h := ownStep_cases s <;> rw [h]
    · exact .routine (.refl s)
    · exact effect_takeStep (.inr rfl) hr
    · exact .routine (routine_advance _ s)
    · exact .routine (routine_returnStep _ s)
    · exact effect_exitStep (.inr rfl) hr

/-- What a step can do: the effect of what `fetch` reads, on the state without the scheduled step, and then
the settling of the ages. -/
theorem step_effect {s t : State} (h : step s = .next t) :
    ∃ v u, (v = s ∨ v = dropScheduled s) ∧ Effect (fetch s) v u ∧ t = settle u := by
  obtain ⟨u, rfl, hu⟩ := step_cases h
  obtain ⟨i, hf, he⟩ | ⟨hf, rfl⟩ | ⟨e, hf, rfl⟩ | ⟨hf, rfl⟩ := hu <;> rw [hf]
  · exact ⟨_, u, .inr rfl, .routine (routine_exec he), rfl⟩
  · exact ⟨_, _, .inr rfl, .routine (routine_raise _ _ _), rfl⟩
  · exact ⟨_, _, .inr rfl, effect_environmentStep e _, rfl⟩
  · exact ⟨s, _, .inl rfl, effect_ownStep s, rfl⟩

end Sys2Proof.Machine
end

section
/-! SUPPORT. What a chain of writes keeps, and that every effect of a step keeps the invariant of the block. -/

namespace Sys2Proof.Machine

/-! ### What a chain of writes leaves as it is -/

/-- What no write touches: the active bits and the nesting. -/
structure TrapsKept (s t : State) : Prop where
  icActive : t.icActive = s.icActive
  nest : nest t = nest s

theorem Write.trapsKept {who : Fetched} {s t : State} (h : Write who s t) : TrapsKept s t := by
  cases h with
  | other h hn => exact ⟨by rw [h], hn⟩
  | lines ls h _ => rw [detectLines_eq, h]; exact ⟨rfl, rfl⟩
  | heldPins _ h => rw [h]; exact ⟨rfl, rfl⟩
  | _ => exact ⟨rfl, rfl⟩

theorem Routine.trapsKept {who : Fetched} {s t : State} (h : Routine who s t) : TrapsKept s t := by
  induction h with
  | refl => exact ⟨rfl, rfl⟩
  | tail _ hw ih =>
    exact ⟨hw.trapsKept.icActive.trans ih.icActive, hw.trapsKept.nest.trans ih.nest⟩

/-- The active mode, the callback table and the job slot are as they were unless `who` is a command that
owns them (R27, R34, R40). -/
structure VariablesKept (who : Fetched) (s t : State) : Prop where
  mode : (∀ m, who ≠ .instruction (.icSetGrouping m)) → t.icGMode = s.icGMode
  lineSlots : (∀ l h, who ≠ .instruction (.eirRegCb l h)) → t.eirCb = s.eirCb
  jobSlot : (∀ w h, who ≠ .instruction (.stsSetSingle w h)) →
    (∀ w h, who ≠ .instruction (.stsSetPeriodic w h)) → t.stsCb = s.stsCb ∧ t.stsMode = s.stsMode

theorem VariablesKept.of_eq {who : Fetched} {s t : State} (hm : t.icGMode = s.icGMode)
    (hl : t.eirCb = s.eirCb) (hc : t.stsCb = s.stsCb) (hj : t.stsMode = s.stsMode) :
    VariablesKept who s t :=
  ⟨fun _ => hm, fun _ => hl, fun _ _ => ⟨hc, hj⟩⟩

theorem VariablesKept.trans {who : Fetched} {s t u : State} (h : VariablesKept who s t)
    (k : VariablesKept who t u) : VariablesKept who s u where
  mode hw := (k.mode hw).trans (h.mode hw)
  lineSlots hw := (k.lineSlots hw).trans (h.lineSlots hw)
  jobSlot hs hp :=
    ⟨(k.jobSlot hs hp).1.trans (h.jobSlot hs hp).1, (k.jobSlot hs hp).2.trans (h.jobSlot hs hp).2⟩

theorem Write.variablesKept {who : Fetched} {s t : State} (h : Write who s t) :
    VariablesKept who s t := by
  cases h with
  | other h _ | heldPins _ h => rw [h]; exact .of_eq rfl rfl rfl rfl
  | lines ls h _ => rw [detectLines_eq, h]; exact .of_eq rfl rfl rfl rfl
  | mode m hw =>
    obtain ⟨n, hn⟩ := hw
    exact ⟨fun hw => absurd hn (hw n), fun _ => rfl, fun _ _ => ⟨rfl, rfl⟩⟩
  | lineSlot l c hw =>
    obtain ⟨n, d, hn⟩ := hw
    exact ⟨fun _ => rfl, fun hw => absurd hn (hw n d), fun _ _ => ⟨rfl, rfl⟩⟩
  | jobSlot m c hw =>
    refine ⟨fun _ => rfl, fun _ => rfl, fun hs hp => ?_⟩
    obtain ⟨w, d, hn⟩ | ⟨w, d, hn⟩ := hw
    · exact absurd hn (hs w d)
    · exact absurd hn (hp w d)
  | _ => exact .of_eq rfl rfl rfl rfl

theorem Routine.variablesKept {who : Fetched} {s t : State} (h : Routine who s t) :
    VariablesKept who s t := by
  induction h with
  | refl => exact .of_eq rfl rfl rfl rfl
  | tail _ hw ih => exact ih.trans hw.variablesKept

/-! ### The parts of the invariant -/

theorem config_wf_iff (c : Config) : c.wf = true ↔
    c.groupSelPos + c.groupSelBits ≤ 16 ∧
    (∀ i (h : i < 5), c.groupSelOf[i].toNat < 2 ^ c.groupSelBits) ∧
    (c.portSelector.map Prod.fst).Nodup ∧
    (∀ i (h : i < 16), c.eirSrc[i] < 240 ∧ c.eirSrc[i] ≠ c.stsSrc) ∧
    c.stsSrc < 240 ∧ c.tickBits ≤ 32 := by
  simp [Config.wf, Vector.all_eq_true, and_assoc]

theorem eirSource_lt {c : Config} (h : c.wf = true) (l : Nat) : c.eirSrc[l]?.getD 0 < 240 := by
  by_cases hl : l < 16
  · simpa [hl] using (((config_wf_iff c).mp h).2.2.2.1 l hl).1
  · simp [hl]

/-- A line that is pending and enabled makes the request of its source high (R143). -/
theorem requestHigh_of_line {s : State} {l : Nat} (hp : s.eirPend.getLsbD l = true)
    (hm : s.eirMask.getLsbD l = true) : requestHigh s (s.cfg.eirSrc[l]?.getD 0) = true := by
  have hl : l < 16 := BitVec.lt_of_getLsbD hp
  exact List.any_eq_true.mpr ⟨l, List.mem_range.mpr hl, by simp [hp, hm]⟩

/-- The pend step makes every high request pend, whatever held before (R200). -/
theorem levelsArePended_pendLevels {s : State} (hwf : s.cfg.wf = true) :
    LevelsArePended (pendLevels s) := by
  intro l hp hm ha
  rw [pendLevels_eirPend] at hp
  rw [pendLevels_eirMask] at hm
  rw [pendLevels_icActive, pendLevels_cfg] at ha
  rw [pendLevels_cfg, getLsbD_pendLevels s _ (eirSource_lt hwf l), requestHigh_of_line hp hm, ha]
  simp

@[simp] theorem muxLevel_detectLines (ls : List Nat) (k : Nat) (s : State) :
    muxLevel (detectLines ls s) k = muxLevel s k := by
  rw [detectLines_eq]; exact muxLevel_congr rfl rfl rfl k

/-- Detectors that cover every line whose level has changed leave each line with its level seen (R142). -/
theorem prevIsMux_detectLines {s u : State} {ls : List Nat} (hs : PrevIsMux s)
    (h : u = { s with eirCfg := u.eirCfg, pins := u.pins })
    (hmux : ∀ l, l < 16 → l ∉ ls → muxLevel u l = muxLevel s l) :
    PrevIsMux (pendLevels (detectLines ls u)) := by
  have hreset : u.inReset = s.inReset := by rw [h]
  have hprev : u.eirPrev = s.eirPrev := by rw [h]
  intro hr l hl
  rw [pendLevels_inReset, detectLines_eq] at hr
  rw [muxLevel_pendLevels, muxLevel_detectLines, pendLevels_eirPrev,
    getLsbD_detectLines_eirPrev ls l u hl, hprev]
  split
  · rfl
  · rw [hs (hreset.symm.trans hr) l hl, hmux l hl ‹_›]

theorem callbacksFit_setLine {s : State} (h : CallbacksFit s) (l : Nat) (c : CbRef) :
    CallbacksFit { s with eirCb := s.eirCb.setIfInBounds l (heldCallback s.cfg c) } := by
  refine ⟨fun k hk => ?_, h.2⟩
  by_cases hkl : l = k
  · subst hkl
    simpa [hk] using (heldCallback_spec s.cfg c).2
  · simpa [Vector.getElem?_setIfInBounds, hkl] using h.1 k hk

/-- Every write of an ordinary step keeps the invariant of the block. -/
theorem Write.keepsInv {who : Fetched} {s t : State} (h : Write who s t) (hs : BlockInv s) :
    BlockInv t := by
  obtain ⟨hcfg, hnest, hlevels, hprev, hticks, hsel, hcbs⟩ := hs
  cases h with
  | other h hn =>
    have hnest' : NestIsActive t := by
      rw [NestIsActive, hn, (show t.icActive = s.icActive by rw [h])]; exact hnest
    rw [h] at hnest' ⊢
    exact ⟨hcfg, hnest', hlevels, hprev, hticks, hsel, hcbs⟩
  | pend m =>
    refine ⟨hcfg, hnest, fun l hp hm ha => ?_, hprev, hticks, hsel, hcbs⟩
    rw [BitVec.getLsbD_or, hlevels l hp hm ha, Bool.true_or]
  | unflag m =>
    refine ⟨hcfg, hnest, fun l hp => hlevels l ?_, hprev, hticks, hsel, hcbs⟩
    rw [BitVec.getLsbD_and, Bool.and_eq_true] at hp
    exact hp.1
  | repend p m =>
    exact ⟨hcfg, hnest, levelsArePended_pendLevels hcfg, hprev, hticks, hsel, hcbs⟩
  | @lines ls u h hmux =>
    have hp := prevIsMux_detectLines hprev h hmux
    have hl : LevelsArePended (pendLevels (detectLines ls u)) :=
      levelsArePended_pendLevels (by rw [detectLines_cfg, h]; exact hcfg)
    rw [detectLines_eq, h] at hp hl ⊢
    exact ⟨hcfg, hnest, hl, hp, hticks, hsel, hcbs⟩
  | heldPins hr h =>
    rw [h]
    exact ⟨hcfg, hnest, hlevels, fun hf => absurd (hr.symm.trans hf) nofun, hticks, hsel, hcbs⟩
  | assertReset => exact ⟨hcfg, hnest, hlevels, nofun, hticks, hsel, hcbs⟩
  | ticks r c h => exact ⟨hcfg, hnest, hlevels, hprev, h hticks, hsel, hcbs⟩
  | selector g h => exact ⟨hcfg, hnest, hlevels, hprev, hticks, h, hcbs⟩
  | mode m _ => exact ⟨hcfg, hnest, hlevels, hprev, hticks, hsel, hcbs⟩
  | lineSlot l c _ =>
    exact ⟨hcfg, hnest, hlevels, hprev, hticks, hsel, callbacksFit_setLine hcbs l c⟩
  | jobSlot m c _ =>
    exact ⟨hcfg, hnest, hlevels, hprev, hticks, hsel, hcbs.1, (heldCallback_spec s.cfg c).2⟩

theorem Routine.keepsInv {who : Fetched} {s t : State} (h : Routine who s t) (hs : BlockInv s) :
    BlockInv t := by
  induction h with
  | refl => exact hs
  | tail _ hw ih => exact hw.keepsInv ih

/-! ### Take, exit and the release of `RESET` -/

theorem bestBelow_spec {s : State} {n i : Nat} (h : bestBelow s n = some i) :
    i < n ∧ candidate s i = true := by
  induction n with
  | zero => cases h
  | succ n ih =>
    rw [bestBelow] at h
    cases hb : bestBelow s n with
    | none =>
      simp only [hb, Option.ite_none_right_eq_some, Option.some.injEq] at h
      obtain ⟨hc, rfl⟩ := h
      exact ⟨Nat.lt_succ_self _, hc⟩
    | some j =>
      simp only [hb] at h
      split at h
      · rename_i hc
        cases h
        exact ⟨Nat.lt_succ_self _, (Bool.and_eq_true _ _ ▸ hc).1⟩
      · cases h
        exact ⟨(ih hb).1.trans (Nat.lt_succ_self n), (ih hb).2⟩

/-- A source that can be taken exists and is not active (R205). -/
theorem takeable_inactive {s : State} {i : Nat} (h : takeable s = some i) :
    i < 240 ∧ s.icActive.getLsbD i = false := by
  obtain ⟨hi, hc⟩ := bestBelow_spec (takeable_eq_some h).1
  simp only [candidate, Bool.and_eq_true, Bool.not_eq_true'] at hc
  exact ⟨hi, hc.2⟩

theorem nest_takeTrap (i : Nat) (s : State) : nest (takeTrap i s) = nest s ++ [i] := by
  simp [nest]

theorem nest_exitTrap {s : State} {i : Nat} {c : Ctx} {hs : List Handler}
    (h : s.handlers = ⟨i, c⟩ :: hs) : nest s = nest (exitTrap i s) ++ [i] := by
  simp [nest, h]

/-- A take pushes a source that was not in service and sets its active bit (R29). -/
theorem nestIsActive_takeTrap {s : State} {i : Nat} (hs : NestIsActive s) (hi : i < 240)
    (ha : s.icActive.getLsbD i = false) : NestIsActive (takeTrap i s) := by
  obtain ⟨hnodup, hmem⟩ := hs
  have hnot : i ∉ nest s := fun h => by rw [(hmem i).mp h] at ha; cases ha
  rw [NestIsActive, nest_takeTrap, takeTrap_icActive]
  refine ⟨List.concat_eq_append ▸ hnodup.concat hnot, fun j => ?_⟩
  rw [List.mem_append, List.mem_singleton, hmem, getLsbD_setBit]
  by_cases hj : j = i <;> simp [hj, hi]

/-- An exit pops the innermost source and clears its active bit (R29). -/
theorem nestIsActive_exitTrap {s : State} {i : Nat} {c : Ctx} {hs : List Handler}
    (hn : NestIsActive s) (h : s.handlers = ⟨i, c⟩ :: hs) : NestIsActive (exitTrap i s) := by
  obtain ⟨hnodup, hmem⟩ := hn
  have hnest := nest_exitTrap h
  rw [hnest, ← List.concat_eq_append, List.nodup_concat] at hnodup
  refine ⟨hnodup.2, fun j => ?_⟩
  rw [exitTrap_icActive, getLsbD_setBit]
  have hj := hmem j
  rw [hnest, List.mem_append, List.mem_singleton] at hj
  by_cases hji : j = i
  · subst hji
    have hlt : j < 240 := BitVec.lt_of_getLsbD (hj.mp (.inr rfl))
    simp [hnodup.1, hlt]
  · simpa [hji] using hj

/-- Taking a source ends its being pending and makes it active, so no request is left without its pending
bit (R200). -/
theorem levelsArePended_takeTrap {s : State} {i : Nat} (hs : LevelsArePended s) :
    LevelsArePended (takeTrap i s) := by
  intro l hp hm ha
  rw [takeTrap_icActive, takeTrap_cfg, getLsbD_setBit] at ha
  rw [takeTrap_icPending, takeTrap_cfg, getLsbD_setBit]
  split at ha
  · cases ha
  · rw [if_neg ‹_›]; exact hs l hp hm ha

theorem takeTrap_keepsInv {s : State} {i : Nat} (hs : BlockInv s) (ht : takeable s = some i) :
    BlockInv (takeTrap i s) := by
  obtain ⟨hi, ha⟩ := takeable_inactive ht
  obtain ⟨hcfg, hnest, hlevels, hprev, hticks, hsel, hcbs⟩ := hs
  exact ⟨hcfg, nestIsActive_takeTrap hnest hi ha, levelsArePended_takeTrap hlevels, hprev,
    hticks, hsel, hcbs⟩

theorem exitTrap_keepsInv {s : State} {i : Nat} (hs : BlockInv s) (he : exitable s = some i) :
    BlockInv (exitTrap i s) := by
  obtain ⟨rest, hh⟩ := exitable_eq_some he
  obtain ⟨hcfg, hnest, -, hprev, hticks, hsel, hcbs⟩ := hs
  exact ⟨hcfg, nestIsActive_exitTrap hnest hh, levelsArePended_pendLevels hcfg, hprev,
    hticks, hsel, hcbs⟩

/-- The reset state has the invariant, under any well-formed parameters and levels of the pins. -/
theorem blockInv_resetBlock {s : State} (hwf : s.cfg.wf = true) : BlockInv (resetBlock s) where
  cfgWf := hwf
  nestIsActive := ⟨List.nodup_nil, fun i => by simp [resetBlock, State.reset, nest]⟩
  levelsArePended l hp := by simp [resetBlock, State.reset] at hp
  prevIsMux _ l hl :=
    (getLsbD_muxLevels _ l hl).trans (muxLevel_congr rfl rfl rfl l)
  ticksFit := ⟨Nat.two_pow_pos _, Nat.two_pow_pos _⟩
  selectorFits := Nat.two_pow_pos _
  callbacksFit := ⟨fun l hl => by simp [resetBlock, State.reset, hl], Nat.two_pow_pos _⟩

theorem Effect.keepsInv {who : Fetched} {s t : State} (h : Effect who s t) (hs : BlockInv s) :
    BlockInv t := by
  cases h with
  | routine h => exact h.keepsInv hs
  | take i _ _ ht => exact takeTrap_keepsInv hs ht
  | exit i _ _ he => exact exitTrap_keepsInv hs he
  | release _ _ => exact blockInv_resetBlock hs.cfgWf

/-- Settles O11: each effect of a step keeps the invariant, and so do the writes around it. -/
theorem stepKeepsInvariant : Obligations.StepKeepsInvariant := by
  intro s t hs h
  obtain ⟨v, u, hv, he, rfl⟩ := step_effect h
  have hinv : BlockInv v := by
    obtain rfl | rfl := hv
    · exact hs
    · exact (routine_dropScheduled (fetch s) s).keepsInv hs
  exact (routine_settle (fetch s) u).keepsInv (he.keepsInv hinv)

end Sys2Proof.Machine
end

section
/-! The statements about every step: the ages, the trap state, the variables of R27, R34 and R40; and about the
reset state. -/

namespace Sys2Proof.Machine

theorem mapBusyWaits_id (s : State) : mapBusyWaits id s = s := by simp [mapBusyWaits]

/-- Settles O14: a step ends with `settle`, which with both inputs at 0 makes every age 0. -/
theorem stepWithoutInhibitResetsAllAges : Obligations.StepWithoutInhibitResetsAllAges := by
  have hyoung : ∀ b : BusyWait, b.young = .idle ∨ b.young = .spin 0 := by
    intro b
    cases b with
    | idle => exact .inl rfl
    | spin age => exact .inr rfl
  refine ⟨fun s t h hi hr => ?_, fun s => ?_⟩
  · obtain ⟨u, rfl⟩ := step_settles h
    rw [settle_irqInhibit] at hi
    rw [settle_inReset] at hr
    have hsettle : settle u = mapBusyWaits BusyWait.young u := by simp [settle, hi, hr]
    rw [hsettle]
    refine ⟨hyoung _, fun h hh => ?_⟩
    obtain ⟨g, -, rfl⟩ := List.mem_map.mp hh
    exact hyoung _
  · by_cases hc : s.irqInhibit = true ∨ s.inReset = true
    · refine ⟨id, rfl, fun age => by rw [if_pos hc]; rfl, ?_⟩
      have hkeep : settle s = s := by rw [settle, if_pos (by simpa using hc)]
      rw [hkeep]; exact (mapBusyWaits_id s).symm
    · refine ⟨BusyWait.young, rfl, fun age => by rw [if_neg hc]; rfl, ?_⟩
      rw [settle, if_neg (by simpa using hc)]; rfl

/-- `best` reads the registers and not the schedule. -/
theorem best_dropScheduled (s : State) : best (dropScheduled s) = best s := by
  have h : ∀ n, bestBelow (dropScheduled s) n = bestBelow s n := by
    intro n
    induction n with
    | zero => rfl
    | succ n ih => simp only [bestBelow, ih]; rfl
  exact h numSources

/-- Settles O15: a chain of writes keeps both; the other effects are the three that the statement names. -/
theorem onlyTrapStepsChangeActive : Obligations.OnlyTrapStepsChangeActive := by
  intro s t h
  obtain ⟨v, u, hv, he, rfl⟩ := step_effect h
  obtain ⟨hactive, hnest, hreset, hinhibit, hhandlers, hbest⟩ :
      v.icActive = s.icActive ∧ nest v = nest s ∧ v.inReset = s.inReset ∧
        v.irqInhibit = s.irqInhibit ∧ v.handlers = s.handlers ∧ best v = best s := by
    obtain rfl | rfl := hv
    · exact ⟨rfl, rfl, rfl, rfl, rfl, rfl⟩
    · exact ⟨rfl, rfl, rfl, rfl, rfl, best_dropScheduled s⟩
  rw [settle_icActive, nest_settle, ← hactive, ← hnest, ← hreset, ← hinhibit, ← hhandlers, ← hbest]
  cases he with
  | routine h => exact .inl ⟨h.trapsKept.icActive, h.trapsKept.nest⟩
  | take i hw hr ht =>
    obtain ⟨hb, hi, -⟩ := takeable_eq_some ht
    refine .inr (.inl ⟨i, hw, hr, hi, hb, nest_takeTrap i v, fun j hj => ?_⟩)
    rw [takeTrap_icActive, getLsbD_setBit]
    by_cases hji : j = i
    · subst hji; simp [hj]
    · simp [hji]
  | exit i hw hr hx =>
    obtain ⟨rest, hh⟩ := exitable_eq_some hx
    refine .inr (.inr (.inl ⟨i, rest, hw, hr, hh, nest_exitTrap hh, fun j hj => ?_⟩))
    rw [exitTrap_icActive, getLsbD_setBit]
    by_cases hji : j = i
    · subst hji; simp [hj]
    · simp [hji]
  | release hw hr => exact .inr (.inr (.inr ⟨hw, hr, rfl, rfl⟩))

/-- Settles O16: each variable is written by its own kind of write, and neither a take nor an exit nor the
settling touches one. -/
theorem onlyOwnCommandsWriteVariables : Obligations.OnlyOwnCommandsWriteVariables := by
  intro s t h hrel
  obtain ⟨v, u, hv, he, rfl⟩ := step_effect h
  have hsv : VariablesKept (fetch s) s v := by
    obtain rfl | rfl := hv <;> exact .of_eq rfl rfl rfl rfl
  have hvu : VariablesKept (fetch s) v u := by
    cases he with
    | routine h => exact h.variablesKept
    | take | exit => exact .of_eq rfl rfl rfl rfl
    | release hw hr =>
      have hreset : v.inReset = s.inReset := by obtain rfl | rfl := hv <;> rfl
      exact absurd ⟨hreset.symm.trans hr, hw⟩ hrel
  obtain ⟨hmode, hlines, hjob⟩ := (hsv.trans hvu).trans (routine_settle _ u).variablesKept
  exact ⟨hmode, hlines, hjob⟩

/-! ### Reset -/

theorem getD_replicate_zero {n w : Nat} (i : Nat) :
    (Vector.replicate n (0 : BitVec w))[i]?.getD 0 = 0 := by
  by_cases h : i < n <;> simp [h]

/-- The state right after reset is what a release of `RESET` leaves of it: its pins are all 0. -/
theorem resetBlock_reset : resetBlock State.reset = State.reset := by
  have hpin : ∀ p : Nat, State.reset.pins[p]?.getD 0 = 0 := fun p => getD_replicate_zero p
  have hmux : muxLevels State.reset = 0 := by
    apply BitVec.eq_of_getLsbD_eq
    intro l hl
    rw [getLsbD_muxLevels _ l hl, muxLevel, hpin]
    simp
  change { State.reset with eirPrev := muxLevels State.reset } = State.reset
  rw [hmux]; rfl

/-- Settles O17: row by row of the table, for a release of `RESET`, of which the state right after reset is one. -/
theorem resetTable : Obligations.ResetTable := by
  intro s t h
  obtain ⟨r, rfl⟩ : ∃ r, t = resetBlock r := by
    obtain rfl | rfl := h
    · exact ⟨_, resetBlock_reset.symm⟩
    · exact ⟨s, rfl⟩
  refine ⟨rfl, rfl, rfl, fun i => ?_, rfl, rfl, rfl, fun k hk => ?_, rfl, rfl, rfl, rfl,
    fun l hl => ?_, fun l hl => ?_, ?_, rfl, rfl, rfl, rfl, rfl, rfl⟩
  · exact congrArg (· ++ 0#4) (getD_replicate_zero i)
  · exact congrArg (BitVec.setWidth 32) (getD_replicate_zero k)
  · exact getD_replicate_zero l
  · exact (getLsbD_muxLevels _ l hl).trans (muxLevel_congr rfl rfl rfl l)
  · change regValue State.reset .stsCtrl = 0
    decide

/-- The source of the timer in `defaultConfig` is one that no line uses, whichever is picked. -/
theorem defaultStsSrc_mem : defaultConfig.stsSrc ∈ sourcesWithoutLine := by
  have hlen : sourcesWithoutLine.length = 233 := by decide +kernel
  have hpick : Config.openStsSrcPick.val < sourcesWithoutLine.length := by
    rw [hlen]; exact Config.openStsSrcPick.isLt
  change sourcesWithoutLine.getD Config.openStsSrcPick.val 0 ∈ sourcesWithoutLine
  rw [List.getD_eq_getElem _ _ hpick]
  exact List.getElem_mem hpick

theorem defaultConfig_wf : defaultConfig.wf = true := by
  obtain ⟨hlt, hline⟩ := List.mem_filter.mp defaultStsSrc_mem
  have hne : defaultConfig.stsSrc ∉ defaultEirSrc := by simpa using hline
  refine (config_wf_iff _).mpr ⟨by decide, by decide, by decide, fun i hi => ⟨?_, ?_⟩,
    List.mem_range.mp hlt, by decide⟩
  · revert i; decide
  · exact fun h => hne (h ▸ Vector.getElem_mem hi)

/-- Settles O12: the default parameters are well formed whichever source without a line `STS_SRC` is. -/
theorem resetHasInvariant : Obligations.ResetHasInvariant := by
  have h : BlockInv (resetBlock State.reset) := blockInv_resetBlock defaultConfig_wf
  rwa [resetBlock_reset] at h

end Sys2Proof.Machine
end

section
/-! SUPPORT. The register map, row by row (R71), and the raw accesses by register. -/

namespace Sys2Proof.Machine

/-! ### The register a number names -/

section
variable {n : Half}

theorem regOfNumber_iser (h : n.toNat < 0x0008) : regOfNumber n = some (.iser n.toNat) := by
  simp only [regOfNumber, h, if_true]

theorem regOfNumber_icer (h : 0x0008 ≤ n.toNat) (h' : n.toNat < 0x0010) :
    regOfNumber n = some (.icer (n.toNat - 0x0008)) := by
  simp (disch := omega) only [regOfNumber, if_neg, if_pos]

theorem regOfNumber_ispr (h : 0x0010 ≤ n.toNat) (h' : n.toNat < 0x0018) :
    regOfNumber n = some (.ispr (n.toNat - 0x0010)) := by
  simp (disch := omega) only [regOfNumber, if_neg, if_pos]

theorem regOfNumber_icpr (h : 0x0018 ≤ n.toNat) (h' : n.toNat < 0x0020) :
    regOfNumber n = some (.icpr (n.toNat - 0x0018)) := by
  simp (disch := omega) only [regOfNumber, if_neg, if_pos]

theorem regOfNumber_iabr (h : 0x0020 ≤ n.toNat) (h' : n.toNat < 0x0028) :
    regOfNumber n = some (.iabr (n.toNat - 0x0020)) := by
  simp (disch := omega) only [regOfNumber, if_neg, if_pos]

theorem regOfNumber_pri (h : 0x0100 ≤ n.toNat) (h' : n.toNat < 0x01F0) :
    regOfNumber n = some (.pri (n.toNat - 0x0100)) := by
  simp (disch := omega) only [regOfNumber, if_neg, if_pos]

theorem regOfNumber_eirCfg (h : 0x0208 ≤ n.toNat) (h' : n.toNat < 0x020C) :
    regOfNumber n = some (.eirCfg (n.toNat - 0x0208)) := by
  simp (disch := omega) only [regOfNumber, if_neg, if_pos]

end

theorem ite_some_eq_some_iff {α : Type} (p : Prop) [Decidable p] (x z : α) (y : Option α) :
    (if p then some x else y) = some z ↔ p ∧ x = z ∨ ¬p ∧ y = some z := by
  by_cases h : p <;> simp [h]

theorem regOfNumber_stsCtrl_iff (n : Half) : regOfNumber n = some .stsCtrl ↔ n = 0x0300 := by
  constructor
  · intro h
    simp only [regOfNumber, ite_some_eq_some_iff, reduceCtorEq, and_false, false_or, or_false,
      and_true] at h
    have hn : n.toNat = 0x0300 := by tauto
    exact BitVec.eq_of_toNat_eq hn
  · rintro rfl; rfl

/-! ### Raw accesses -/

/-- A read changes nothing but, of `STS_CTRL`, the flag (R72, R78). -/
theorem afterRead_eq (r : Reg) (s : State) :
    afterRead r s = { s with stsCountFlag := if r = .stsCtrl then false else s.stsCountFlag } := by
  cases r <;> rfl

theorem exec_regWr {n : Half} {r : Reg} (h : regOfNumber n = some r) (data : Word) (s : State) :
    exec (.regWr n data) s = .next (respond 0 (memWrite r data s)) := by
  simp only [exec, execRegWr, onReg, h]

/-- The number of a register is its place in a block of registers after a base. -/
theorem toNat_ofNat_add {base i : Nat} (h : base + i < 0x10000) :
    (BitVec.ofNat 16 (base + i)).toNat = base + i := by
  rw [BitVec.toNat_ofNat, Nat.mod_eq_of_lt h]

end Sys2Proof.Machine
end

section
/-! SUPPORT. Register words as numbers. -/

namespace Sys2Proof.Machine

/-- A grouping selector that fits stays below the key after its shift (R26). -/
theorem selector_shift_lt {g : BitVec 16} {pos bits : Nat} (hg : g.toNat < 2 ^ bits)
    (hp : pos + bits ≤ 16) : 2 ^ pos * g.toNat < 65536 :=
  calc 2 ^ pos * g.toNat < 2 ^ pos * 2 ^ bits := Nat.mul_lt_mul_of_pos_left hg (Nat.two_pow_pos pos)
    _ = 2 ^ (pos + bits) := (pow_add 2 pos bits).symm
    _ ≤ 2 ^ 16 := Nat.pow_le_pow_right (by decide) hp

/-- A 16-bit key above a selector in its place, as a number (R26). -/
theorem toNat_keyedWord (k g : BitVec 16) {pos bits : Nat} (hg : g.toNat < 2 ^ bits)
    (hp : pos + bits ≤ 16) :
    ((k ++ 0#16 : Word) ||| (g.setWidth 32 <<< pos)).toNat = 65536 * k.toNat + 2 ^ pos * g.toNat := by
  have hlt := selector_shift_lt hg hp
  have hlow : (g.setWidth 32 <<< pos).toNat = 2 ^ pos * g.toNat := by
    rw [BitVec.toNat_shiftLeft, BitVec.toNat_setWidth_of_le (by decide), Nat.shiftLeft_eq,
      Nat.mul_comm, Nat.mod_eq_of_lt (by omega)]
  have hhigh : (k ++ 0#16 : Word).toNat = k.toNat <<< 16 := by
    rw [BitVec.toNat_append]; exact Nat.or_zero _
  rw [BitVec.toNat_or, hhigh, hlow, ← Nat.shiftLeft_add_eq_or_of_lt hlt, Nat.shiftLeft_eq,
    Nat.mul_comm]

/-- The selector is read back from below the key (R26). -/
theorem selector_of_keyed (k : Nat) {g pos bits : Nat} (hg : g < 2 ^ bits) (hp : pos + bits ≤ 16) :
    (65536 * k + 2 ^ pos * g) / 2 ^ pos % 2 ^ bits = g := by
  obtain ⟨d, hd⟩ := Nat.exists_eq_add_of_le hp
  have hsplit : 65536 * k + 2 ^ pos * g = 2 ^ pos * (2 ^ bits * (2 ^ d * k) + g) := by
    rw [show (65536 : Nat) = 2 ^ (pos + bits + d) from congrArg (2 ^ ·) hd]; ring
  rw [hsplit, Nat.mul_div_cancel_left _ (Nat.two_pow_pos pos), Nat.mul_add_mod, Nat.mod_eq_of_lt hg]

/-- `STS_CTRL` as a number: three control bits and the flag at bit 16 (R36). -/
theorem toNat_stsCtrl (s : State) : (regValue s .stsCtrl).toNat =
    s.stsEnable.toNat + 2 * s.stsTickInt.toNat + 4 * s.stsClkSource.toNat
      + 65536 * s.stsCountFlag.toNat := by
  change (setBit (setBit (setBit (setBit 0#32 0 s.stsEnable) 1 s.stsTickInt) 2 s.stsClkSource)
    16 s.stsCountFlag).toNat = _
  generalize s.stsEnable = e, s.stsTickInt = t, s.stsClkSource = c, s.stsCountFlag = f
  revert e t c f
  decide

theorem toNat_prioField (s : State) (i : Nat) :
    (prioField s i).toNat = 16 * (s.icPrio[i]?.getD 0).toNat := by
  rw [prioField, BitVec.toNat_append, Nat.shiftLeft_eq, Nat.mul_comm]
  exact Nat.or_zero _

/-- The key of a written word is its upper half (R26). -/
theorem key_eq_iff (v : Word) (k : BitVec 16) :
    v.extractLsb' 16 16 = k ↔ v.toNat / 65536 = k.toNat := by
  rw [← BitVec.toNat_inj, BitVec.extractLsb'_toNat, Nat.shiftRight_eq_div_pow]
  have hv := v.isLt
  omega

/-- The selector that a written word carries, as a number (R26). -/
theorem toNat_groupSelOfWord {c : Config} (h : c.groupSelPos + c.groupSelBits ≤ 16) (v : Word) :
    (groupSelOfWord c v).toNat = v.toNat / 2 ^ c.groupSelPos % 2 ^ c.groupSelBits := by
  have hle : 2 ^ c.groupSelBits ≤ 2 ^ 16 := Nat.pow_le_pow_right (by decide) (by omega)
  rw [groupSelOfWord, BitVec.toNat_setWidth, toNat_truncBits, BitVec.toNat_ushiftRight,
    Nat.shiftRight_eq_div_pow]
  exact Nat.mod_eq_of_lt ((Nat.mod_lt _ (Nat.two_pow_pos _)).trans_le hle)

end Sys2Proof.Machine
end

section
/-! The statements of the register space and of the grouping mode. -/

namespace Sys2Proof.Machine

/-- Settles O19: the register that the number names gives the value, row by row of the map. -/
theorem registerReadValues : Obligations.RegisterReadValues := by
  intro n s hn
  obtain ⟨r, hr, hread, -⟩ := raw_access hn
  have hrow : ∀ {q}, regOfNumber n = some q → r = q := fun h => Option.some.inj (hr.symm.trans h)
  have hflag : n = 0x0300 ↔ r = .stsCtrl := by
    rw [← regOfNumber_stsCtrl_iff, hr, Option.some.injEq]
  refine ⟨regValue s r, ?_, fun h b hb => ?_, fun h h' b hb => ?_, fun h h' b hb => ?_,
    fun h h' => ?_, fun h hwf hsel => ?_, fun h => ?_, fun h => ?_, fun h => ?_, fun h => ?_,
    fun h h' => ?_, fun h => ?_, fun h => ?_, fun h => ?_, fun h => ?_⟩
  · rw [hread s, afterRead_eq]; simp only [hflag]; rfl
  · by_cases h8 : n.toNat < 0x0008
    · rw [hrow (regOfNumber_iser h8), regValue, getLsbD_bankWord, Nat.mod_eq_of_lt h8]; simp [hb]
    · rw [hrow (regOfNumber_icer (by omega) h), regValue, getLsbD_bankWord,
        show n.toNat - 0x0008 = n.toNat % 8 by omega]
      simp [hb]
  · by_cases h8 : n.toNat < 0x0018
    · rw [hrow (regOfNumber_ispr h h8), regValue, getLsbD_bankWord,
        show n.toNat - 0x0010 = n.toNat % 8 by omega]
      simp [hb]
    · rw [hrow (regOfNumber_icpr (by omega) h'), regValue, getLsbD_bankWord,
        show n.toNat - 0x0018 = n.toNat % 8 by omega]
      simp [hb]
  · rw [hrow (regOfNumber_iabr h h'), regValue, getLsbD_bankWord,
      show n.toNat - 0x0020 = n.toNat % 8 by omega]
    simp [hb]
  · rw [hrow (regOfNumber_pri h h'), regValue, BitVec.toNat_setWidth_of_le (by decide),
      toNat_prioField]
  · subst h
    rw [hrow rfl]
    exact toNat_keyedWord _ _ hsel ((config_wf_iff _).mp hwf).1
  · subst h; rw [hrow rfl]; exact BitVec.toNat_setWidth_of_le (by decide)
  · subst h; rw [hrow rfl]; exact BitVec.toNat_setWidth_of_le (by decide)
  · subst h; rw [hrow rfl]; exact BitVec.toNat_setWidth_of_le (by decide)
  · subst h; rw [hrow rfl]; exact BitVec.toNat_setWidth_of_le (by decide)
  · rw [hrow (regOfNumber_eirCfg h h')]; exact BitVec.toNat_setWidth_of_le (by decide)
  · subst h; rw [hrow rfl]; exact toNat_stsCtrl s
  · subst h; rw [hrow rfl]; rfl
  · subst h; rw [hrow rfl]; rfl
  · subst h; rw [hrow rfl]; rfl

/-- What a raw write of one priority register leaves in each (R25). -/
theorem prioField_writePrio (i j : Nat) (v : Word) (s : State) (hi : i < 240) :
    prioField (writePrio i v s) j = if j = i then v.extractLsb' 4 4 ++ 0#4 else prioField s j := by
  by_cases h : j = i
  · subst h; simp [prioField, writePrio, hi]
  · rw [if_neg h, prioField, prioField, writePrio, Vector.getElem?_setIfInBounds, if_neg (Ne.symm h)]

/-- Settles O21: by the one register that the number names. -/
theorem priorityWriteKeepsUpperNibble : Obligations.PriorityWriteKeepsUpperNibble := by
  intro i data s hi
  have hn : (BitVec.ofNat 16 (0x0100 + i)).toNat = 0x0100 + i := toNat_ofNat_add (by omega)
  have hr := regOfNumber_pri (n := BitVec.ofNat 16 (0x0100 + i)) (by omega) (by omega)
  rw [hn, Nat.add_sub_cancel_left] at hr
  refine ⟨_, exec_regWr hr data s, rfl, fun j _ => ?_⟩
  have hfield := prioField_writePrio i j data s hi
  change (prioField (writePrio i data s) j).toNat = _
  rw [hfield]
  split
  · rw [BitVec.toNat_append, BitVec.extractLsb'_toNat, Nat.shiftRight_eq_div_pow, Nat.shiftLeft_eq,
      Nat.mul_comm]
    exact Nat.or_zero _
  · rfl

/-- Settles O24: by the four rows of the map. -/
theorem timerRegisterWrites : Obligations.TimerRegisterWrites := by
  intro data s
  exact ⟨exec_regWr (r := .stsCtrl) rfl data s,
    ⟨_, exec_regWr (r := .stsReload) rfl data s, rfl, toNat_truncBits _ data⟩,
    exec_regWr (r := .stsCurrent) rfl data s, exec_regWr (r := .stsCalib) rfl data s⟩

/-- The word of `IC.SETGROUPING` carries the key and, under well-formed parameters, the selector of its mode
(R126). -/
theorem writePricfg_groupingWord {s : State} (hwf : s.cfg.wf = true) (m : GroupingMode) :
    writePricfg (groupingWord s.cfg m) s =
      { s with icGroupSel := s.cfg.groupSelOf[subWidth m]?.getD 0 } := by
  obtain ⟨hpos, hsel, -⟩ := (config_wf_iff s.cfg).mp hwf
  have hg : (s.cfg.groupSelOf[subWidth m]?.getD 0).toNat < 2 ^ s.cfg.groupSelBits := by
    have hm : subWidth m < 5 := by cases m <;> decide
    simpa [hm] using hsel (subWidth m) hm
  have hword := toNat_keyedWord s.cfg.unlockKey _ hg hpos
  have hlt := selector_shift_lt hg hpos
  have hkey : (groupingWord s.cfg m).extractLsb' 16 16 = s.cfg.unlockKey := by
    rw [key_eq_iff, groupingWord, hword]; omega
  have hfield : groupSelOfWord s.cfg (groupingWord s.cfg m)
      = s.cfg.groupSelOf[subWidth m]?.getD 0 := by
    apply BitVec.eq_of_toNat_eq
    rw [toNat_groupSelOfWord hpos, groupingWord, hword, selector_of_keyed _ hg hpos]
  rw [writePricfg, if_pos hkey, hfield]

/-- Settles O25: what the two commands write of the selector and the mode, and `IC.SETPRIO` reads the mode. -/
theorem selectorAndActiveModeComeApart : Obligations.SelectorAndActiveModeComeApart := by
  intro s hwf
  refine ⟨fun mode m hm => ?_, fun data hkey => ?_, fun data hkey => ?_⟩
  · simp only [exec, execIcSetGrouping, onMode, hm, memWrite, writePricfg_groupingWord hwf]
    rfl
  · have hw : memWrite .pricfg data s = { s with icGroupSel := groupSelOfWord s.cfg data } :=
      if_pos ((key_eq_iff data _).mpr hkey)
    refine ⟨_, exec_regWr rfl data s, by rw [hw]; rfl, ?_, fun index group subgroup u v hu hv => ?_⟩
    · rw [hw]; exact toNat_groupSelOfWord ((config_wf_iff s.cfg).mp hwf).1 data
    · rw [hw] at hv
      cases hu; cases hv
      by_cases h : index.toNat ≤ 239 <;> simp only [h, if_true, if_false] <;> rfl
  · have hw : memWrite .pricfg data s = s := if_neg (fun h => hkey ((key_eq_iff data _).mp h))
    rw [exec_regWr (r := .pricfg) rfl, hw]; rfl

end Sys2Proof.Machine
end

section
/-! SUPPORT. The detectors of some lines, and the priority encoder as numbers. -/

namespace Sys2Proof.Machine

/-- A detector that has run sees no edge on its line until the level changes again (R142). -/
theorem edgeSeen_detectLine (l k : Nat) (s : State) (hk : k < 16) :
    edgeSeen (detectLine l s) k = (k != l && edgeSeen s k) := by
  simp only [edgeSeen, muxLevel_detectLine, getLsbD_detectLine_eirPrev l k s hk,
    detectLine_eirRise, detectLine_eirFall]
  by_cases h : k = l
  · subst h; cases muxLevel s k <;> simp
  · simp [h]

/-- The detectors of some lines on the pending flags: a selected edge sets the flag of its line. -/
theorem getLsbD_detectLines_eirPend (ls : List Nat) (k : Nat) (s : State) (hk : k < 16) :
    (detectLines ls s).eirPend.getLsbD k
      = (s.eirPend.getLsbD k || (decide (k ∈ ls) && edgeSeen s k)) := by
  induction ls generalizing s with
  | nil => simp [detectLines]
  | cons l ls ih =>
    have h : detectLines (l :: ls) s = detectLines ls (detectLine l s) := rfl
    rw [h, ih, edgeSeen_detectLine l k s hk, getLsbD_detectLine_eirPend l k s hk]
    by_cases hkl : k = l
    · subst hkl; simp
    · have hne : (k == l) = false := beq_false_of_ne hkl
      simp [hkl, hne, bne]

@[simp] theorem detectLines_icPending (ls : List Nat) (s : State) :
    (detectLines ls s).icPending = s.icPending := by rw [detectLines_eq]

@[simp] theorem detectLines_icActive (ls : List Nat) (s : State) :
    (detectLines ls s).icActive = s.icActive := by rw [detectLines_eq]

/-- In `t` the detectors of the lines `ls` have run after `s`: those lines have seen the level that their
multiplexer has in `t`, a selected edge has set the flag (R142), and high requests are pending (R200). -/
structure DetectorsRan (ls : List Nat) (s t : State) : Prop where
  eirPrev : ∀ l, l < 16 →
    t.eirPrev.getLsbD l = if l ∈ ls then muxLevel t l else s.eirPrev.getLsbD l
  eirPend : ∀ l, l < 16 → t.eirPend.getLsbD l = (s.eirPend.getLsbD l || (decide (l ∈ ls)
    && ((!s.eirPrev.getLsbD l && muxLevel t l && s.eirRise.getLsbD l)
      || (s.eirPrev.getLsbD l && !muxLevel t l && s.eirFall.getLsbD l))))
  icPending : ∀ j, j < 240 → t.icPending.getLsbD j =
    (s.icPending.getLsbD j || (requestHigh t j && !s.icActive.getLsbD j))

theorem detectorsRan (ls : List Nat) {s u : State}
    (h : u = { s with eirCfg := u.eirCfg, pins := u.pins }) :
    DetectorsRan ls s (pendLevels (detectLines ls u)) where
  eirPrev l hl := by
    rw [muxLevel_pendLevels, muxLevel_detectLines, pendLevels_eirPrev,
      getLsbD_detectLines_eirPrev ls l u hl, show u.eirPrev = s.eirPrev by rw [h]]
  eirPend l hl := by
    rw [muxLevel_pendLevels, muxLevel_detectLines, pendLevels_eirPend,
      getLsbD_detectLines_eirPend ls l u hl, edgeSeen, show u.eirPrev = s.eirPrev by rw [h],
      show u.eirPend = s.eirPend by rw [h], show u.eirRise = s.eirRise by rw [h],
      show u.eirFall = s.eirFall by rw [h]]
  icPending j hj := by
    rw [getLsbD_pendLevels _ j hj, detectLines_icPending, detectLines_icActive,
      show u.icPending = s.icPending by rw [h], show u.icActive = s.icActive by rw [h]]
    rfl

theorem groupWidth_add_subWidth (m : GroupingMode) : groupWidth m + subWidth m = 4 := by
  cases m <;> rfl

/-- A group and a subgroup inside the ranges of their mode make up four bits (R28). -/
theorem fieldDigits_lt (m : GroupingMode) {g u : Nat} (hg : g < 2 ^ groupWidth m)
    (hu : u < 2 ^ subWidth m) : g * 2 ^ subWidth m + u < 16 :=
  calc g * 2 ^ subWidth m + u < (g + 1) * 2 ^ subWidth m := by rw [Nat.succ_mul]; omega
    _ ≤ 2 ^ groupWidth m * 2 ^ subWidth m := Nat.mul_le_mul_right _ hg
    _ = 2 ^ 4 := by rw [← pow_add, groupWidth_add_subWidth]

/-- The reading `ENC_OVERFLOW` = truncate, as a number: each operand reduced to its own width (R127). -/
theorem toNat_encodePriority_truncate (m : GroupingMode) (g u : Byte) :
    (encodePriority .truncate m g u).toNat =
      16 * (g.toNat % 2 ^ groupWidth m * 2 ^ subWidth m + u.toNat % 2 ^ subWidth m) := by
  have hu : u.toNat % 2 ^ subWidth m < 2 ^ subWidth m := Nat.mod_lt _ (Nat.two_pow_pos _)
  have hlt := fieldDigits_lt m (Nat.mod_lt g.toNat (Nat.two_pow_pos (groupWidth m))) hu
  have hgroup : (truncBits (groupWidth m) g <<< subWidth m).toNat
      = (g.toNat % 2 ^ groupWidth m) <<< subWidth m := by
    rw [BitVec.toNat_shiftLeft, toNat_truncBits, Nat.shiftLeft_eq, Nat.mod_eq_of_lt (by omega)]
  rw [encodePriority, BitVec.toNat_shiftLeft, BitVec.toNat_or, hgroup, toNat_truncBits,
    ← Nat.shiftLeft_add_eq_or_of_lt hu, Nat.shiftLeft_eq, Nat.shiftLeft_eq,
    Nat.mod_eq_of_lt (by omega), Nat.mul_comm]

/-- Inside the ranges of its mode the reading `ENC_OVERFLOW` = overlay loses no bit and joins none
(`93_implementation_defined.md` Part 2). -/
theorem toNat_encodePriority_overlay (m : GroupingMode) {g u : Byte}
    (hg : g.toNat < 2 ^ groupWidth m) (hu : u.toNat < 2 ^ subWidth m) :
    (encodePriority .overlay m g u).toNat = 16 * (g.toNat * 2 ^ subWidth m + u.toNat) := by
  have hlt := fieldDigits_lt m hg hu
  have hwidth : 8 - groupWidth m = subWidth m + 4 := by cases m <;> rfl
  have hgroup : (g.setWidth 16 <<< (8 - groupWidth m)).toNat = (g.toNat <<< subWidth m) <<< 4 := by
    rw [BitVec.toNat_shiftLeft, BitVec.toNat_setWidth_of_le (by decide), hwidth, Nat.shiftLeft_add,
      Nat.shiftLeft_eq _ 4, Nat.shiftLeft_eq, Nat.mod_eq_of_lt (by omega)]
  have hsub : (u.setWidth 16 <<< 4).toNat = u.toNat <<< 4 := by
    rw [BitVec.toNat_shiftLeft, BitVec.toNat_setWidth_of_le (by decide), Nat.shiftLeft_eq,
      Nat.mod_eq_of_lt (by omega)]
  have hjoin : ((g.setWidth 16 <<< (8 - groupWidth m) ||| u.setWidth 16 <<< 4).setWidth 8).toNat
      = 16 * (g.toNat * 2 ^ subWidth m + u.toNat) := by
    rw [BitVec.toNat_setWidth, BitVec.toNat_or, hgroup, hsub, ← Nat.shiftLeft_or_distrib,
      ← Nat.shiftLeft_add_eq_or_of_lt hu, Nat.shiftLeft_eq, Nat.shiftLeft_eq,
      Nat.mod_eq_of_lt (by omega), Nat.mul_comm]
  have hmask : ∀ e : Byte, e.toNat % 16 = 0 → e &&& 0xF0 = e := by decide
  rw [encodePriority, hmask _ (by omega), hjoin]

/-- Inside the ranges of its mode the field is the group above the subgroup, in the upper nibble, under
either `ENC_OVERFLOW` (R127). -/
theorem toNat_encodePriority (o : EncOverflow) (m : GroupingMode) {g u : Byte}
    (hg : g.toNat < 2 ^ groupWidth m) (hu : u.toNat < 2 ^ subWidth m) :
    (encodePriority o m g u).toNat = 16 * (g.toNat * 2 ^ subWidth m + u.toNat) := by
  cases o with
  | truncate =>
    rw [toNat_encodePriority_truncate, Nat.mod_eq_of_lt hg, Nat.mod_eq_of_lt hu]
  | overlay => exact toNat_encodePriority_overlay m hg hu

/-- The low nibble of an encoded field is 0, whatever the operands (R127). -/
theorem encodePriority_upperNibble (o : EncOverflow) (m : GroupingMode) (g u : Byte) :
    (encodePriority o m g u).extractLsb' 4 4 ++ 0#4 = encodePriority o m g u := by
  have hshift : ∀ x : Byte, (x <<< 4).extractLsb' 4 4 ++ 0#4 = x <<< 4 := by decide
  have hmask : ∀ x : Byte, (x &&& 0xF0).extractLsb' 4 4 ++ 0#4 = x &&& 0xF0 := by decide
  cases o with
  | truncate => exact hshift _
  | overlay => exact hmask _

end Sys2Proof.Machine
end

section
/-! The statements of the encoder, the priority registers and the lines. -/

namespace Sys2Proof.Machine

/-- Numbers in base `b` are ordered by their leading digit, and then by the last one. -/
theorem digits_lt_iff {b x y i j : Nat} (hi : i < b) (hj : j < b) :
    x * b + i < y * b + j ↔ x < y ∨ x = y ∧ i < j := by
  obtain h | h | h := Nat.lt_trichotomy x y
  · have hle : (x + 1) * b ≤ y * b := Nat.mul_le_mul_right b h
    rw [Nat.succ_mul] at hle
    omega
  · subst h; omega
  · have hle : (y + 1) * b ≤ x * b := Nat.mul_le_mul_right b h
    rw [Nat.succ_mul] at hle
    omega

/-- Settles O31: the field is the number with the group and the subgroup as its two digits. -/
theorem encoderOrdersByGroupThenSubgroup : Obligations.EncoderOrdersByGroupThenSubgroup := by
  refine ⟨rfl, fun m => rfl, fun o m g g' u u' hg hg' hu hu' => ?_⟩
  rw [BitVec.lt_def, toNat_encodePriority o m hg hu, toNat_encodePriority o m hg' hu',
    Nat.mul_lt_mul_left (by decide), digits_lt_iff hu hu', BitVec.lt_def, BitVec.lt_def,
    BitVec.toNat_inj]

theorem exec_icSetPrio {index : Byte} (hi : index.toNat ≤ 239) (group subgroup : Byte) (s : State) :
    exec (.icSetPrio index group subgroup) s = .next (respond 0 (writePrio index.toNat
      ((encodePriority s.cfg.encOverflow s.icGMode group subgroup).setWidth 32) s)) := by
  simp only [exec, execIcSetPrio, onSource_ok hi, memWrite]

/-- Settles O32: the write of the one register keeps the whole of the encoded field. -/
theorem setPrioStoresEncodedField : Obligations.SetPrioStoresEncodedField := by
  intro index group subgroup s hi
  have hnibble : ∀ e : Byte, (e.setWidth 32).extractLsb' 4 4 = e.extractLsb' 4 4 := by decide
  refine ⟨_, exec_icSetPrio hi group subgroup s, rfl, fun j _ => ?_⟩
  refine (prioField_writePrio index.toNat j _ s (by omega)).trans ?_
  rw [hnibble, encodePriority_upperNibble]

/-- Settles O23: the register's four lines are those whose detectors run. -/
theorem selectorRegisterWriteRunsDetectors : Obligations.SelectorRegisterWriteRunsDetectors := by
  intro r data s hr4
  have hn : (BitVec.ofNat 16 (0x0208 + r)).toNat = 0x0208 + r := toNat_ofNat_add (by omega)
  have hr := regOfNumber_eirCfg (n := BitVec.ofNat 16 (0x0208 + r)) (by omega) (by omega)
  rw [hn, Nat.add_sub_cancel_left] at hr
  have hmem : ∀ l, l ∈ [4 * r, 4 * r + 1, 4 * r + 2, 4 * r + 3] ↔ l / 4 = r := by
    intro l; simp only [List.mem_cons, List.not_mem_nil, or_false]; omega
  obtain ⟨hprev, hpend, hpending⟩ := detectorsRan [4 * r, 4 * r + 1, 4 * r + 2, 4 * r + 3]
    (s := s) (u := storeEirCfg r data s) rfl
  refine ⟨_, exec_regWr hr data s, ?_, fun q hq => ?_, fun l hl hlr => ⟨?_, ?_⟩,
    fun l hl hlr => ⟨?_, ?_⟩, hpending⟩
  · simp only [memWrite]; rw [detectLines_eq]; rfl
  · rw [respond_eirCfg, memWrite, pendLevels_eirCfg, detectLines_eq]
    by_cases hqr : q = r
    · subst hqr; simp [hq]
    · simp [hqr, Ne.symm hqr]
  · exact (hprev l hl).trans (if_pos ((hmem l).mpr hlr))
  · refine (hpend l hl).trans ?_
    rw [decide_eq_true ((hmem l).mpr hlr), Bool.true_and, ← Bool.or_assoc]; rfl
  · exact (hprev l hl).trans (if_neg fun h => hlr ((hmem l).mp h))
  · refine (hpend l hl).trans ?_
    rw [decide_eq_false fun h => hlr ((hmem l).mp h), Bool.false_and, Bool.or_false]

/-- A selector as a digit of its register (R30). -/
theorem toNat_portSel (s : State) (l : Nat) :
    (portSel s l).toNat = (s.eirCfg[l / 4]?.getD 0).toNat / 16 ^ (l % 4) % 16 := by
  rw [portSel, BitVec.extractLsb'_toNat, Nat.shiftRight_eq_div_pow, Nat.pow_mul]

theorem exec_eirSetPort {line : Byte} (hl : line.toNat ≤ 15) (sel : BitVec 4) (s : State) :
    exec (.eirSetPort line sel) s = .next (respond 0 (pendLevels (detectLine line.toNat
      (storeEirCfg (line.toNat / 4)
        (withSelector (memRead (.eirCfg (line.toNat / 4)) s).1 line.toNat sel) s)))) := by
  simp only [exec, execEirSetPort, onLine_ok hl]

/-- Settles O34: the write replaces the field of the line, and the one detector runs. -/
theorem setPortReplacesOneSelector : Obligations.SetPortReplacesOneSelector := by
  intro line sel s hl
  have hsel := fun l => portSel_setPort line.toNat l sel s (by omega)
  have hexec := exec_eirSetPort hl sel s
  generalize hv : withSelector (memRead (.eirCfg (line.toNat / 4)) s).1 line.toNat sel = v
    at hsel hexec
  obtain ⟨hprev, hpend, hpending⟩ :=
    detectorsRan [line.toNat] (s := s) (u := storeEirCfg (line.toNat / 4) v s) rfl
  refine ⟨_, hexec, rfl, fun l _ => toNat_portSel s l, fun l _ => hsel l, fun l h16 => ?_,
    fun l h16 => ?_, hpending⟩
  · refine (hprev l h16).trans ?_
    simp only [List.mem_singleton]; rfl
  · refine (hpend l h16).trans ?_
    simp only [List.mem_singleton, beq_eq_decide]; rfl

theorem exec_eirRegCb {line : Byte} (hl : line.toNat ≤ 15) (callback : CbRef) (s : State) :
    exec (.eirRegCb line callback) s = .next (respond 0 { s with
      eirCb := s.eirCb.setIfInBounds line.toNat (heldCallback s.cfg callback) }) := by
  simp only [exec, execEirRegCb, onLine_ok hl]

/-- Settles O37: the one slot of the vector. -/
theorem regCbReplacesOneSlot : Obligations.RegCbReplacesOneSlot := by
  intro line callback s hl
  obtain ⟨hfits, hwidth⟩ := heldCallback_spec s.cfg callback
  refine ⟨_, heldCallback s.cfg callback, exec_eirRegCb hl callback s, rfl, hfits, hwidth,
    fun l h16 => ?_⟩
  by_cases h : l = line.toNat
  · subst h; simp [h16]
  · simp [h, Ne.symm h]

end Sys2Proof.Machine
end

section
/-! The statements of the timer. -/

namespace Sys2Proof.Machine

/-- The timer loaded and started: the read of `CTRL_FIELD_WRITE` = rmw finds the flag cleared already. -/
theorem setTimerEnable_loadTimer (ticks : Word) (s : State) :
    setTimerEnable true (loadTimer ticks s) = { s with
      stsReload := truncBits s.cfg.tickBits ticks, stsCurrent := 0, stsCountFlag := false
      stsEnable := true } := by
  rw [setTimerEnable_eq, loadTimer_stsCountFlag, ite_self]; rfl

theorem startJob_eq (m : JobMode) (ticks : Word) (c : CbRef) (s : State) :
    startJob m ticks c s = { s with
      stsReload := truncBits s.cfg.tickBits ticks, stsCurrent := 0, stsCountFlag := false
      stsEnable := true, stsCb := heldCallback s.cfg c, stsMode := m } := by
  rw [startJob, setTimerEnable_eq, loadTimer_stsCountFlag, ite_self]; rfl

/-- Settles O43: the timer is loaded and started, and the running context is put into Spin. -/
theorem busyWaitStarts : Obligations.BusyWaitStarts := by
  intro ticks s
  have hstart : busyWaitStart ticks s = setBusyWait (.spin 0) { s with
      stsReload := truncBits s.cfg.tickBits ticks, stsCurrent := 0, stsCountFlag := false
      stsEnable := true } := by
    rw [busyWaitStart, setTimerEnable_loadTimer]
  refine ⟨_, congrArg Host.Outcome.next hstart, by rw [setBusyWait, setCtx_eq], ?_,
    suspendedKept_setCtx _ _, ctx_setCtx _ _⟩
  rw [setBusyWait_stsReload]
  exact toNat_truncBits _ ticks

/-- Settles O46: both commands start a job, and differ in its mode. -/
theorem setIntervalOverwritesTheSlot : Obligations.SetIntervalOverwritesTheSlot := by
  intro ticks callback s
  obtain ⟨hfits, hwidth⟩ := heldCallback_spec s.cfg callback
  refine ⟨heldCallback s.cfg callback, hfits, hwidth, ⟨_, rfl, ?_, ?_⟩, ⟨_, rfl, ?_, ?_⟩⟩
  all_goals rw [startJob_eq]
  · rfl
  · exact toNat_truncBits _ ticks
  · rfl
  · exact toNat_truncBits _ ticks

/-- A return in the timer's callback ends the timer's routine, in the context without its frame (R172). -/
theorem returnStep_stsCall {s : State} {port : Bool} {fs : List Frame}
    (h : ctx s = ⟨.idle, .stsCall port :: fs⟩) :
    returnStep s = finishTimer port (setCtx ⟨.idle, fs⟩ s) := by
  simp only [returnStep, h, returnFrames, setFrames]

theorem responded_setCtx (e : Status) (v : Word) (c : Ctx) (s : State) :
    responded e v (setCtx c s) = responded e v s := by
  change .response (issuer (setCtx c s)) e v :: (setCtx c s).outputs
    = .response (issuer s) e v :: s.outputs
  rw [issuer_setCtx, setCtx_outputs]

/-- Settles O49: the return runs the end of the timer's routine. -/
theorem timerCallbackReturnStopsSingleJob : Obligations.TimerCallbackReturnStopsSingleJob := by
  intro s port fs rest hn hctx
  have hstep := step_event hn nofun
  rw [agentStep, returnStep_stsCall (s := { s with schedule := rest }) hctx, finishTimer_eq] at hstep
  obtain ⟨hnest, htail, hmain⟩ := suspendedKept_setCtx ⟨.idle, fs⟩ { s with schedule := rest }
  refine ⟨_, hstep, ⟨hnest, htail, hmain⟩, ctx_setCtx ⟨.idle, fs⟩ { s with schedule := rest },
    ?_, ?_, ?_⟩
  · simp only [timerState, setCtx_stsMode, setCtx_stsEnable]
    split <;> simp
  · simp only [setCtx_stsMode, setCtx_stsEnable]
  · rw [responded_setCtx, setCtx_eq]; rfl

/-- What a counting event leaves as it is (R161). -/
theorem countDown_eq (s : State) :
    countDown s = { s with
      stsCurrent := (countDown s).stsCurrent, stsCountFlag := (countDown s).stsCountFlag
      icPending := (countDown s).icPending } := by
  obtain ⟨-, h⟩ | ⟨-, h⟩ | ⟨-, -, h⟩ := countDown_cases s <;> rw [h]

/-- At 0 the counter reloads, with no flag (R161). -/
theorem countDown_of_zero {s : State} (h : s.stsCurrent = 0) :
    countDown s = { s with stsCurrent := s.stsReload } := if_pos h

/-- Away from 0 the counter decrements, and reaching 0 sets the flag and, with `TICKINT` = 1, makes the
timer's source pending (R161). -/
theorem countDown_of_ne_zero {s : State} (h : s.stsCurrent ≠ 0) :
    (countDown s).stsCurrent = s.stsCurrent - 1 ∧
    (countDown s).stsCountFlag = (s.stsCountFlag || s.stsCurrent - 1 == 0) ∧
    ∀ j, j < 240 → (countDown s).icPending.getLsbD j =
      (s.icPending.getLsbD j || (s.stsTickInt && s.stsCurrent - 1 == 0 && j == s.cfg.stsSrc)) := by
  obtain ⟨h0, -⟩ | ⟨h1, he⟩ | ⟨-, h1, he⟩ := countDown_cases s
  · exact absurd h0 h
  · have hz : s.stsCurrent - 1 = 0 := by rw [h1]; rfl
    rw [he, hz]
    refine ⟨rfl, (Bool.or_true _).symm, fun j hj => ?_⟩
    cases s.stsTickInt with
    | false => simp
    | true =>
      simp only [if_true, getLsbD_setBit]
      by_cases hsrc : j = s.cfg.stsSrc
      · rw [hsrc] at hj ⊢; simp [hj]
      · simp [hsrc]
  · have hnz : (s.stsCurrent - 1 == 0) = false := beq_false_of_ne (by bv_omega)
    rw [he, hnz]
    exact ⟨rfl, (Bool.or_false _).symm, fun j _ => by simp⟩

/-- What a counted event makes of a busy-wait: one older under inhibit, else nothing (R166). -/
def BusyWait.counted (inhibit : Bool) : BusyWait → BusyWait := if inhibit then older else id

theorem counted_idle (inhibit : Bool) : BusyWait.counted inhibit .idle = .idle := by
  cases inhibit <;> rfl

theorem counted_spin (inhibit : Bool) (age : Nat) :
    BusyWait.counted inhibit (.spin age) = .spin (if inhibit then age + 1 else age) := by
  cases inhibit <;> rfl

/-- A count event on the selected input with `ENABLE` = 1 counts, and under inhibit makes the busy-waits
older (R161, R166). -/
theorem countEvent_of_selected {s : State} (he : s.stsEnable = true) :
    countEvent s.stsClkSource s =
      countDown (mapBusyWaits (BusyWait.counted s.irqInhibit) s) := by
  rw [countEvent, if_pos (by simp [he])]
  cases s.irqInhibit with
  | false => exact congrArg countDown (mapBusyWaits_id s).symm
  | true => rfl

theorem countEvent_of_unselected {s : State} {input : Bool}
    (h : s.stsEnable = false ∨ s.stsClkSource ≠ input) : countEvent input s = s :=
  if_neg (by obtain h | h := h <;> simp [h])

/-- Settles O50: the scheduled event is the counter's step on the state whose busy-waits have grown older. -/
theorem countEventRule : Obligations.CountEventRule := by
  intro s input rest hn
  have hstep := step_event hn nofun
  rw [agentStep] at hstep
  refine ⟨fun hoff => ?_, fun hen hclk => ?_⟩
  · rwa [countEvent_of_unselected (s := { s with schedule := rest }) hoff] at hstep
  · subst hclk
    rw [countEvent_of_selected (s := { s with schedule := rest }) hen] at hstep
    refine ⟨_, _, hstep, counted_idle _, counted_spin _, by rw [countDown_eq]; rfl,
      fun h0 => ?_, fun hne => ?_⟩
    · rw [countDown_of_zero
        (s := mapBusyWaits (BusyWait.counted s.irqInhibit) { s with schedule := rest }) h0]
      exact ⟨rfl, rfl, rfl⟩
    · obtain ⟨hcurrent, hflag, hpending⟩ := countDown_of_ne_zero
        (s := mapBusyWaits (BusyWait.counted s.irqInhibit) { s with schedule := rest }) hne
      rw [hcurrent]
      refine ⟨?_, hflag, hpending⟩
      change (s.stsCurrent - 1).toNat = _
      bv_omega

end Sys2Proof.Machine
end

section
/-! SUPPORT. The bank registers by number, and the writes of a bank bit by bit (R71, R72). -/

namespace Sys2Proof.Machine

/-- The five banks of eight words, each at its base (R71). -/
theorem regOfNumber_banks {k : Nat} (hk : k < 8) :
    regOfNumber (BitVec.ofNat 16 k) = some (.iser k) ∧
    regOfNumber (BitVec.ofNat 16 (0x0008 + k)) = some (.icer k) ∧
    regOfNumber (BitVec.ofNat 16 (0x0010 + k)) = some (.ispr k) ∧
    regOfNumber (BitVec.ofNat 16 (0x0018 + k)) = some (.icpr k) ∧
    regOfNumber (BitVec.ofNat 16 (0x0020 + k)) = some (.iabr k) := by
  have hiser : (BitVec.ofNat 16 k).toNat = k := Nat.mod_eq_of_lt (by omega)
  have hicer : (BitVec.ofNat 16 (0x0008 + k)).toNat = 0x0008 + k := toNat_ofNat_add (by omega)
  have hispr : (BitVec.ofNat 16 (0x0010 + k)).toNat = 0x0010 + k := toNat_ofNat_add (by omega)
  have hicpr : (BitVec.ofNat 16 (0x0018 + k)).toNat = 0x0018 + k := toNat_ofNat_add (by omega)
  have hiabr : (BitVec.ofNat 16 (0x0020 + k)).toNat = 0x0020 + k := toNat_ofNat_add (by omega)
  refine ⟨?_, ?_, ?_, ?_, ?_⟩
  · rw [regOfNumber_iser (by omega), hiser]
  · rw [regOfNumber_icer (by omega) (by omega), hicer, Nat.add_sub_cancel_left]
  · rw [regOfNumber_ispr (by omega) (by omega), hispr, Nat.add_sub_cancel_left]
  · rw [regOfNumber_icpr (by omega) (by omega), hicpr, Nat.add_sub_cancel_left]
  · rw [regOfNumber_iabr (by omega) (by omega), hiabr, Nat.add_sub_cancel_left]

/-- The set banks act on the sources written as 1 (R72). -/
theorem getLsbD_or_bankMask (v : BitVec 240) (d : Word) (k j : Nat) (hj : j < 240) :
    (v ||| bankMask d k).getLsbD j = (v.getLsbD j || (j / 32 == k && d.getLsbD (j % 32))) := by
  rw [BitVec.getLsbD_or, getLsbD_bankMask d k j hj]

/-- A mask written with ones clears those bits, and no others. -/
theorem getLsbD_and_not {n : Nat} (v m : BitVec n) (j : Nat) (hj : j < n) :
    (v &&& ~~~m).getLsbD j = (v.getLsbD j && !m.getLsbD j) := by
  rw [BitVec.getLsbD_and, BitVec.getLsbD_not, decide_eq_true hj, Bool.true_and]

/-- The clear banks act on the sources written as 1 (R72). -/
theorem getLsbD_and_not_bankMask (v : BitVec 240) (d : Word) (k j : Nat) (hj : j < 240) :
    (v &&& ~~~bankMask d k).getLsbD j
      = (v.getLsbD j && !(j / 32 == k && d.getLsbD (j % 32))) := by
  rw [getLsbD_and_not v _ j hj, getLsbD_bankMask d k j hj]

/-- One bit cleared. -/
theorem getLsbD_setBit_false {n : Nat} (v : BitVec n) (i j : Nat) :
    (setBit v i false).getLsbD j = (v.getLsbD j && j != i) := by
  rw [getLsbD_setBit]
  by_cases hji : j = i
  · subst hji
    by_cases hj : j < n
    · simp [hj]
    · simp [hj, BitVec.getLsbD_of_ge v j (by omega)]
  · simp [hji]

end Sys2Proof.Machine
end

section
/-! The statements of the raw writes of the banks and of the line registers. -/

namespace Sys2Proof.Machine

/-- Settles O20: each bank's write is one mask on `IC_ENABLE` or `IC_PENDING`, and only the clear of pending
bits is followed by the pend step. -/
theorem bankWritesActOnWrittenOnes : Obligations.BankWritesActOnWrittenOnes := by
  intro k data s hk
  obtain ⟨hiser, hicer, hispr, hicpr, hiabr⟩ := regOfNumber_banks hk
  refine ⟨⟨_, exec_regWr hiser data s, rfl, getLsbD_or_bankMask s.icEnable data k⟩,
    ⟨_, exec_regWr hicer data s, rfl, getLsbD_and_not_bankMask s.icEnable data k⟩,
    ⟨_, exec_regWr hispr data s, rfl, getLsbD_or_bankMask s.icPending data k⟩,
    ⟨_, exec_regWr hicpr data s, rfl, fun j hj => ?_⟩, exec_regWr hiabr data s⟩
  have hrepend := getLsbD_pendLevels { s with icPending := s.icPending &&& ~~~bankMask data k } j hj
  rwa [getLsbD_and_not_bankMask s.icPending data k j hj] at hrepend

/-- Settles O22: by the four rows of the map; of the four writes only that of the mask can raise a request. -/
theorem lineRegisterWrites : Obligations.LineRegisterWrites := by
  intro data s
  refine ⟨⟨_, exec_regWr (r := .imr) rfl data s, rfl,
      getLsbD_pendLevels { s with eirMask := data.setWidth 16 }⟩,
    exec_regWr (r := .rtsr) rfl data s, exec_regWr (r := .ftsr) rfl data s,
    ⟨_, exec_regWr (r := .pr) rfl data s, rfl, fun l hl => ?_⟩⟩
  refine (getLsbD_and_not s.eirPend (data.setWidth 16) l hl).trans ?_
  rw [BitVec.getLsbD_setWidth, decide_eq_true hl, Bool.true_and]

end Sys2Proof.Machine
end

section
/-! The statements of the two dispatch commands. -/

namespace Sys2Proof.Machine

theorem exec_eirDispatch {line : Byte} (hl : line.toNat ≤ 15) (s : State) :
    exec (.eirDispatch line) s = .next (dispatchLine line.toNat true s) := by
  simp only [exec, execEirDispatch, onLine_ok hl]

theorem exec_stsDispatch (s : State) : exec .stsDispatch s = .next (dispatchTimer true s) := rfl

theorem dispatchLine_of_empty {l : Nat} {s : State} (h : s.eirCb[l]?.getD 0 = 0) (port : Bool) :
    dispatchLine l port s = finishLine l port s := by
  obtain ⟨hne, -⟩ | ⟨-, he⟩ := dispatchLine_cases l port s
  · exact absurd h hne
  · exact he

theorem dispatchLine_of_callback {l : Nat} {s : State} (h : s.eirCb[l]?.getD 0 ≠ 0) (port : Bool) :
    dispatchLine l port s = invoke (s.eirCb[l]?.getD 0) (.lineCall l port) s := by
  obtain ⟨-, he⟩ | ⟨h0, -⟩ := dispatchLine_cases l port s
  · exact he
  · exact absurd h0 h

/-- Settles O39: an empty slot ends the routine of the line at once, any other invokes its callback. -/
theorem lineDispatchInvokesOrClears : Obligations.LineDispatchInvokesOrClears := by
  intro line s hl
  have hexec := exec_eirDispatch hl s
  refine ⟨fun hempty => ?_, fun h hslot hne => ?_⟩
  · rw [dispatchLine_of_empty hempty, finishLine_eq] at hexec
    exact ⟨_, hexec, rfl, fun l _ => getLsbD_setBit_false s.eirPend line.toNat l⟩
  · subst hslot
    rw [dispatchLine_of_callback hne] at hexec
    obtain ⟨hframe, hctx, hkept⟩ :=
      invoke_eq (s.eirCb[line.toNat]?.getD 0) (.lineCall line.toNat true) s
    exact ⟨_, hexec, hframe, hkept, hctx⟩

/-- Settles O48: an empty slot is answered by the response alone, any other invokes its callback. -/
theorem timerDispatchInvokesOrDoesNothing : Obligations.TimerDispatchInvokesOrDoesNothing := by
  intro s
  have hexec := exec_stsDispatch s
  obtain ⟨hne, he⟩ | ⟨h0, he⟩ := dispatchTimer_cases true s <;> rw [he] at hexec
  · obtain ⟨hframe, hctx, hkept⟩ := invoke_eq s.stsCb (.stsCall true) s
    exact ⟨fun h0 => absurd h0 hne, fun _ => ⟨_, hexec, hframe, hkept, hctx⟩⟩
  · exact ⟨fun _ => hexec, fun hne => absurd h0 hne⟩

end Sys2Proof.Machine
end

section
/-! The completion of every well-formed command. -/

namespace Sys2Proof.Machine

/-- A command's step that ends with status `OK`, to the context that ran it (R190, R191). -/
def RespondsOk (s : State) (r : Result) : Prop :=
  ∃ t v, r = .next t ∧ t.outputs = responded .ok v s

/-- A response goes to the context that issued the command when the nesting is what it was. -/
theorem respond_outputs_of_handlers {s u : State} (hh : u.handlers = s.handlers)
    (ho : u.outputs = s.outputs) (v : Word) : (respond v u).outputs = responded .ok v s := by
  rw [respond_outputs, issuer, hh, ho, responded]

theorem respondsOk_next {s u : State} (hh : u.handlers = s.handlers) (ho : u.outputs = s.outputs)
    (v : Word) : RespondsOk s (.next (respond v u)) :=
  ⟨_, v, rfl, respond_outputs_of_handlers hh ho v⟩

/-! ### Operand forms: a check that passes leaves the command's run -/

section
variable {s : State}

theorem respondsOk_onSource {index : Byte} {run : Nat → State} (hi : index.toNat ≤ 239)
    (hrun : ∀ i, RespondsOk s (.next (run i))) : RespondsOk s (onSource index s run) := by
  rw [onSource_ok hi]; exact hrun _

theorem respondsOk_onLine {line : Byte} {run : Nat → State} (hl : line.toNat ≤ 15)
    (hrun : ∀ l, RespondsOk s (.next (run l))) : RespondsOk s (onLine line s run) := by
  rw [onLine_ok hl]; exact hrun _

theorem respondsOk_onMode {mode : BitVec 3} {run : GroupingMode → State} (hm : mode.toNat ≤ 4)
    (hrun : ∀ m, RespondsOk s (.next (run m))) : RespondsOk s (onMode mode s run) := by
  obtain ⟨m, hsome, -⟩ := modeOfNumber_of_le hm
  rw [onMode, hsome]; exact hrun m

theorem edgeOfCode_of_le {edge : BitVec 2} (h : edge.toNat ≤ 2) : ∃ e, edgeOfCode edge = some e := by
  have hs : ∀ b : BitVec 2, b.toNat ≤ 2 → (edgeOfCode b).isSome := by decide
  exact Option.isSome_iff_exists.mp (hs edge h)

theorem respondsOk_onEdgeLine {line : Byte} {edge : BitVec 2} {run : Edge → Nat → State}
    (he : edge.toNat ≤ 2) (hl : line.toNat ≤ 15) (hrun : ∀ e l, RespondsOk s (.next (run e l))) :
    RespondsOk s (onEdgeLine line edge s run) := by
  obtain ⟨e, hsome⟩ := edgeOfCode_of_le he
  simp only [onEdgeLine, hsome]
  exact respondsOk_onLine hl (hrun e)

theorem respondsOk_onReg {n : Half} {run : Reg → State} (hn : regMapped n = true)
    (hrun : ∀ r, RespondsOk s (.next (run r))) : RespondsOk s (onReg n s run) := by
  obtain ⟨r, hsome, -⟩ := raw_access hn
  rw [onReg, hsome]; exact hrun r

end

/-! ### Register accesses change no context -/

theorem afterRead_handlers (r : Reg) (s : State) : (afterRead r s).handlers = s.handlers := by
  rw [afterRead_eq]

theorem writePricfg_handlers (v : Word) (s : State) : (writePricfg v s).handlers = s.handlers := by
  unfold writePricfg; split <;> rfl

theorem memWrite_handlers (r : Reg) (v : Word) (s : State) :
    (memWrite r v s).handlers = s.handlers := by
  cases r with
  | pricfg => exact writePricfg_handlers v s
  | eirCfg r => rw [memWrite, pendLevels_handlers, detectLines_eq]; rfl
  | _ => rfl

theorem respondsOk_startJob (m : JobMode) (ticks : Word) (c : CbRef) (s : State) :
    RespondsOk s (.next (respond 0 (startJob m ticks c s))) := by
  rw [startJob_eq]; exact respondsOk_next rfl rfl 0

/-- The commands that neither wait nor dispatch respond `OK` in their own step. -/
theorem respondsOk_exec {i : Instr} (hlegal : i.legal = true) (hrange : i.inRange = true)
    (hline : ∀ line, i ≠ .eirDispatch line) (htimer : i ≠ .stsDispatch)
    (hwait : ∀ ticks, i ≠ .stsBusyWait ticks) (s : State) : RespondsOk s (exec i s) := by
  unfold exec
  cases i with
  | regRd n =>
    exact respondsOk_onReg hlegal fun r =>
      respondsOk_next (afterRead_handlers r s) (silent_afterRead r s).outputs _
  | regWr n data =>
    exact respondsOk_onReg hlegal fun r =>
      respondsOk_next (memWrite_handlers r data s) (silent_memWrite r data s).outputs 0
  | icEnable | icDisable | icSetPend | icClrPend | icIsActive | icSetPrio =>
    exact respondsOk_onSource (of_decide_eq_true hrange) fun _ => respondsOk_next rfl rfl _
  | icSetGrouping mode =>
    refine respondsOk_onMode (of_decide_eq_true hlegal) fun m => respondsOk_next ?_ ?_ 0
    · exact memWrite_handlers .pricfg (groupingWord s.cfg m) s
    · exact (silent_memWrite .pricfg (groupingWord s.cfg m) s).outputs
  | icEncPrio =>
    exact respondsOk_onMode (of_decide_eq_true hlegal) fun _ => respondsOk_next rfl rfl _
  | eirSetPort | eirSetTrigger | eirRegCb =>
    exact respondsOk_onLine (of_decide_eq_true hrange) fun _ => respondsOk_next rfl rfl 0
  | eirSetEdge =>
    exact respondsOk_onEdgeLine (of_decide_eq_true hlegal) (of_decide_eq_true hrange) fun _ _ =>
      respondsOk_next rfl rfl 0
  | stsInit =>
    refine respondsOk_next ?_ ?_ 0
    · exact beforeFieldWrite_handlers s
    · exact beforeFieldWrite_outputs s
  | stsElapsed | stsRemaining => exact respondsOk_next rfl rfl _
  | stsSetSingle ticks callback => exact respondsOk_startJob .single ticks callback s
  | stsSetPeriodic ticks callback => exact respondsOk_startJob .periodic ticks callback s
  | stsStop =>
    exact respondsOk_next (setTimerEnable_handlers false s) (setTimerEnable_outputs false s) 0
  | eirDispatch line => exact absurd rfl (hline line)
  | stsDispatch => exact absurd rfl htimer
  | stsBusyWait ticks => exact absurd rfl (hwait ticks)

/-- Settles O9: a dispatch by its slot, the busy-wait by its start step, and every other command responds. -/
theorem wellFormedCommandCompletes : Obligations.WellFormedCommandCompletes := by
  intro i s hwf
  obtain ⟨hlegal, hrange⟩ := Bool.and_eq_true_iff.mp hwf
  by_cases hline : ∃ line, i = .eirDispatch line
  · obtain ⟨line, rfl⟩ := hline
    refine ⟨_, exec_eirDispatch (of_decide_eq_true hrange) s, ?_⟩
    obtain ⟨hne, he⟩ | ⟨-, he⟩ := dispatchLine_cases line.toNat true s <;> rw [he]
    · exact .inr (.inl ⟨line, rfl, hne, by rw [(invoke_eq _ _ s).1]⟩)
    · exact .inl ⟨0, by rw [finishLine_eq]; rfl⟩
  by_cases htimer : i = .stsDispatch
  · subst htimer
    refine ⟨_, exec_stsDispatch s, ?_⟩
    obtain ⟨hne, he⟩ | ⟨-, he⟩ := dispatchTimer_cases true s <;> rw [he]
    · exact .inr (.inr (.inl ⟨rfl, hne, by rw [(invoke_eq _ _ s).1]⟩))
    · exact .inl ⟨0, rfl⟩
  by_cases hwait : ∃ ticks, i = .stsBusyWait ticks
  · obtain ⟨ticks, rfl⟩ := hwait
    exact ⟨busyWaitStart ticks s, rfl, .inr (.inr (.inr
      ⟨ticks, rfl, (silent_busyWaitStart ticks s).outputs, congrArg Ctx.bw (ctx_setCtx _ _)⟩))⟩
  obtain ⟨t, v, he, hout⟩ := respondsOk_exec hlegal hrange (not_exists.mp hline) htimer
    (not_exists.mp hwait) s
  exact ⟨t, he, .inl ⟨v, hout⟩⟩

end Sys2Proof.Machine
end

section
/-! SUPPORT. The fields of a command word that carry an operand narrower than the field, and the decoder on
the fields of a command (R91 to R95). -/

namespace Sys2Proof

/-! ### Fields and their parts -/

/-- A field whose upper bits are 0 is its lower bits, extended. -/
theorem zero_append_extractLsb' {m k : Nat} (x : BitVec (m + k)) (h : x.extractLsb' k m = 0) :
    0#m ++ x.extractLsb' 0 k = x := by
  have hjoin := extractLsb'_append_extractLsb' x 0 m k
  rw [Nat.zero_add, h, extractLsb'_whole] at hjoin
  exact hjoin

theorem extractLsb'_append_left {m k : Nat} (x : BitVec m) (y : BitVec k) :
    (x ++ y).extractLsb' k m = x := by
  rw [extractLsb'_append_high _ _ _ _ le_rfl, Nat.sub_self, extractLsb'_whole]

theorem extractLsb'_append_right {m k : Nat} (x : BitVec m) (y : BitVec k) :
    (x ++ y).extractLsb' 0 k = y := by
  rw [extractLsb'_append_low _ _ _ _ (Nat.zero_add k).le, extractLsb'_whole]

theorem highByte_append (x y : Byte) : highByte (x ++ y) = x := extractLsb'_append_left x y

theorem lowByte_append (x y : Byte) : lowByte (x ++ y) = y := extractLsb'_append_right x y

/-- The bit of a trigger mode carries the mode (R95). -/
theorem triggerOfBit_bit (mode : TriggerMode) : triggerOfBit (mode.bit.getLsbD 0) = mode := by
  cases mode <;> rfl

/-- The trigger mode that a bit names is carried by that bit (R95). -/
theorem bit_triggerOfBit {n : Nat} (x : BitVec n) :
    (triggerOfBit (x.getLsbD 0)).bit = x.extractLsb' 0 1 := by
  apply BitVec.eq_of_getLsbD_eq
  intro j hj
  obtain rfl : j = 0 := by omega
  cases h : x.getLsbD 0 <;> simp [h, triggerOfBit, TriggerMode.bit]

/-- The field `C` of `EIR.SETTRIGGER`: the edge above the trigger mode's bit, and zeros above both (R95). -/
theorem triggerField_of_zero {c : Byte} (h : c.extractLsb' 3 5 = 0) :
    0#5 ++ (c.extractLsb' 1 2 ++ (triggerOfBit (c.getLsbD 0)).bit) = c := by
  rw [bit_triggerOfBit, extractLsb'_append_extractLsb' c 0 2 1]
  exact zero_append_extractLsb' (m := 5) (k := 3) c h

theorem trigger_of_triggerField (edge : BitVec 2) (mode : TriggerMode) :
    triggerOfBit ((0#5 ++ (edge ++ mode.bit)).getLsbD 0) = mode := by
  rw [BitVec.getLsbD_append, if_pos (by decide), BitVec.getLsbD_append, if_pos (by decide),
    triggerOfBit_bit]

theorem edge_of_triggerField (edge : BitVec 2) (mode : TriggerMode) :
    (0#5 ++ (edge ++ mode.bit)).extractLsb' 1 2 = edge := by
  rw [extractLsb'_append_low _ _ _ _ (by decide)]
  exact extractLsb'_append_left edge mode.bit

/-! ### The decoder on fields -/

theorem whenZero_eq_ok_iff {ok : Bool} {i j : Instr} :
    whenZero ok i = .ok j ↔ ok = true ∧ i = j := by
  cases ok <;> simp [whenZero]

/-- Each operand is read from where the encoder puts it, and the encoder leaves the must-be-zero bits 0. -/
theorem decodeFields_fields (i : Instr) : decodeFields i.fields = .ok i := by
  cases i with
  | regRd | regWr | eirRegCb | stsSetSingle | stsSetPeriodic =>
    simp [decodeFields, Instr.fields, Instr.opcode, whenZero, Fields.n, Fields.h,
      highByte_append_lowByte]
  | icSetGrouping mode | icEncPrio mode =>
    simp [decodeFields, Instr.fields, Instr.opcode, whenZero, extractLsb'_append_left 0#5 mode,
      extractLsb'_append_right 0#5 mode]
  | eirSetPort line sel =>
    simp [decodeFields, Instr.fields, Instr.opcode, whenZero, extractLsb'_append_left 0#4 sel,
      extractLsb'_append_right 0#4 sel]
  | eirSetTrigger line mode edge =>
    simp [decodeFields, Instr.fields, Instr.opcode, whenZero, -BitVec.getLsbD_eq_getElem,
      extractLsb'_append_left 0#5 (edge ++ mode.bit), trigger_of_triggerField edge mode,
      edge_of_triggerField edge mode]
  | eirSetEdge line edge =>
    simp [decodeFields, Instr.fields, Instr.opcode, whenZero, extractLsb'_append_left 0#6 edge,
      extractLsb'_append_right 0#6 edge]
  | icEnable | icDisable | icSetPend | icClrPend | icIsActive | icSetPrio | eirDispatch | stsInit
  | stsBusyWait | stsElapsed | stsRemaining | stsStop | stsDispatch => rfl

/-- Accepted fields are those of the command read: the must-be-zero bits are 0, and the operands hold every
other bit. The cases are the decoder's rows in its order; those with the same bits to be 0 stand together. -/
theorem fields_of_decodeFields {f : Fields} {i : Instr} (h : decodeFields f = .ok i) :
    i.fields = f := by
  obtain ⟨opc, c, b, a, w⟩ := f
  unfold decodeFields at h
  split at h <;> rename_i hopc
  case h_24 => cases h
  all_goals
    obtain ⟨-, rfl⟩ := BitVec.toNat_eq_nat.mp hopc
    obtain ⟨hzero, rfl⟩ := whenZero_eq_ok_iff.mp h
    simp only [Bool.and_eq_true, beq_iff_eq, and_assoc] at hzero
  case h_1 =>
    obtain ⟨rfl, rfl⟩ := hzero
    simp only [Instr.fields, Fields.n, highByte_append, lowByte_append]; rfl
  case h_2 | h_14 | h_20 | h_21 =>
    subst hzero
    simp only [Instr.fields, Fields.n, Fields.h, highByte_append, lowByte_append]; rfl
  case h_9 => subst hzero; rfl
  case h_8 =>
    obtain ⟨ha, rfl, rfl, rfl⟩ := hzero
    exact congrArg (Fields.mk _ _ _ · _) (zero_append_extractLsb' (m := 5) (k := 3) a ha)
  case h_10 =>
    obtain ⟨ha, rfl⟩ := hzero
    exact congrArg (Fields.mk _ _ _ · _) (zero_append_extractLsb' (m := 5) (k := 3) a ha)
  case h_11 =>
    obtain ⟨hb, rfl, rfl⟩ := hzero
    exact congrArg (Fields.mk _ _ · _ _) (zero_append_extractLsb' (m := 4) (k := 4) b hb)
  case h_12 =>
    obtain ⟨rfl, hc, rfl⟩ := hzero
    exact congrArg (Fields.mk _ · _ _ _) (triggerField_of_zero hc)
  case h_13 =>
    obtain ⟨rfl, hc, rfl⟩ := hzero
    exact congrArg (Fields.mk _ · _ _ _) (zero_append_extractLsb' (m := 6) (k := 2) c hc)
  case h_3 | h_4 | h_5 | h_6 | h_7 | h_15 | h_17 => obtain ⟨rfl, rfl, rfl⟩ := hzero; rfl
  case h_16 | h_18 | h_19 | h_22 | h_23 => obtain ⟨rfl, rfl, rfl, rfl⟩ := hzero; rfl

theorem decodeFields_eq_ok_iff {f : Fields} {i : Instr} : decodeFields f = .ok i ↔ i.fields = f :=
  ⟨fields_of_decodeFields, fun h => h ▸ decodeFields_fields i⟩

/-- A command is accepted from its own word, and from no other. -/
theorem decode_eq_ok_iff {cw : CmdWord} {i : Instr} : decode cw = .ok i ↔ encode i = cw := by
  rw [decode, decodeFields_eq_ok_iff, encode]
  exact ⟨fun h => by rw [h, Fields.toWord_ofWord], fun h => by rw [← h, Fields.ofWord_toWord]⟩

end Sys2Proof
end

section
/-! SUPPORT. The rows of the opcode map, field by field (R93, R94), and what they say of the decoder. -/

namespace Sys2Proof

theorem Fields.ofWord_and (x y : CmdWord) : ofWord (x &&& y) =
    ⟨(ofWord x).opc &&& (ofWord y).opc, (ofWord x).c &&& (ofWord y).c,
      (ofWord x).b &&& (ofWord y).b, (ofWord x).a &&& (ofWord y).a,
      (ofWord x).w &&& (ofWord y).w⟩ := by
  simp only [ofWord, BitVec.extractLsb'_and]

theorem Fields.ofWord_inj {x y : CmdWord} : ofWord x = ofWord y ↔ x = y :=
  (Function.LeftInverse.injective toWord_ofWord).eq_iff

/-- A row hits a word field by field (R93). -/
theorem OpcodeRow.hits_iff (r : OpcodeRow) (cw : CmdWord) : r.hits cw = true ↔
    (Fields.ofWord cw).opc &&& (Fields.ofWord r.mask).opc = (Fields.ofWord r.matchBits).opc ∧
    (Fields.ofWord cw).c &&& (Fields.ofWord r.mask).c = (Fields.ofWord r.matchBits).c ∧
    (Fields.ofWord cw).b &&& (Fields.ofWord r.mask).b = (Fields.ofWord r.matchBits).b ∧
    (Fields.ofWord cw).a &&& (Fields.ofWord r.mask).a = (Fields.ofWord r.matchBits).a ∧
    (Fields.ofWord cw).w &&& (Fields.ofWord r.mask).w = (Fields.ofWord r.matchBits).w := by
  rw [OpcodeRow.hits, beq_iff_eq, ← Fields.ofWord_inj, Fields.ofWord_and, Fields.mk.injEq]

theorem and_wholeByte (x : Byte) : x &&& 255#8 = x := BitVec.and_allOnes

theorem and_wholeWord (x : Word) : x &&& 4294967295#32 = x := BitVec.and_allOnes

theorem and_noByte (x : Byte) : x &&& 0#8 = 0#8 := BitVec.and_zero

theorem and_noWord (x : Word) : x &&& 0#32 = 0#32 := BitVec.and_zero

theorem and_upper4_eq_zero_iff : ∀ x : Byte, x &&& 240#8 = 0#8 ↔ x.extractLsb' 4 4 = 0#4 := by
  decide

theorem and_upper5_eq_zero_iff : ∀ x : Byte, x &&& 248#8 = 0#8 ↔ x.extractLsb' 3 5 = 0#5 := by
  decide

theorem and_upper6_eq_zero_iff : ∀ x : Byte, x &&& 252#8 = 0#8 ↔ x.extractLsb' 2 6 = 0#6 := by
  decide

/-- The bits that the row of a command masks and that are no operation code are 0 (R93, R94). -/
def Instr.MustBeZero (f : Fields) : Instr → Prop
  | .regRd _ => f.c = 0#8 ∧ f.w = 0#32
  | .regWr _ _ => f.c = 0#8
  | .icEnable _ | .icDisable _ | .icSetPend _ | .icClrPend _ | .icIsActive _ | .eirDispatch _ =>
    f.c = 0#8 ∧ f.b = 0#8 ∧ f.w = 0#32
  | .icSetGrouping _ => f.c = 0#8 ∧ f.b = 0#8 ∧ f.a.extractLsb' 3 5 = 0#5 ∧ f.w = 0#32
  | .icSetPrio _ _ _ | .eirRegCb _ _ => f.w = 0#32
  | .icEncPrio _ _ _ => f.a.extractLsb' 3 5 = 0#5 ∧ f.w = 0#32
  | .eirSetPort _ _ => f.c = 0#8 ∧ f.b.extractLsb' 4 4 = 0#4 ∧ f.w = 0#32
  | .eirSetTrigger _ _ _ => f.c.extractLsb' 3 5 = 0#5 ∧ f.b = 0#8 ∧ f.w = 0#32
  | .eirSetEdge _ _ => f.c.extractLsb' 2 6 = 0#6 ∧ f.b = 0#8 ∧ f.w = 0#32
  | .stsBusyWait _ => f.c = 0#8 ∧ f.b = 0#8 ∧ f.a = 0#8
  | .stsSetSingle _ _ | .stsSetPeriodic _ _ => f.a = 0#8
  | .stsInit | .stsElapsed | .stsRemaining | .stsStop | .stsDispatch =>
    f.c = 0#8 ∧ f.b = 0#8 ∧ f.a = 0#8 ∧ f.w = 0#32

/-- What the mask and match words of R94 say of the fields of a word. -/
theorem row_hits_iff (i : Instr) (cw : CmdWord) : i.row.hits cw = true ↔
    (Fields.ofWord cw).opc = i.opcode ∧ i.MustBeZero (Fields.ofWord cw) := by
  rw [OpcodeRow.hits_iff]
  generalize Fields.ofWord cw = f
  cases i <;> dsimp only [Instr.row, Fields.ofWord] <;>
    simp only [BitVec.reduceExtractLsb', and_wholeByte, and_wholeWord, and_noByte, and_noWord,
      and_upper4_eq_zero_iff, and_upper5_eq_zero_iff, and_upper6_eq_zero_iff, true_and,
      and_true] <;> rfl

theorem mustBeZero_fields (i : Instr) : i.MustBeZero i.fields := by
  cases i with
  | icSetGrouping mode => exact ⟨rfl, rfl, extractLsb'_append_left 0#5 mode, rfl⟩
  | icEncPrio mode => exact ⟨extractLsb'_append_left 0#5 mode, rfl⟩
  | eirSetPort line sel => exact ⟨rfl, extractLsb'_append_left 0#4 sel, rfl⟩
  | eirSetTrigger line mode edge =>
    exact ⟨extractLsb'_append_left 0#5 (edge ++ mode.bit), rfl, rfl⟩
  | eirSetEdge line edge => exact ⟨extractLsb'_append_left 0#6 edge, rfl, rfl⟩
  | regWr | icSetPrio | eirRegCb | stsSetSingle | stsSetPeriodic => rfl
  | regRd => exact ⟨rfl, rfl⟩
  | icEnable | icDisable | icSetPend | icClrPend | icIsActive | eirDispatch | stsBusyWait =>
    exact ⟨rfl, rfl, rfl⟩
  | stsInit | stsElapsed | stsRemaining | stsStop | stsDispatch => exact ⟨rfl, rfl, rfl, rfl⟩

theorem opc_fields (i : Instr) : i.fields.opc = i.opcode := by cases i <;> rfl

theorem row_hits_encode (i : Instr) : i.row.hits (encode i) = true := by
  rw [row_hits_iff, ofWord_encode]
  exact ⟨opc_fields i, mustBeZero_fields i⟩

theorem row_mem_opcodeMap (i : Instr) : i.row ∈ opcodeMap := by
  cases i <;> simp [opcodeMap, oneOfEachRow, Instr.row]

/-- Fields with the operation code of a row and its must-be-zero bits 0 are read as a command of that row. -/
theorem decodeFields_of_mustBeZero {i : Instr} {f : Fields} (hopc : f.opc = i.opcode)
    (hzero : i.MustBeZero f) : ∃ j, decodeFields f = .ok j ∧ j.row = i.row := by
  obtain ⟨opc, c, b, a, w⟩ := f
  subst hopc
  cases i with
  | icSetGrouping =>
    obtain ⟨rfl, rfl, ha, rfl⟩ := hzero
    exact ⟨_, whenZero_eq_ok_iff.mpr ⟨by simp [ha], rfl⟩, rfl⟩
  | icEncPrio =>
    obtain ⟨ha, rfl⟩ := hzero
    exact ⟨_, whenZero_eq_ok_iff.mpr ⟨by simp [ha], rfl⟩, rfl⟩
  | eirSetPort =>
    obtain ⟨rfl, hb, rfl⟩ := hzero
    exact ⟨_, whenZero_eq_ok_iff.mpr ⟨by simp [hb], rfl⟩, rfl⟩
  | eirSetTrigger | eirSetEdge =>
    obtain ⟨hc, rfl, rfl⟩ := hzero
    exact ⟨_, whenZero_eq_ok_iff.mpr ⟨by simp [hc], rfl⟩, rfl⟩
  | regWr | icSetPrio | eirRegCb | stsSetSingle | stsSetPeriodic =>
    cases hzero; exact ⟨_, rfl, rfl⟩
  | regRd => obtain ⟨rfl, rfl⟩ := hzero; exact ⟨_, rfl, rfl⟩
  | icEnable | icDisable | icSetPend | icClrPend | icIsActive | eirDispatch | stsBusyWait =>
    obtain ⟨rfl, rfl, rfl⟩ := hzero; exact ⟨_, rfl, rfl⟩
  | stsInit | stsElapsed | stsRemaining | stsStop | stsDispatch =>
    obtain ⟨rfl, rfl, rfl, rfl⟩ := hzero; exact ⟨_, rfl, rfl⟩

end Sys2Proof
end

section
/-! The statements of the encoding, of the words and operand values that the block rejects, and of
`EIR.SETTRIGGER`. -/

namespace Sys2Proof.Machine

/-! ### Encoding -/

/-- Settles O1: a command is read from its own fields, operand by operand. -/
theorem decodeInvertsEncode : Obligations.DecodeInvertsEncode :=
  fun _ => decode_eq_ok_iff.mpr rfl

/-- Settles O2: the operands read and the zeros checked are all the bits of the word. -/
theorem encodeInvertsDecode : Obligations.EncodeInvertsDecode :=
  fun _ _ => decode_eq_ok_iff.mp

/-- Settles O3: an accepted word is the encoding of its command, which its row hits; and the mask of a row
compares just the operation code and the bits that the decoder wants 0. -/
theorem decoderAgreesWithOpcodeMap : Obligations.DecoderAgreesWithOpcodeMap := by
  refine fun cw => ⟨fun i hdecode => ⟨row_mem_opcodeMap i, ?_⟩, fun r hr hhits => ?_⟩
  · rw [← decode_eq_ok_iff.mp hdecode]
    exact row_hits_encode i
  · obtain ⟨i, -, rfl⟩ := List.mem_map.mp hr
    obtain ⟨hopc, hzero⟩ := (row_hits_iff i cw).mp hhits
    exact decodeFields_of_mustBeZero hopc hzero

/-- Settles O4: four of the words are the encodings of their commands, and two are rejected. -/
theorem printedWordsDecode : Obligations.PrintedWordsDecode :=
  ⟨decode_eq_ok_iff.mpr (by decide), decode_eq_ok_iff.mpr (by decide),
    decode_eq_ok_iff.mpr (by decide), decode_eq_ok_iff.mpr (by decide), rfl, rfl⟩

/-! ### Rejected words and operand values -/

/-- A word that no row hits is rejected, whatever the reason (R97). -/
theorem decode_error_of_no_row {cw : CmdWord} (h : ∀ r ∈ opcodeMap, r.hits cw = false) :
    ∃ e, decode cw = .error e := by
  cases hd : decode cw with
  | error e => exact ⟨e, rfl⟩
  | ok i =>
    obtain ⟨hmem, hhits⟩ := (decoderAgreesWithOpcodeMap cw).1 i hd
    exact absurd hhits (by simp [h i.row hmem])

theorem fetch_of_undecodable {s : State} {cw : CmdWord} {e : DecodeError} {rest : List Event}
    (h : s.schedule = .command cw :: rest) (hc : canIssue s = true) (hd : decode cw = .error e) :
    fetch s = .illegal := by
  simp only [fetch, h, hc, hd, if_true]

theorem step_of_illegal {s : State} (hf : fetch s = .illegal) :
    step s = .next (settle (raise .illegalCommand (dropScheduled s))) := by
  simp only [step, hf, settleResult]

theorem raise_eq (e : Status) (s : State) : raise e s = { s with outputs := responded e 0 s } := rfl

/-- Settles O6: the word reaches no command, and its step is the response alone. -/
theorem undecodableWordOnlyResponds : Obligations.UndecodableWordOnlyResponds := by
  intro s cw rest hs hissue hrow
  obtain ⟨e, hd⟩ := decode_error_of_no_row hrow
  rw [step_of_illegal (fetch_of_undecodable hs hissue hd), dropScheduled_eq hs, raise_eq]
  rfl

theorem onReg_of_unmapped {n : Half} (h : regMapped n = false) (s : State) (run : Reg → State) :
    onReg n s run = .next (raise .illegalCommand s) := by
  have hnone : regOfNumber n = none :=
    Option.not_isSome_iff_eq_none.mp (by simp [regOfNumber_isSome, h])
  rw [onReg, hnone]

theorem onMode_of_reserved {mode : BitVec 3} (h : ¬ mode.toNat ≤ 4) (s : State)
    (run : GroupingMode → State) : onMode mode s run = .next (raise .illegalCommand s) := by
  have hnone : ∀ m : BitVec 3, ¬ m.toNat ≤ 4 → modeOfNumber m = none := by decide
  rw [onMode, hnone mode h]

/-- A reserved edge code is rejected before the line number is looked at (R194). -/
theorem onEdgeLine_of_reserved {edge : BitVec 2} (h : ¬ edge.toNat ≤ 2) (line : Byte) (s : State)
    (run : Edge → Nat → State) : onEdgeLine line edge s run = .next (raise .illegalCommand s) := by
  have hnone : ∀ e : BitVec 2, ¬ e.toNat ≤ 2 → edgeOfCode e = none := by decide
  rw [onEdgeLine, hnone edge h]

/-- Only a register number, a mode number and an edge code can be illegal, and each is checked first. -/
theorem exec_of_not_legal {i : Instr} (h : i.legal = false) (s : State) :
    exec i s = .next (raise .illegalCommand s) := by
  unfold exec
  cases i with
  | regRd | regWr => exact onReg_of_unmapped h _ _
  | icSetGrouping | icEncPrio => exact onMode_of_reserved (of_decide_eq_false h) _ _
  | eirSetEdge line => exact onEdgeLine_of_reserved (of_decide_eq_false h) line _ _
  | _ => cases h

/-- Settles O7: each kind of illegal operand raises `IllegalCommand` before anything else is looked at. -/
theorem illegalCommandWinsAndOnlyResponds : Obligations.IllegalCommandWinsAndOnlyResponds :=
  ⟨fun _ s h => (exec_of_not_legal h s).trans (congrArg _ (raise_eq _ s)), rfl, rfl⟩

/-! ### `EIR.SETTRIGGER` -/

theorem exec_eirSetTrigger {line : Byte} (hl : line.toNat ≤ 15) (mode : TriggerMode)
    (edge : BitVec 2) (s : State) :
    exec (.eirSetTrigger line mode edge) s = .next (respond 0 (pendLevels { s with
      eirMask := setBit s.eirMask line.toNat (mode == .enabled) })) := by
  simp only [exec, execEirSetTrigger, onLine_ok hl]

/-- Settles O35: the write of the mask bit, and the pend step after it. -/
theorem setTriggerWritesMaskBit : Obligations.SetTriggerWritesMaskBit := by
  intro line mode edge s hl
  refine ⟨_, exec_eirSetTrigger hl mode edge s, rfl, fun l h16 => ?_, fun j hj => ?_⟩
  · refine (getLsbD_setBit s.eirMask line.toNat l (mode == .enabled)).trans ?_
    simp only [h16, and_true]
  · exact getLsbD_pendLevels { s with
      eirMask := setBit s.eirMask line.toNat (mode == .enabled) } j hj

end Sys2Proof.Machine
end

section
/-! SUPPORT. One bit of a bank as the mask of its word, and the priority encoder for operands of any size. -/

namespace Sys2Proof.Machine

/-- One bit set. -/
theorem getLsbD_setBit_true {n : Nat} (v : BitVec n) (i j : Nat) (hj : j < n) :
    (setBit v i true).getLsbD j = (v.getLsbD j || j == i) := by
  rw [getLsbD_setBit]
  by_cases hji : j = i
  · subst hji; simp [hj]
  · simp [hji]

/-- The bit of source `i` is bit `i mod 32` of word `i div 32` of its bank (R71). -/
theorem bankMask_one_shiftLeft (i : Nat) : bankMask (1#32 <<< (i % 32)) (i / 32) = 1#240 <<< i := by
  apply BitVec.eq_of_getLsbD_eq
  intro j hj
  rw [getLsbD_bankMask _ _ j hj, getLsbD_one_shiftLeft _ _ (Nat.mod_lt j (by decide)),
    getLsbD_one_shiftLeft _ _ hj, Bool.eq_iff_iff]
  simp only [Bool.and_eq_true, beq_iff_eq, decide_eq_true_eq]
  omega

theorem setBit_true_eq_or_bankMask (v : BitVec 240) (i : Nat) :
    setBit v i true = v ||| bankMask (1#32 <<< (i % 32)) (i / 32) := by
  rw [bankMask_one_shiftLeft]; rfl

theorem setBit_false_eq_and_not_bankMask (v : BitVec 240) (i : Nat) :
    setBit v i false = v &&& ~~~bankMask (1#32 <<< (i % 32)) (i / 32) := by
  rw [bankMask_one_shiftLeft]; rfl

/-- Below the group lie the bits of the subgroup and the low nibble (R127). -/
theorem eight_sub_groupWidth (m : GroupingMode) : 8 - groupWidth m = subWidth m + 4 := by
  cases m <;> rfl

/-- An operand shifted by at most its own width loses no bit in 16. -/
theorem toNat_setWidth_shiftLeft (x : Byte) {k : Nat} (hk : k ≤ 8) :
    (x.setWidth 16 <<< k).toNat = x.toNat * 2 ^ k := by
  have hlt : x.toNat * 2 ^ k < 2 ^ 16 := by
    rw [show 2 ^ 16 = 2 ^ 8 * 2 ^ 8 from rfl]
    exact Nat.mul_lt_mul_of_lt_of_le x.isLt (Nat.pow_le_pow_right (by decide) hk) (by decide)
  rw [BitVec.toNat_shiftLeft, BitVec.toNat_setWidth_of_le (by decide), Nat.shiftLeft_eq,
    Nat.mod_eq_of_lt hlt]

/-- The reading `ENC_OVERFLOW` = overlay for operands of any size, as a number: both operands are multiples of
16 in their places, so the mask of the upper nibble drops nothing (`93_implementation_defined.md` Part 2). -/
theorem toNat_encodePriority_overlay_or (m : GroupingMode) (g u : Byte) :
    (encodePriority .overlay m g u).toNat =
      (g.toNat * 2 ^ (8 - groupWidth m) ||| u.toNat * 16) % 256 := by
  have hjoin : ((g.setWidth 16 <<< (8 - groupWidth m) ||| u.setWidth 16 <<< 4).setWidth 8).toNat
      = (g.toNat * 2 ^ (8 - groupWidth m) ||| u.toNat * 16) % 256 := by
    rw [BitVec.toNat_setWidth, BitVec.toNat_or, toNat_setWidth_shiftLeft g (Nat.sub_le _ _),
      toNat_setWidth_shiftLeft u (by decide)]
    rfl
  have hnibble : g.toNat * 2 ^ (8 - groupWidth m) ||| u.toNat * 16
      = 16 * (g.toNat * 2 ^ subWidth m ||| u.toNat) := by
    have hdistrib := Nat.shiftLeft_or_distrib (a := g.toNat * 2 ^ subWidth m) (b := u.toNat) (i := 4)
    rw [Nat.shiftLeft_eq, Nat.shiftLeft_eq, Nat.shiftLeft_eq, Nat.mul_assoc, ← pow_add] at hdistrib
    rw [eight_sub_groupWidth, Nat.mul_comm 16]
    exact hdistrib.symm
  have hmask : ∀ e : Byte, e.toNat % 16 = 0 → e &&& 0xF0 = e := by decide
  rw [encodePriority, hmask _ (by omega), hjoin]

end Sys2Proof.Machine
end

section
/-! The statements of the Interrupt Controller's commands. -/

namespace Sys2Proof.Machine

/-! ### What each command answers for operands inside their ranges -/

section
variable {index : Byte} (hi : index.toNat ≤ 239) (s : State)
include hi

theorem exec_icEnable : exec (.icEnable index) s =
    .next (respond 0 { s with icEnable := setBit s.icEnable index.toNat true }) := by
  simp only [exec, execIcEnable, onSource_ok hi]

theorem exec_icDisable : exec (.icDisable index) s =
    .next (respond 0 { s with icEnable := setBit s.icEnable index.toNat false }) := by
  simp only [exec, execIcDisable, onSource_ok hi]

theorem exec_icSetPend : exec (.icSetPend index) s =
    .next (respond 0 { s with icPending := setBit s.icPending index.toNat true }) := by
  simp only [exec, execIcSetPend, onSource_ok hi]

theorem exec_icClrPend : exec (.icClrPend index) s =
    .next (respond 0 (pendLevels { s with icPending := setBit s.icPending index.toNat false })) := by
  simp only [exec, execIcClrPend, onSource_ok hi]

theorem exec_icIsActive : exec (.icIsActive index) s =
    .next (respond (if s.icActive.getLsbD index.toNat then 1 else 0) s) := by
  simp only [exec, execIcIsActive, onSource_ok hi]

end

section
variable {mode : BitVec 3} {m : GroupingMode} (hm : modeOfNumber mode = some m) (s : State)
include hm

theorem exec_icSetGrouping : exec (.icSetGrouping mode) s =
    .next (respond 0 { writePricfg (groupingWord s.cfg m) s with icGMode := m }) := by
  simp only [exec, execIcSetGrouping, onMode, hm, memWrite]

theorem exec_icEncPrio (group subgroup : Byte) : exec (.icEncPrio mode group subgroup) s =
    .next (respond ((encodePriority s.cfg.encOverflow m group subgroup).setWidth 32) s) := by
  simp only [exec, execIcEncPrio, onMode, hm]

end

/-- A write of `IC_PRICFG` reaches the selector at most (R26). -/
theorem writePricfg_eq (v : Word) (s : State) :
    writePricfg v s = { s with icGroupSel := (writePricfg v s).icGroupSel } := by
  unfold writePricfg; split <;> rfl

/-! ### The bank commands -/

/-- Settles O26: one bit of a bank is written, and the pend step follows the clear of a pending bit. -/
theorem bankCommandsWriteOneBit : Obligations.BankCommandsWriteOneBit := by
  intro index s hi
  refine ⟨⟨_, exec_icEnable hi s, rfl, getLsbD_setBit_true s.icEnable index.toNat⟩,
    ⟨_, exec_icDisable hi s, rfl, fun j _ => getLsbD_setBit_false s.icEnable index.toNat j⟩,
    ⟨_, exec_icSetPend hi s, rfl, getLsbD_setBit_true s.icPending index.toNat⟩,
    ⟨_, exec_icClrPend hi s, rfl, fun j hj => ?_⟩⟩
  have hrepend := getLsbD_pendLevels
    { s with icPending := setBit s.icPending index.toNat false } j hj
  rwa [getLsbD_setBit_false] at hrepend

/-- Settles O28: the bit that a command writes is the mask that the raw write applies to the bank. -/
theorem icCommandsAreRawBankWrites : Obligations.IcCommandsAreRawBankWrites := by
  intro index s hi
  obtain ⟨hiser, hicer, hispr, hicpr, -⟩ := regOfNumber_banks (k := index.toNat / 32) (by omega)
  refine ⟨?_, ?_, ?_, ?_⟩
  · rw [exec_icEnable hi, exec_regWr hiser, setBit_true_eq_or_bankMask]; rfl
  · rw [exec_icDisable hi, exec_regWr hicer, setBit_false_eq_and_not_bankMask]; rfl
  · rw [exec_icSetPend hi, exec_regWr hispr, setBit_true_eq_or_bankMask]; rfl
  · rw [exec_icClrPend hi, exec_regWr hicpr, setBit_false_eq_and_not_bankMask]; rfl

/-- Settles O27: the response is the bit as a number. -/
theorem isActiveRespondsActiveBit : Obligations.IsActiveRespondsActiveBit := by
  intro index s hi
  refine ⟨_, exec_icIsActive hi s, ?_⟩
  cases s.icActive.getLsbD index.toNat <;> rfl

/-! ### The grouping mode and the encoder -/

/-- Settles O29: the command writes the selector and the mode, whether or not the parameters fit together, and
the priority fields depend on neither. -/
theorem setGroupingReencodesNothing : Obligations.SetGroupingReencodesNothing := by
  intro mode s hmode
  obtain ⟨m, hm, hwidth⟩ := modeOfNumber_of_le hmode
  have hexec := exec_icSetGrouping hm s
  rw [writePricfg_eq] at hexec
  exact ⟨_, hexec, rfl, hwidth, fun _ => rfl⟩

/-- Settles O30: the group's place is the subgroup's width above the low nibble. -/
theorem encoderLayout : Obligations.EncoderLayout := by
  intro m group subgroup
  refine ⟨?_, toNat_encodePriority_overlay_or m group subgroup⟩
  rw [toNat_encodePriority_truncate, eight_sub_groupWidth, pow_add]
  ring

/-- Settles O33: a field of 8 bits is the same number in the 32 bits of the response. -/
theorem encPrioRespondsField : Obligations.EncPrioRespondsField := by
  intro mode group subgroup s hmode
  obtain ⟨m, hm, hwidth⟩ := modeOfNumber_of_le hmode
  exact ⟨m, _, hwidth, exec_icEncPrio hm s group subgroup,
    BitVec.toNat_setWidth_of_le (by decide)⟩

end Sys2Proof.Machine
end

section
/-! SUPPORT. The pins behind the multiplexers, and the dispatch routines in the context that a handler body runs
in. -/

namespace Sys2Proof.Machine

/-! ### Pins and multiplexers -/

/-- A pin step writes the one pin, and none of a port that does not exist (R141). -/
theorem getLsbD_setPin (p l q k : Fin 16) (level : Bool) (s : State) :
    (setPin p l level s).pins[q].getLsbD k =
      if q = p ∧ k = l ∧ portExists s.cfg p = true then level else s.pins[q].getLsbD k := by
  unfold setPin
  by_cases hport : portExists s.cfg p = true
  · by_cases hq : q = p
    · subst hq
      simpa [hport, Fin.ext_iff] using getLsbD_setBit s.pins[q] l k level
    · have hne : ¬ p.val = q.val := fun h => hq (Fin.ext h.symm)
      simp [hport, hq, hne]
  · simp [hport]

theorem muxLevel_of_no_port {s : State} {l : Nat}
    (h : portExists s.cfg (portSel s l).toNat = false) : muxLevel s l = false := by
  rw [muxLevel, h, Bool.false_and]

/-- The multiplexer of a line whose selector is that of a port gives the line's pin of this port (R141). -/
theorem muxLevel_of_port {s : State} {l : Nat} {q : Fin 16}
    (hsel : portSel s l = BitVec.ofNat 4 q.val) (hport : portExists s.cfg q.val = true) :
    muxLevel s l = s.pins[q].getLsbD l := by
  have hq : (portSel s l).toNat = q.val := by
    rw [hsel, BitVec.toNat_ofNat, Nat.mod_eq_of_lt q.isLt]
  simp [muxLevel, hq, hport]

/-- A pin of a port that its line does not select leaves the line's level as it is (R141). -/
theorem muxLevel_setPin_of_not_selected {p : Fin 16} {l : Nat} {s : State}
    (h : portSel s l ≠ BitVec.ofNat 4 p.val) (level : Bool) :
    muxLevel (setPin p l level s) l = muxLevel s l := by
  have hne : p.val ≠ (portSel s l).toNat := fun hp => h (by rw [hp, BitVec.ofNat_toNat]; simp)
  have hpins : (setPin p l level s).pins[(portSel s l).toNat]? = s.pins[(portSel s l).toNat]? := by
    unfold setPin
    split
    · exact Vector.getElem?_setIfInBounds_ne hne
    · rfl
  have hsel : portSel (setPin p l level s) l = portSel s l := by simp only [portSel, setPin_eirCfg]
  rw [muxLevel, muxLevel, hsel, setPin_cfg, hpins]

theorem portExists_iff (c : Config) (p : Nat) :
    portExists c p = true ↔ ∃ e ∈ c.portSelector, e.2.toNat = p := by
  simp only [portExists, List.any_eq_true, beq_iff_eq]

/-- After `s` the PINS agent has driven pin `l` of port `p` to `level`: the pin is stored where the port exists,
and the detector of line `l` has run (R141, R142). -/
structure PinStepRan (p l : Fin 16) (level : Bool) (s t : State) : Prop where
  frame : t = { s with
    pins := t.pins, eirPend := t.eirPend, eirPrev := t.eirPrev, icPending := t.icPending }
  otherPins : ∀ q k : Fin 16, q ≠ p ∨ k ≠ l → t.pins[q].getLsbD k = s.pins[q].getLsbD k
  pin : t.pins[p].getLsbD l = if portExists s.cfg p.val then level else s.pins[p].getLsbD l
  selected : portSel s l.val = BitVec.ofNat 4 p.val → portExists s.cfg p.val = true →
    muxLevel t l.val = level
  notSelected : portSel s l.val ≠ BitVec.ofNat 4 p.val → muxLevel t l.val = muxLevel s l.val
  detectors : DetectorsRan [l.val] s t

theorem pinStepRan (p l : Fin 16) (level : Bool) (s : State) :
    PinStepRan p l level s (pinStep p l level s) where
  frame := by rw [pinStep, setPin_eq]; rfl
  otherPins q k hne := (getLsbD_setPin p l q k level s).trans (if_neg fun h => by
    obtain ⟨hq, hk, -⟩ := h
    exact hne.elim (· hq) (· hk))
  pin := (getLsbD_setPin p l p l level s).trans (by simp only [true_and])
  selected hsel hport := by
    have hsel' : portSel (setPin p l level s) l.val = BitVec.ofNat 4 p.val := by
      rw [portSel, setPin_eirCfg]; exact hsel
    have hport' : portExists (setPin p l level s).cfg p.val = true := by rwa [setPin_cfg]
    rw [pinStep, muxLevel_pendLevels, muxLevel_detectLine, muxLevel_of_port hsel' hport',
      getLsbD_setPin, if_pos ⟨rfl, rfl, hport⟩]
  notSelected hsel := by
    rw [pinStep, muxLevel_pendLevels, muxLevel_detectLine, muxLevel_setPin_of_not_selected hsel]
  detectors := detectorsRan [l.val] (by rw [setPin_eq])

/-! ### Routines of the running context -/

section
variable {s : State} {fs : List Frame}

theorem advance_lineStart {l : Nat} (h : ctx s = ⟨.idle, .lineStart l :: fs⟩) :
    advance s = dispatchLine l false (setCtx ⟨.idle, fs⟩ s) := by
  simp only [advance, h, advanceFrames, setFrames]

theorem advance_stsStart (h : ctx s = ⟨.idle, .stsStart :: fs⟩) :
    advance s = dispatchTimer false (setCtx ⟨.idle, fs⟩ s) := by
  simp only [advance, h, advanceFrames, setFrames]

theorem advance_group_nil (h : ctx s = ⟨.idle, .group [] :: fs⟩) :
    advance s = setCtx ⟨.idle, fs⟩ s := by
  simp only [advance, h, advanceFrames, setFrames]

theorem advance_group_cons {l : Nat} {ls : List Nat} (h : ctx s = ⟨.idle, .group (l :: ls) :: fs⟩) :
    advance s =
      if (s.eirPend.getLsbD l && s.eirMask.getLsbD l) = true then
        dispatchLine l false (setCtx ⟨.idle, .group ls :: fs⟩ s)
      else setCtx ⟨.idle, .group ls :: fs⟩ s := by
  simp only [advance, h, advanceFrames, setFrames, getLsbD_lineRequests]

theorem returnStep_lineCall {l : Nat} {port : Bool} (h : ctx s = ⟨.idle, .lineCall l port :: fs⟩) :
    returnStep s = finishLine l port (setCtx ⟨.idle, fs⟩ s) := by
  simp only [returnStep, h, returnFrames, setFrames]

theorem returnStep_foreign (h : ctx s = ⟨.idle, .foreign :: fs⟩) :
    returnStep s = setCtx ⟨.idle, fs⟩ s := by
  simp only [returnStep, h, returnFrames, setFrames]

end

/-- After `s` the routine of line `l` has run in a handler body of which `fs` is left: with an empty slot it has
cleared the flag and ended, without a response, else it has invoked its callback (R148, R195). -/
structure LineRoutineRan (l : Nat) (fs : List Frame) (s t : State) : Prop where
  suspended : SuspendedKept s t
  frame : t = { s with
    eirPend := t.eirPend, main := t.main, handlers := t.handlers, outputs := t.outputs }
  ofEmpty : s.eirCb[l]?.getD 0 = 0 → t.outputs = s.outputs ∧ ctx t = ⟨.idle, fs⟩ ∧
    ∀ k, k < 16 → t.eirPend.getLsbD k = (s.eirPend.getLsbD k && k != l)
  ofCallback : s.eirCb[l]?.getD 0 ≠ 0 → t.outputs = .cb (s.eirCb[l]?.getD 0) :: s.outputs ∧
    t.eirPend = s.eirPend ∧ ctx t = ⟨.idle, .lineCall l false :: fs⟩

theorem SuspendedKept.trans {s t u : State} (h : SuspendedKept s t) (k : SuspendedKept t u) :
    SuspendedKept s u := by
  obtain ⟨hnest, htail, hmain⟩ := h
  obtain ⟨knest, ktail, kmain⟩ := k
  refine ⟨knest.trans hnest, ktail.trans htail, fun hne => ?_⟩
  have hne' : t.handlers ≠ [] := by
    intro ht
    rw [nest, nest, ht] at hnest
    exact hne (by simpa using hnest.symm)
  exact (kmain hne').trans (hmain hne)

theorem lineRoutineRan (l : Nat) (fs : List Frame) (s : State) :
    LineRoutineRan l fs s (dispatchLine l false (setCtx ⟨.idle, fs⟩ s)) := by
  have hkept := suspendedKept_setCtx ⟨.idle, fs⟩ s
  have hcases := dispatchLine_cases l false (setCtx ⟨.idle, fs⟩ s)
  rw [setCtx_eirCb] at hcases
  obtain ⟨hne, he⟩ | ⟨h0, he⟩ := hcases <;> rw [he]
  · obtain ⟨hframe, hctx, hinvoked⟩ :=
      invoke_eq (s.eirCb[l]?.getD 0) (.lineCall l false) (setCtx ⟨.idle, fs⟩ s)
    rw [ctx_setCtx] at hctx
    exact {
      suspended := hkept.trans hinvoked
      frame := by rw [hframe, setCtx_eq]
      ofEmpty := fun h0 => absurd h0 hne
      ofCallback := fun _ => ⟨by rw [hframe, setCtx_outputs], by rw [hframe, setCtx_eirPend], hctx⟩ }
  · rw [finishLine_eq]
    exact {
      suspended := hkept
      frame := by rw [setCtx_eq]
      ofEmpty := fun _ => ⟨setCtx_outputs _ s, ctx_setCtx ⟨.idle, fs⟩ s, fun k _ => by
        rw [getLsbD_setBit_false, setCtx_eirPend]⟩
      ofCallback := fun hne => absurd h0 hne }

/-- After `s` the timer's routine has run in a handler body of which `fs` is left: with an empty slot it has ended,
without a response, else it has invoked the callback (R172, R195). -/
structure TimerRoutineRan (fs : List Frame) (s t : State) : Prop where
  suspended : SuspendedKept s t
  frame : t = { s with main := t.main, handlers := t.handlers, outputs := t.outputs }
  ofEmpty : s.stsCb = 0 → t.outputs = s.outputs ∧ ctx t = ⟨.idle, fs⟩
  ofCallback : s.stsCb ≠ 0 →
    t.outputs = .cb s.stsCb :: s.outputs ∧ ctx t = ⟨.idle, .stsCall false :: fs⟩

theorem timerRoutineRan (fs : List Frame) (s : State) :
    TimerRoutineRan fs s (dispatchTimer false (setCtx ⟨.idle, fs⟩ s)) := by
  have hkept := suspendedKept_setCtx ⟨.idle, fs⟩ s
  have hcases := dispatchTimer_cases false (setCtx ⟨.idle, fs⟩ s)
  rw [setCtx_stsCb] at hcases
  obtain ⟨hne, he⟩ | ⟨h0, he⟩ := hcases <;> rw [he]
  · obtain ⟨hframe, hctx, hinvoked⟩ :=
      invoke_eq s.stsCb (.stsCall false) (setCtx ⟨.idle, fs⟩ s)
    rw [ctx_setCtx] at hctx
    exact {
      suspended := hkept.trans hinvoked
      frame := by rw [hframe, setCtx_eq]
      ofEmpty := fun h0 => absurd h0 hne
      ofCallback := fun _ => ⟨by rw [hframe, setCtx_outputs], hctx⟩ }
  · exact {
      suspended := hkept
      frame := by rw [setCtx_eq]
      ofEmpty := fun _ => ⟨setCtx_outputs _ s, ctx_setCtx ⟨.idle, fs⟩ s⟩
      ofCallback := fun hne => absurd h0 hne }

end Sys2Proof.Machine
end

section
/-! The statements of the edge bits and pins of the External Interrupt Router, and of the bodies and callbacks
that its lines and the timer run. -/

namespace Sys2Proof.Machine

/-! ### `EIR.SETEDGE` -/

/-- Falling alone leaves the rising bit 0, and Rising alone the falling bit (R146). -/
theorem edgeBits_of_code {edge : BitVec 2} {e : Edge} (h : edgeOfCode edge = some e) :
    (e != .falling) = (edge.toNat != 1) ∧ (e != .rising) = (edge.toNat != 0) := by
  cases e <;> revert edge <;> decide

theorem exec_eirSetEdge {line : Byte} {edge : BitVec 2} (hl : line.toNat ≤ 15) (he : edge.toNat ≤ 2)
    (s : State) :
    exec (.eirSetEdge line edge) s = .next (respond 0 { s with
      eirRise := setBit s.eirRise line.toNat (edge.toNat != 1)
      eirFall := setBit s.eirFall line.toNat (edge.toNat != 0) }) := by
  obtain ⟨e, hcode⟩ := edgeOfCode_of_le he
  obtain ⟨hrise, hfall⟩ := edgeBits_of_code hcode
  simp only [exec, execEirSetEdge, onEdgeLine, hcode, onLine_ok hl, hrise, hfall]

/-- Settles O36: the command writes its bit of the two banks and responds. -/
theorem setEdgeWritesTwoBits : Obligations.SetEdgeWritesTwoBits := by
  intro line edge s hl he
  refine ⟨_, exec_eirSetEdge hl he s, rfl, fun l h16 => ?_, fun l h16 => ?_⟩
  · refine (getLsbD_setBit s.eirRise line.toNat l (edge.toNat != 1)).trans ?_
    simp only [h16, and_true]
  · refine (getLsbD_setBit s.eirFall line.toNat l (edge.toNat != 0)).trans ?_
    simp only [h16, and_true]

/-- Settles O38: the two commands write different elements, and requests do not depend on the edge bits. -/
theorem setEdgeAndSetTriggerCommute : Obligations.SetEdgeAndSetTriggerCommute := by
  intro l l' edge e mode s t u ht hu hedge hl hl'
  rw [exec_eirSetEdge hl hedge] at ht
  rw [exec_eirSetTrigger hl'] at hu
  cases ht
  cases hu
  rw [exec_eirSetTrigger hl', exec_eirSetEdge hl hedge]
  rfl

/-! ### Pins -/

/-- Settles O41: one pin is stored, and the detector of its line alone runs. -/
theorem pinStepRunsEdgeDetector : Obligations.PinStepRunsEdgeDetector := by
  intro s p l level rest hn
  have hstep := step_event hn nofun
  have hran := pinStepRan p l level { s with schedule := rest }
  rw [agentStep] at hstep
  generalize pinStep p l level { s with schedule := rest } = t at hstep hran
  have hcfg : t.cfg = s.cfg := (congrArg State.cfg hran.frame :)
  refine ⟨t, hstep, hran.frame, hran.otherPins, hran.pin, portExists_iff s.cfg, fun k _ hno => ?_,
    fun k q hsel hport => ?_, hran.selected, hran.notSelected, fun k hk => ?_, fun k hk => ?_,
    hran.detectors.icPending⟩
  · rw [← hcfg] at hno
    exact muxLevel_of_no_port hno
  · rw [← hcfg] at hport
    exact muxLevel_of_port hsel hport
  · refine (hran.detectors.eirPrev k hk).trans ?_
    simp only [List.mem_singleton]
  · refine (hran.detectors.eirPend k hk).trans ?_
    simp only [List.mem_singleton, beq_eq_decide]

/-! ### Handler bodies and callbacks -/

/-- Settles O40: the return runs the end of the routine that invoked the callback. -/
theorem lineCallbackReturnClearsFlag : Obligations.LineCallbackReturnClearsFlag := by
  intro s fs rest hn
  have hstep := step_event hn nofun
  refine ⟨fun l port hctx => ?_, fun hctx => ?_⟩
  · rw [agentStep, returnStep_lineCall (s := { s with schedule := rest }) hctx, finishLine_eq] at hstep
    refine ⟨_, hstep, suspendedKept_setCtx ⟨.idle, fs⟩ { s with schedule := rest },
      ctx_setCtx ⟨.idle, fs⟩ { s with schedule := rest }, fun k _ => ?_, ?_⟩
    · simp only [getLsbD_setBit_false, setCtx_eirPend]
    · rw [responded_setCtx, setCtx_eq]; rfl
  · rw [agentStep, returnStep_foreign (s := { s with schedule := rest }) hctx] at hstep
    exact ⟨_, hstep, suspendedKept_setCtx ⟨.idle, fs⟩ { s with schedule := rest },
      ctx_setCtx ⟨.idle, fs⟩ { s with schedule := rest }, by rw [setCtx_eq]⟩

/-- Settles O58: either body is the routine of its line or timer in the context without the body's frame. -/
theorem singleEntryBodiesRunTheirRoutine : Obligations.SingleEntryBodiesRunTheirRoutine := by
  intro s fs rest hn
  have hstep := step_event hn nofun
  refine ⟨fun l hctx => ?_, fun hctx => ?_⟩
  · rw [agentStep, advance_lineStart (s := { s with schedule := rest }) hctx] at hstep
    have hran := lineRoutineRan l fs { s with schedule := rest }
    exact ⟨_, hstep, hran.suspended, hran.frame, hran.ofEmpty, hran.ofCallback⟩
  · rw [agentStep, advance_stsStart (s := { s with schedule := rest }) hctx] at hstep
    have hran := timerRoutineRan fs { s with schedule := rest }
    exact ⟨_, hstep, hran.suspended, hran.frame, hran.ofEmpty, hran.ofCallback⟩

/-- Settles O59: the first line is taken off the list, and its routine runs exactly when the line requests. -/
theorem groupEntryServesRequestingLines : Obligations.GroupEntryServesRequestingLines := by
  intro s fs rest hn
  have hstep := step_event hn nofun
  refine ⟨fun l ls hctx => ?_, fun hctx => ?_⟩
  · rw [agentStep, advance_group_cons (s := { s with schedule := rest }) hctx] at hstep
    cases hreq : s.eirPend.getLsbD l && s.eirMask.getLsbD l with
    | true =>
      rw [if_pos hreq] at hstep
      have hran := lineRoutineRan l (.group ls :: fs) { s with schedule := rest }
      exact ⟨_, hstep, hran.suspended, hran.frame, nofun, fun _ => hran.ofEmpty,
        fun _ => hran.ofCallback⟩
    | false =>
      rw [if_neg (by simp [hreq])] at hstep
      exact ⟨_, hstep, suspendedKept_setCtx _ { s with schedule := rest }, by rw [setCtx_eq],
        fun _ => ⟨setCtx_eirPend _ _, setCtx_outputs _ _, ctx_setCtx _ _⟩, nofun, nofun⟩
  · rw [agentStep, advance_group_nil (s := { s with schedule := rest }) hctx] at hstep
    exact ⟨_, hstep, suspendedKept_setCtx _ { s with schedule := rest }, ctx_setCtx _ _,
      by rw [setCtx_eq]⟩

end Sys2Proof.Machine
end

section
/-! The statement of `RESET` and `IRQ_INHIBIT`, with what their steps do. -/

namespace Sys2Proof.Machine

/-- While `RESET` is asserted no command is fetched (R230). -/
theorem fetch_of_inReset {s : State} (hr : s.inReset = true) :
    (fetch s = .nothing ∧ s.schedule = []) ∨ ∃ e, fetch s = .event e := by
  have hissue : canIssue s = false := by simp [canIssue, hr]
  cases hs : s.schedule with
  | nil => exact .inl ⟨fetch_of_schedule_nil hs, rfl⟩
  | cons e rest =>
    cases e with
    | command cw => exact .inr ⟨_, fetch_of_command_not_issued hs hissue⟩
    | _ => exact .inr ⟨_, fetch_of_event hs nofun⟩

theorem settle_of_inReset {s : State} (hr : s.inReset = true) : settle s = s := by
  rw [settle, hr, Bool.or_true, if_pos rfl]

theorem settle_resetBlock (s : State) : settle (resetBlock s) = resetBlock s := by
  unfold settle
  split <;> rfl

theorem driveReset_release {s : State} (hr : s.inReset = true) : driveReset false s = resetBlock s :=
  if_pos hr

theorem driveReset_of_released {s : State} (hr : s.inReset = false) : driveReset false s = s := by
  rw [driveReset, hr, if_neg Bool.false_ne_true, if_neg Bool.false_ne_true]

/-- A step that drives `IRQ_INHIBIT` writes this input, whether or not `RESET` is asserted (R204, R232). -/
theorem environmentStep_inhibit (level : Bool) (s : State) :
    environmentStep (.inhibit level) s = { s with irqInhibit := level } := by
  unfold environmentStep; split <;> rfl

theorem environmentStep_resetLine (level : Bool) (s : State) :
    environmentStep (.resetLine level) s = driveReset level s := by
  unfold environmentStep; split <;> rfl

/-- What an event leaves as it is while `RESET` is asserted: all but the input that it drives (R230, R232). -/
theorem stepInReset_eq {s : State} (hr : s.inReset = true) {e : Event} (he : e ≠ .resetLine false) :
    stepInReset e s =
        { s with pins := (stepInReset e s).pins, irqInhibit := (stepInReset e s).irqInhibit } ∧
      ((∀ b, e ≠ .inhibit b) → (stepInReset e s).irqInhibit = s.irqInhibit) ∧
      ((∀ p l b, e ≠ .pin p l b) → (stepInReset e s).pins = s.pins) := by
  cases e with
  | pin p l b =>
    exact ⟨by rw [stepInReset, setPin_eq], fun _ => setPin_irqInhibit p l b s,
      fun h => absurd rfl (h p l b)⟩
  | inhibit b => exact ⟨rfl, fun h => absurd rfl (h b), fun _ => rfl⟩
  | resetLine b =>
    cases b with
    | false => exact absurd rfl he
    | true =>
      have hkeep : stepInReset (.resetLine true) s = s := by
        rw [stepInReset, driveReset, if_pos rfl, ← hr]
      rw [hkeep]
      exact ⟨rfl, fun _ => rfl, fun _ => rfl⟩
  | _ => exact ⟨rfl, fun _ => rfl, fun _ => rfl⟩

/-- With nothing scheduled an asserted `RESET` holds the block's own agents (R230). -/
theorem step_of_nothing_inReset {s : State} (hr : s.inReset = true) (hf : fetch s = .nothing) :
    step s = .next s := by
  have hown : ownStep s = s := if_pos hr
  simp only [step, hf, settleResult, hown, settle_of_inReset hr]

theorem step_of_event_inReset {s : State} {e : Event} (hr : s.inReset = true)
    (hf : fetch s = .event e) (he : e ≠ .resetLine false) :
    step s = .next (stepInReset e (dropScheduled s)) := by
  have henv : environmentStep e (dropScheduled s) = stepInReset e (dropScheduled s) := if_pos hr
  have hkeep : (stepInReset e (dropScheduled s)).inReset = true := by
    rw [(stepInReset_eq (s := dropScheduled s) hr he).1]; exact hr
  rw [step_of_event hf, henv, settle_of_inReset hkeep]

theorem step_of_inhibit {s : State} {level : Bool} (hf : fetch s = .event (.inhibit level)) :
    step s = .next (settle { s with schedule := s.schedule.tail, irqInhibit := level }) := by
  rw [step_of_event hf, environmentStep_inhibit]; rfl

theorem step_of_resetLine {s : State} {level : Bool} (hf : fetch s = .event (.resetLine level)) :
    step s = .next (settle (driveReset level (dropScheduled s))) := by
  rw [step_of_event hf, environmentStep_resetLine]

/-- Settles O18: an asserted `RESET` leaves the events that drive an input, and the reset state is settled. -/
theorem assertedResetHoldsTheBlock : Obligations.AssertedResetHoldsTheBlock := by
  intro s t h
  have hnext : ∀ {u : State}, step s = .next u → t = u := fun hu =>
    Host.Outcome.next.inj (h.symm.trans hu)
  refine ⟨fun hr hf => ?_, fun hr p l b hf q k => ?_, fun hr hf => ?_, fun b hf => ?_, fun hf => ?_,
    fun hr hf => ?_⟩
  · obtain ⟨hnone, hs⟩ | ⟨e, hfe⟩ := fetch_of_inReset hr
    · rw [hnext (step_of_nothing_inReset hr hnone)]
      exact ⟨by rw [hs, List.tail_nil, ← hs], fun _ => rfl, fun _ => rfl⟩
    · have he : e ≠ .resetLine false := by rintro rfl; exact hf hfe
      obtain ⟨hframe, hinhibit, hpins⟩ := stepInReset_eq (s := dropScheduled s) hr he
      rw [hnext (step_of_event_inReset hr hfe he)]
      exact ⟨hframe, fun hb => hinhibit fun b heq => hb b (heq ▸ hfe),
        fun hp => hpins fun p l b heq => hp p l b (heq ▸ hfe)⟩
  · rw [hnext (step_of_event_inReset hr hf nofun)]
    exact getLsbD_setPin p l q k b (dropScheduled s)
  · rw [hnext (step_of_resetLine hf), driveReset_release (s := dropScheduled s) hr, settle_resetBlock]
    exact ⟨rfl, rfl, rfl, rfl, rfl, rfl, rfl⟩
  · rw [hnext (step_of_inhibit hf)]
    exact ⟨rfl, settle_irqInhibit _⟩
  · rw [hnext (step_of_resetLine hf)]
    exact settle_of_inReset rfl
  · rw [hnext (step_of_resetLine hf), driveReset_of_released (s := dropScheduled s) hr]
    rfl

end Sys2Proof.Machine
end

section
/-! SUPPORT. The counter stays at most the value it reloads, in every step but a raw register write (R162). -/

namespace Sys2Proof.Machine

/-- The counter is at most the value it reloads (R162). -/
def WithinReload (s : State) : Prop := s.stsCurrent ≤ s.stsReload

theorem withinReload_of_zero {s : State} (h : s.stsCurrent = 0) : WithinReload s := by
  rw [WithinReload, h]; exact Nat.zero_le _

section
variable {s : State} (h : WithinReload s)
include h

theorem withinReload_congr {t : State} (hc : t.stsCurrent = s.stsCurrent)
    (hr : t.stsReload = s.stsReload) : WithinReload t := by
  rw [WithinReload, hc, hr]; exact h

/-! ### Operations that leave the two timer registers -/

theorem withinReload_settle : WithinReload (settle s) :=
  withinReload_congr h (settle_stsCurrent s) (settle_stsReload s)

theorem withinReload_setFrames (fs : List Frame) : WithinReload (setFrames fs s) :=
  withinReload_congr h (setFrames_stsCurrent fs s) (setFrames_stsReload fs s)

theorem withinReload_setTimerEnable (b : Bool) : WithinReload (setTimerEnable b s) :=
  withinReload_congr h (setTimerEnable_stsCurrent b s) (setTimerEnable_stsReload b s)

theorem withinReload_setPin (p l : Nat) (level : Bool) : WithinReload (setPin p l level s) :=
  withinReload_congr h (setPin_stsCurrent p l level s) (setPin_stsReload p l level s)

theorem withinReload_writePricfg (v : Word) : WithinReload (writePricfg v s) := by
  unfold writePricfg; split <;> exact h

theorem withinReload_afterRead (r : Reg) : WithinReload (afterRead r s) := by
  rw [afterRead_eq]; exact h

theorem withinReload_dispatchLine (l : Nat) (port : Bool) :
    WithinReload (dispatchLine l port s) := by
  obtain ⟨-, he⟩ | ⟨-, he⟩ := dispatchLine_cases l port s <;> rw [he]
  · rw [(invoke_eq _ _ s).1]; exact h
  · rw [finishLine_eq]; exact h

theorem withinReload_dispatchTimer (port : Bool) : WithinReload (dispatchTimer port s) := by
  obtain ⟨-, he⟩ | ⟨-, he⟩ := dispatchTimer_cases port s <;> rw [he]
  · rw [(invoke_eq _ _ s).1]; exact h
  · exact h

theorem withinReload_raiseRequest (i : Nat) : WithinReload (raiseRequest i s) := by
  unfold raiseRequest; split <;> exact h

theorem withinReload_loseFlagStep : WithinReload (loseFlagStep s) := by
  unfold loseFlagStep; split <;> exact h

theorem withinReload_takeStep : WithinReload (takeStep s) := by
  unfold takeStep; split <;> exact h

theorem withinReload_exitStep : WithinReload (exitStep s) := by
  unfold exitStep; split <;> exact h

theorem withinReload_returnFrames (fs : List Frame) : WithinReload (returnFrames s fs) := by
  cases fs with
  | nil => exact h
  | cons f fs =>
    have hrest := withinReload_setFrames h fs
    cases f with
    | lineCall l port => rw [returnFrames, finishLine_eq]; exact hrest
    | stsCall port => rw [returnFrames, finishTimer_eq]; exact hrest
    | foreign => exact hrest
    | lineStart | group | stsStart => exact h

theorem withinReload_returnStep : WithinReload (returnStep s) := by
  unfold returnStep
  split
  · exact h
  · exact withinReload_returnFrames h _

theorem withinReload_advanceFrames (fs : List Frame) : WithinReload (advanceFrames s fs) := by
  cases fs with
  | nil => exact h
  | cons f fs =>
    cases f with
    | lineStart l => exact withinReload_dispatchLine (withinReload_setFrames h fs) l false
    | group lines =>
      cases lines with
      | nil => exact withinReload_setFrames h fs
      | cons l ls =>
        have hrest := withinReload_setFrames h (.group ls :: fs)
        rw [advanceFrames]
        split
        · exact withinReload_dispatchLine hrest l false
        · exact hrest
    | stsStart => exact withinReload_dispatchTimer (withinReload_setFrames h fs) false
    | lineCall | stsCall | foreign => exact h

/-! ### Operations that write them: a load leaves 0, and an event reloads or counts down -/

theorem withinReload_busyWaitPoll : WithinReload (busyWaitPoll s) := by
  unfold busyWaitPoll
  split
  · exact withinReload_of_zero (by simp [busyWaitFinish])
  · exact h

theorem withinReload_advance : WithinReload (advance s) := by
  unfold advance
  split
  · exact withinReload_busyWaitPoll h
  · exact withinReload_advanceFrames h _

theorem withinReload_countDown : WithinReload (countDown s) := by
  obtain ⟨-, he⟩ | ⟨-, he⟩ | ⟨hne, -, he⟩ := countDown_cases s <;> rw [he]
  · exact BitVec.le_refl _
  · exact withinReload_of_zero rfl
  · exact BitVec.le_trans (toNat_sub_one_le hne) h

theorem withinReload_countEvent (input : Bool) : WithinReload (countEvent input s) := by
  unfold countEvent
  split
  · exact withinReload_countDown (by split <;> exact h)
  · exact h

theorem withinReload_driveReset (level : Bool) : WithinReload (driveReset level s) := by
  unfold driveReset
  split
  · exact h
  · split
    · exact withinReload_of_zero rfl
    · exact h

/-! ### Commands and steps -/

theorem withinReload_exec {i : Instr} {t : State} (he : exec i s = .next t)
    (hi : ∀ n data, i ≠ .regWr n data) : WithinReload t := by
  have hraise : ∀ e, WithinReload (raise e s) := fun _ => h
  unfold exec at he
  cases i with
  | regRd => exact onReg_elim hraise he fun r => withinReload_afterRead h r
  | regWr n data => exact absurd rfl (hi n data)
  | icEnable | icDisable | icSetPend | icClrPend | icIsActive | icSetPrio =>
    exact onSource_elim hraise he fun _ _ => h
  | icSetGrouping => exact onMode_elim hraise he fun _ => withinReload_writePricfg h _
  | icEncPrio => exact onMode_elim hraise he fun _ => h
  | eirSetPort => exact onLine_elim hraise he fun _ _ => h
  | eirSetTrigger | eirRegCb => exact onLine_elim hraise he fun _ _ => h
  | eirSetEdge => exact onEdgeLine_elim hraise he fun _ _ _ => h
  | eirDispatch =>
    exact onLine_elim hraise he fun l _ => withinReload_dispatchLine h l true
  | stsInit =>
    cases he
    exact withinReload_congr h (beforeFieldWrite_stsCurrent s) (beforeFieldWrite_stsReload s)
  | stsBusyWait => cases he; exact withinReload_of_zero (by simp [busyWaitStart])
  | stsElapsed | stsRemaining => cases he; exact h
  | stsSetSingle | stsSetPeriodic => cases he; exact withinReload_of_zero (by simp [startJob])
  | stsStop => cases he; exact withinReload_setTimerEnable h false
  | stsDispatch => cases he; exact withinReload_dispatchTimer h true

theorem withinReload_stepInReset (e : Event) : WithinReload (stepInReset e s) := by
  cases e with
  | pin p l level => exact withinReload_setPin h p.val l.val level
  | resetLine level => exact withinReload_driveReset h level
  | _ => exact h

theorem withinReload_agentStep (e : Event) : WithinReload (agentStep e s) := by
  cases e with
  | command | inhibit => exact h
  | advance => exact withinReload_advance h
  | ret => exact withinReload_returnStep h
  | take => rw [agentStep]; exact withinReload_takeStep h
  | exit => exact withinReload_exitStep h
  | pin p l level => exact withinReload_setPin h p.val l.val level
  | count input => exact withinReload_countEvent h input
  | raise i => exact withinReload_raiseRequest h i.val
  | resetLine level => exact withinReload_driveReset h level
  | loseFlag => exact withinReload_loseFlagStep h

theorem withinReload_environmentStep (e : Event) : WithinReload (environmentStep e s) := by
  unfold environmentStep
  split
  · exact withinReload_stepInReset h e
  · exact withinReload_agentStep h e

theorem withinReload_ownStep : WithinReload (ownStep s) := by
  obtain he | he | he | he | he := ownStep_cases s <;> rw [he]
  · exact h
  · exact withinReload_takeStep h
  · exact withinReload_advance h
  · exact withinReload_returnStep h
  · exact withinReload_exitStep h

end

/-- Settles O52: whatever `fetch` reads other than a raw write keeps the bound, and so does the settling. -/
theorem currentStaysBelowReload : Obligations.CurrentStaysBelowReload := by
  intro s t hs hstep hraw
  have hdrop : WithinReload (dropScheduled s) := hs
  obtain ⟨u, rfl, hu⟩ := step_cases hstep
  apply withinReload_settle
  obtain ⟨i, hf, he⟩ | ⟨-, rfl⟩ | ⟨e, -, rfl⟩ | ⟨-, rfl⟩ := hu
  · exact withinReload_exec hdrop he fun n data hi => hraw n data (hi ▸ hf)
  · exact hdrop
  · exact withinReload_environmentStep hdrop e
  · exact withinReload_ownStep hs

end Sys2Proof.Machine
end

section
/-! The statements of the timer's control commands, of the busy-wait and of the zero crossing. -/

namespace Sys2Proof.Machine

/-! ### `STS.INIT`, `STS.STOP`, `STS.ELAPSED`, `STS.REMAINING` -/

/-- What precedes a field write: with `CTRL_FIELD_WRITE` = rmw the read clears the flag (R164). -/
theorem beforeFieldWrite_eq (s : State) :
    beforeFieldWrite s = { s with
      stsCountFlag := if s.cfg.ctrlFieldWrite = .rmw then false else s.stsCountFlag } := by
  unfold beforeFieldWrite; cases hmode : s.cfg.ctrlFieldWrite <;> simp

/-- Settles O42: each command is a write of control fields, with the read of rmw before it. -/
theorem initAndStopWriteTheirControlBits : Obligations.InitAndStopWriteTheirControlBits := by
  refine fun s => ⟨?_, ?_⟩
  · rw [exec, execStsInit, beforeFieldWrite_eq]; rfl
  · rw [exec, execStsStop, setTimerEnable_eq]; rfl

/-- Settles O45: both read the timer registers, whose reads have no side effect. -/
theorem elapsedAndRemaining : Obligations.ElapsedAndRemaining := by
  refine fun s => ⟨⟨s.stsReload - s.stsCurrent, rfl, ?_⟩, rfl⟩
  rw [← BitVec.toNat_add, BitVec.sub_add_cancel]

/-! ### The busy-wait -/

/-- Bit 16 of `STS_CTRL` reads as the flag (R36, R72). -/
theorem getLsbD_stsCtrl_countFlag (s : State) :
    (regValue s .stsCtrl).getLsbD 16 = s.stsCountFlag :=
  getLsbD_setBit_self _ 16 _ (by decide)

theorem busyWaitPoll_of_clear {s : State} (h : s.stsCountFlag = false) : busyWaitPoll s = s := by
  have hread : (memRead .stsCtrl s).2 = s := by rw [memRead, afterRead_eq, if_pos rfl, ← h]
  rw [busyWaitPoll, memRead, getLsbD_stsCtrl_countFlag, h, if_neg Bool.false_ne_true]
  exact hread

theorem busyWaitPoll_of_set {s : State} (h : s.stsCountFlag = true) :
    busyWaitPoll s = busyWaitFinish { s with stsCountFlag := false } := by
  rw [busyWaitPoll, memRead, getLsbD_stsCtrl_countFlag, h, if_pos rfl]; rfl

theorem truncBits_zero {n : Nat} (k : Nat) : truncBits k (0 : BitVec n) = 0 := by
  simp [truncBits]

/-- The finish step: the timer cleared and stopped, the running context Idle, and the response (R166). -/
theorem busyWaitFinish_eq (s : State) :
    busyWaitFinish s = respond 0 (setCtx { ctx s with bw := .idle } { s with
      stsReload := 0, stsCurrent := 0, stsCountFlag := false, stsEnable := false }) := by
  have htimer : setTimerEnable false (loadTimer 0 s) = { s with
      stsReload := 0, stsCurrent := 0, stsCountFlag := false, stsEnable := false } := by
    rw [setTimerEnable_eq, loadTimer_stsCountFlag, ite_self, ← truncBits_zero s.cfg.tickBits]; rfl
  rw [busyWaitFinish, htimer]; rfl

theorem advance_spin {s : State} {age : Nat} {fs : List Frame} (h : ctx s = ⟨.spin age, fs⟩) :
    advance s = busyWaitPoll s := by
  simp only [advance, h]

/-- Settles O44: the step is the poll, which reads the flag and goes on to the finish step when it is set. -/
theorem busyWaitPollEndsExactlyOnFlag : Obligations.BusyWaitPollEndsExactlyOnFlag := by
  intro s age fs rest hn hctx
  have hstep := step_event hn nofun
  rw [agentStep, advance_spin (s := { s with schedule := rest }) hctx] at hstep
  refine ⟨fun hclear => ?_, fun hset => ?_⟩
  · rwa [busyWaitPoll_of_clear (s := { s with schedule := rest }) hclear] at hstep
  · rw [busyWaitPoll_of_set (s := { s with schedule := rest }) hset, busyWaitFinish_eq] at hstep
    have hidle : { ctx s with bw := .idle } = (⟨.idle, fs⟩ : Ctx) := by rw [hctx]
    refine ⟨_, hstep, suspendedKept_setCtx _ _, (ctx_setCtx _ _).trans hidle, ?_⟩
    rw [respond, emit, issuer_setCtx, setCtx_outputs, setCtx_eq]; rfl

/-! ### The flag-losing step -/

theorem olderThan_iff (n : Nat) (b : BusyWait) :
    b.olderThan n = true ↔ ∃ age, n < age ∧ b = .spin age := by
  cases b <;> simp [BusyWait.olderThan]

/-- With a finite window the step is enabled when a busy-wait of some context is older (R166). -/
theorem flagMayBeLost_iff {s : State} {n : Nat} (h : s.cfg.latchWindow = some n) :
    flagMayBeLost s = true ↔
      ∃ age, n < age ∧ (s.main.bw = .spin age ∨ ∃ h ∈ s.handlers, h.ctx.bw = .spin age) := by
  simp only [flagMayBeLost, h, Bool.or_eq_true, List.any_eq_true, olderThan_iff]
  constructor
  · rintro (⟨age, hage, hmain⟩ | ⟨hd, hmem, age, hage, hbw⟩)
    · exact ⟨age, hage, .inl hmain⟩
    · exact ⟨age, hage, .inr ⟨hd, hmem, hbw⟩⟩
  · rintro ⟨age, hage, hmain | ⟨hd, hmem, hbw⟩⟩
    · exact .inl ⟨age, hage, hmain⟩
    · exact .inr ⟨hd, hmem, age, hage, hbw⟩

theorem loseFlagStep_eq (s : State) :
    loseFlagStep s = { s with
      stsCountFlag := if flagMayBeLost s then false else s.stsCountFlag } := by
  unfold loseFlagStep; split <;> rfl

/-- Settles O47: the step clears the flag exactly when some busy-wait is older than a finite window. -/
theorem flagIsLostOnlyPastTheWindow : Obligations.FlagIsLostOnlyPastTheWindow := by
  intro s rest hn
  have hstep := step_event hn nofun
  rw [agentStep, loseFlagStep_eq] at hstep
  refine ⟨fun hnone => ?_, fun n hsome => ⟨_, hstep, rfl, fun holder => ?_, fun hyoung => ?_⟩⟩
  · have hoff : flagMayBeLost { s with schedule := rest } = false := by
      simp only [flagMayBeLost, hnone]
    rwa [if_neg (by rw [hoff]; exact Bool.false_ne_true)] at hstep
  · exact if_pos ((flagMayBeLost_iff (s := { s with schedule := rest }) hsome).mpr holder)
  · refine if_neg fun hlost => ?_
    obtain ⟨age, hage, hspin⟩ :=
      (flagMayBeLost_iff (s := { s with schedule := rest }) hsome).mp hlost
    exact absurd (hyoung age hspin) (Nat.not_le.mpr hage)

/-! ### The zero crossing -/

/-- In `t` the counter of `s` has reloaded and then counted down `k` times: it still runs, and the flag says
whether these were all the counts of the reload value (R161). -/
structure CountedAfterReload (s : State) (k : Nat) (t : State) : Prop where
  enable : t.stsEnable = true
  clkSource : t.stsClkSource = s.stsClkSource
  current : t.stsCurrent.toNat = s.stsReload.toNat - k
  countFlag : t.stsCountFlag = decide (k = s.stsReload.toNat)

/-- The first event reloads (R161, R162). -/
theorem countedAfterReload_zero {s : State} (hc : s.stsCurrent = 0) (he : s.stsEnable = true)
    (hf : s.stsCountFlag = false) (hr : s.stsReload ≠ 0) :
    CountedAfterReload s 0 (countEvent s.stsClkSource s) := by
  have hpos : ¬ 0 = s.stsReload.toNat := fun h => hr (BitVec.eq_of_toNat_eq h.symm)
  rw [countEvent_of_selected he,
    countDown_of_zero (s := mapBusyWaits (BusyWait.counted s.irqInhibit) s) hc]
  exact ⟨he, rfl, rfl, hf.trans (decide_eq_false hpos).symm⟩

/-- Each event after it counts down by one, until the counter is at 0 (R161, R162). -/
theorem countedAfterReload_succ {s t : State} {k : Nat} (h : CountedAfterReload s k t)
    (hk : k < s.stsReload.toNat) :
    CountedAfterReload s (k + 1) (countEvent s.stsClkSource t) := by
  obtain ⟨he, hclk, hc, hf⟩ := h
  have hne : t.stsCurrent ≠ 0 := by bv_omega
  obtain ⟨hcurrent, hflag, -⟩ := countDown_of_ne_zero
    (s := mapBusyWaits (BusyWait.counted t.irqInhibit) t) hne
  have hsub : (t.stsCurrent - 1).toNat = s.stsReload.toNat - (k + 1) := by bv_omega
  rw [← hclk, countEvent_of_selected he]
  have hzero : t.stsCurrent - 1 = 0 ↔ k + 1 = s.stsReload.toNat := by bv_omega
  refine {
    enable := by rw [countDown_eq]; exact he
    clkSource := by rw [countDown_eq]; exact hclk
    current := (congrArg BitVec.toNat hcurrent).trans hsub
    countFlag := hflag.trans ?_ }
  simp only [mapBusyWaits_stsCountFlag, mapBusyWaits_stsCurrent, hf, beq_eq_decide, hzero, hk.ne,
    decide_false, Bool.false_or]

theorem countedAfterReload_iterate {s : State} (hc : s.stsCurrent = 0) (he : s.stsEnable = true)
    (hf : s.stsCountFlag = false) (hr : s.stsReload ≠ 0) (k : Nat) (hk : k ≤ s.stsReload.toNat) :
    CountedAfterReload s k ((countEvent s.stsClkSource)^[k + 1] s) := by
  induction k with
  | zero => exact countedAfterReload_zero hc he hf hr
  | succ k ih =>
    rw [Function.iterate_succ_apply']
    exact countedAfterReload_succ (ih (Nat.le_of_succ_le hk)) hk

/-- A counter at 0 that reloads 0, with the flag and the pending bits as given. -/
structure StuckAtZero (flag : Bool) (pending : BitVec 240) (s : State) : Prop where
  current : s.stsCurrent = 0
  reload : s.stsReload = 0
  countFlag : s.stsCountFlag = flag
  icPending : s.icPending = pending

/-- A count event, counted or not, leaves such a counter as it is (R162). -/
theorem stuckAtZero_countEvent {flag : Bool} {pending : BitVec 240} {s : State}
    (h : StuckAtZero flag pending s) (input : Bool) :
    StuckAtZero flag pending (countEvent input s) := by
  by_cases hsel : s.stsEnable = true ∧ s.stsClkSource = input
  · obtain ⟨he, rfl⟩ := hsel
    rw [countEvent_of_selected he,
      countDown_of_zero (s := mapBusyWaits (BusyWait.counted s.irqInhibit) s) h.current]
    exact ⟨h.reload, h.reload, h.countFlag, h.icPending⟩
  · rw [not_and_or, Bool.not_eq_true] at hsel
    rw [countEvent_of_unselected hsel]
    exact h

theorem stuckAtZero_foldl {flag : Bool} {pending : BitVec 240} (inputs : List Bool) {s : State}
    (h : StuckAtZero flag pending s) :
    StuckAtZero flag pending (inputs.foldl (fun t c => countEvent c t) s) := by
  induction inputs generalizing s with
  | nil => exact h
  | cons c inputs ih => exact ih (stuckAtZero_countEvent h c)

/-- Settles O51: one event reloads and `r` events count down to 0; with reload 0 no event changes the counter. -/
theorem crossingAfterReloadPlusOneEvents : Obligations.CrossingAfterReloadPlusOneEvents := by
  intro s hc
  refine ⟨fun he hf hr => ?_, fun hr inputs => ?_⟩
  · have hcount := countedAfterReload_iterate hc he hf hr
    have hlast := hcount s.stsReload.toNat (Nat.le_refl _)
    refine ⟨fun n hn => ?_, hlast.countFlag.trans (decide_eq_true rfl),
      BitVec.eq_of_toNat_eq (hlast.current.trans (Nat.sub_self _))⟩
    cases n with
    | zero => exact hf
    | succ k => exact (hcount k (by omega)).countFlag.trans (decide_eq_false (by omega))
  · have hstuck := stuckAtZero_foldl inputs ⟨hc, hr, rfl, rfl⟩
    exact ⟨hstuck.countFlag, hstuck.icPending⟩

end Sys2Proof.Machine
end

section
/-! The statements of rejected indices, of the step's outcome, and of arbitration: the most urgent candidate and
its take step. -/

namespace Sys2Proof.Machine

/-! ### Indices out of range -/

theorem onSource_of_out_of_range {index : Byte} (h : ¬ index.toNat ≤ 239) (s : State)
    (run : Nat → State) : onSource index s run = .next (raise .invalidIndex s) := by
  rw [onSource, if_neg h]

theorem onLine_of_out_of_range {line : Byte} (h : ¬ line.toNat ≤ 15) (s : State)
    (run : Nat → State) : onLine line s run = .next (raise .invalidIndex s) := by
  rw [onLine, if_neg h]

/-- Behind an edge code that is not reserved, the line number is checked as in any other command (R146). -/
theorem onEdgeLine_of_out_of_range {line : Byte} {edge : BitVec 2} (he : edge.toNat ≤ 2)
    (h : ¬ line.toNat ≤ 15) (s : State) (run : Edge → Nat → State) :
    onEdgeLine line edge s run = .next (raise .invalidIndex s) := by
  obtain ⟨e, hedge⟩ := edgeOfCode_of_le he
  simp only [onEdgeLine, hedge, onLine_of_out_of_range h]

/-- A source index or a line number out of range is rejected by the check of its operand form, before the
command's own meaning runs. -/
theorem exec_of_not_inRange {i : Instr} (hlegal : i.legal = true) (h : i.inRange = false) (s : State) :
    exec i s = .next (raise .invalidIndex s) := by
  unfold exec
  cases i with
  | icEnable | icDisable | icSetPend | icClrPend | icIsActive | icSetPrio =>
    exact onSource_of_out_of_range (of_decide_eq_false h) _ _
  | eirSetPort | eirSetTrigger | eirRegCb | eirDispatch =>
    exact onLine_of_out_of_range (of_decide_eq_false h) _ _
  | eirSetEdge =>
    exact onEdgeLine_of_out_of_range (of_decide_eq_true hlegal) (of_decide_eq_false h) _ _
  | _ => cases h

/-- Settles O8: the check raises `InvalidIndex`, which records the response alone. -/
theorem invalidIndexOnlyResponds : Obligations.InvalidIndexOnlyResponds :=
  fun _ s hlegal h => (exec_of_not_inRange hlegal h s).trans (congrArg _ (raise_eq _ s))

/-! ### The outcome of a step -/

theorem step_of_nothing {s : State} (hf : fetch s = .nothing) :
    step s = .next (settle (ownStep s)) := by
  simp only [step, hf, settleResult]

/-- Settles O10: whatever `fetch` reads has a next state, and a command by `exec_next`. -/
theorem everyStepAnswersNext : Obligations.EveryStepAnswersNext := by
  intro s
  cases hf : fetch s with
  | instruction i =>
    obtain ⟨t, ht⟩ := exec_next i (dropScheduled s)
    exact ⟨_, step_of_instruction hf ht⟩
  | illegal => exact ⟨_, step_of_illegal hf⟩
  | event e => exact ⟨_, step_of_event hf⟩
  | nothing => exact ⟨_, step_of_nothing hf⟩

/-! ### The most urgent candidate -/

/-- Source `b` goes before `j`: a smaller priority field, or an equal one and no larger index (R205, R206). -/
def GoesBefore (s : State) (b j : Nat) : Prop :=
  prioField s b < prioField s j ∨ (prioField s b = prioField s j ∧ b ≤ j)

theorem goesBefore_refl (s : State) (b : Nat) : GoesBefore s b b := .inr ⟨rfl, Nat.le_refl b⟩

theorem goesBefore_trans {s : State} {a b c : Nat} (h : GoesBefore s a b) (k : GoesBefore s b c) :
    GoesBefore s a c := by
  unfold GoesBefore at *
  bv_omega

theorem goesBefore_antisymm {s : State} {a b : Nat} (h : GoesBefore s a b) (k : GoesBefore s b a) :
    a = b := by
  unfold GoesBefore at *
  bv_omega

theorem bestBelow_eq_none_iff (s : State) (n : Nat) :
    bestBelow s n = none ↔ ∀ j, j < n → candidate s j = false := by
  induction n with
  | zero => simp [bestBelow]
  | succ n ih =>
    rw [Nat.forall_lt_succ_right, ← ih, bestBelow]
    cases hb : bestBelow s n with
    | none => simp
    | some j => exact iff_of_false (by dsimp only; split <;> nofun) fun h => nomatch h.1

/-- The search keeps the source that goes before every candidate looked at so far. -/
theorem bestBelow_goesBefore {s : State} {n b : Nat} (h : bestBelow s n = some b) :
    ∀ j, j < n → candidate s j = true → GoesBefore s b j := by
  induction n generalizing b with
  | zero => cases h
  | succ n ih =>
    rw [Nat.forall_lt_succ_right]
    rw [bestBelow] at h
    cases hb : bestBelow s n with
    | none =>
      have hno := (bestBelow_eq_none_iff s n).mp hb
      simp only [hb, Option.ite_none_right_eq_some, Option.some.injEq] at h
      obtain ⟨-, rfl⟩ := h
      exact ⟨fun j hj hc => absurd hc (by simp [hno j hj]), fun _ => goesBefore_refl s n⟩
    | some a =>
      have ha := ih hb
      have hbelow : a < n := (bestBelow_spec hb).1
      simp only [hb, Bool.and_eq_true, decide_eq_true_eq] at h
      split at h
      · rename_i hn
        cases h
        exact ⟨fun j hj hc => goesBefore_trans (.inl hn.2) (ha j hj hc), fun _ => goesBefore_refl s n⟩
      · rename_i hn
        cases h
        refine ⟨ha, fun hc => ?_⟩
        have hle : ¬ prioField s n < prioField s b := fun hlt => hn ⟨hc, hlt⟩
        unfold GoesBefore
        bv_omega

/-- `best` is the candidate that goes before every candidate, of which there is at most one (R205, R206). -/
theorem best_eq_some_iff (s : State) (b : Nat) :
    best s = some b ↔
      b < 240 ∧ candidate s b = true ∧ ∀ j, j < 240 → candidate s j = true → GoesBefore s b j := by
  constructor
  · intro h
    obtain ⟨hb, hc⟩ := bestBelow_spec h
    exact ⟨hb, hc, bestBelow_goesBefore h⟩
  · rintro ⟨hb, hc, hfirst⟩
    cases ha : best s with
    | none =>
      have hno := (bestBelow_eq_none_iff s numSources).mp ha b hb
      exact absurd hc (by simp [hno])
    | some a =>
      obtain ⟨hlt, hcand⟩ := bestBelow_spec ha
      exact congrArg some
        (goesBefore_antisymm (bestBelow_goesBefore ha b hb hc) (hfirst a hlt hcand))

/-- Settles O54: `best` searches all the sources. -/
theorem bestIsMostUrgentCandidate : Obligations.BestIsMostUrgentCandidate :=
  fun s => ⟨best_eq_some_iff s, bestBelow_eq_none_iff s numSources⟩

/-! ### The take step -/

/-- The subgroup width of a selector that the document has (`93_implementation_defined.md` Part 2). -/
theorem hwSubWidth_of_le {g : BitVec 16} (h : g.toNat ≤ 7) : hwSubWidth g = g.toNat - 3 := by
  unfold hwSubWidth
  generalize g.toNat = n at h
  interval_cases n <;> rfl

theorem preValue_of_full {s : State} (h : s.cfg.preemptField = .full) (j : Nat) :
    preValue s j = (prioField s j).toNat := by
  rw [preValue, h]

theorem preValue_of_group {s : State} (h : s.cfg.preemptField = .group) (j : Nat) :
    preValue s j = (prioField s j).toNat / 2 ^ (4 + hwSubWidth s.icGroupSel) := by
  rw [preValue, h, Nat.shiftRight_eq_div_pow]

theorem idlePriority_of_full {c : Config} (h : c.preemptField = .full) : idlePriority c = 256 := by
  rw [idlePriority, h]

theorem idlePriority_of_group {c : Config} (h : c.preemptField = .group) : idlePriority c = 16 := by
  rw [idlePriority, h]

/-- The take step of a source is enabled when it is `best`, nothing inhibits it and its `pre` is below `CUR`
(R204, R205). -/
theorem takeable_eq_some_iff (s : State) (b : Nat) :
    takeable s = some b ↔
      best s = some b ∧ s.irqInhibit = false ∧ preValue s b < currentPriority s := by
  refine ⟨takeable_eq_some, fun ⟨hb, hi, hp⟩ => ?_⟩
  unfold takeable
  rw [hb]
  simp [hi, hp]

/-- Which take step is enabled does not depend on the schedule. -/
theorem takeable_dropScheduled (s : State) : takeable (dropScheduled s) = takeable s := by
  unfold takeable
  rw [best_dropScheduled]
  cases best s <;> rfl

theorem takeStep_of_takeable {s : State} {b : Nat} (h : takeable s = some b) :
    takeStep s = takeTrap b s := by
  unfold takeStep; rw [h]

theorem takeStep_of_not_takeable {s : State} (h : takeable s = none) : takeStep s = s := by
  unfold takeStep; rw [h]

/-- No take step is enabled under inhibit, without a candidate, or when `pre` of `best` is not below the main
context's priority and that of every source in service (R203 to R205). -/
theorem takeable_eq_none {s : State}
    (h : s.irqInhibit = true ∨ best s = none ∨
      ∃ b, best s = some b ∧
        (idlePriority s.cfg ≤ preValue s b ∨ ∃ j ∈ nest s, preValue s j ≤ preValue s b)) :
    takeable s = none := by
  rw [Option.eq_none_iff_forall_ne_some]
  intro a ha
  obtain ⟨hbest, hinhibit, hpre⟩ := takeable_eq_some ha
  obtain ⟨hidle, hnest⟩ := (lt_currentPriority s _).mp hpre
  obtain h | h | ⟨b, hb, hb'⟩ := h
  · rw [hinhibit] at h; cases h
  · rw [hbest] at h; cases h
  · rw [hbest] at hb; cases hb
    obtain hle | ⟨j, hj, hle⟩ := hb'
    · exact absurd hidle hle.not_gt
    · exact absurd (hnest j hj) hle.not_gt

/-- Settles O55: the step is the take step, enabled exactly when `best` is below `CUR`, a minimum. -/
theorem takeNeedsStrictlyMoreUrgentSource : Obligations.TakeNeedsStrictlyMoreUrgentSource := by
  intro s rest hn
  have hstep := step_event hn nofun
  have htake : takeable { s with schedule := rest } = takeable s :=
    dropScheduled_eq hn.1 ▸ takeable_dropScheduled s
  refine ⟨hwSubWidth s.icGroupSel, idlePriority s.cfg, preValue s, hwSubWidth_of_le,
    fun h => ⟨idlePriority_of_full h, preValue_of_full h⟩,
    fun h => ⟨idlePriority_of_group h, preValue_of_group h⟩, fun b hi hb hidle hnest => ?_,
    fun h => ?_⟩
  · have hcur := (lt_currentPriority s _).mpr ⟨hidle, hnest⟩
    have htakes := htake.trans ((takeable_eq_some_iff s b).mpr ⟨hb, hi, hcur⟩)
    rw [agentStep, takeStep_of_takeable htakes] at hstep
    exact hstep
  · have hnone := htake.trans (takeable_eq_none h)
    rw [agentStep, takeStep_of_not_takeable hnone] at hstep
    exact hstep

/-- Settles O60: with nothing scheduled the block's own agents step, an enabled take first. -/
theorem enabledTakeOccursWhenNothingIsScheduled :
    Obligations.EnabledTakeOccursWhenNothingIsScheduled := by
  intro s b hsched hreset htake
  have hown : ownStep s = takeTrap b s := by
    simp [ownStep, hreset, htake, takeStep_of_takeable htake]
  exact ⟨hown ▸ step_of_nothing (fetch_of_schedule_nil hsched),
    bestBelow_spec (takeable_eq_some htake).1⟩

end Sys2Proof.Machine
end

section
/-! The statements of taking a trap and of returning from one. -/

namespace Sys2Proof.Machine

/-! ### The lines of a source and its handler body -/

theorem mem_linesOf_iff (c : Config) (i l : Nat) : l ∈ linesOf c i ↔ ∃ h : l < 16, c.eirSrc[l] = i := by
  rw [linesOf, List.mem_filter, List.mem_range, beq_iff_eq, eirSource, ← exists_prop]
  exact exists_congr fun h => by rw [Vector.getElem?_eq_getElem h, Option.getD_some]

theorem pairwise_lt_linesOf (c : Config) (i : Nat) : (linesOf c i).Pairwise (· < ·) :=
  List.pairwise_lt_range.filter _

/-- The four kinds of handler body, by the owner of the source (R196, R210 to R212, R214). -/
theorem handlerBody_cases (c : Config) (i : Nat) :
    (linesOf c i = [] ∧ i = c.stsSrc ∧ handlerBody c i = [.stsStart]) ∨
      (linesOf c i = [] ∧ i ≠ c.stsSrc ∧ handlerBody c i = [.foreign]) ∨
      (∃ l, linesOf c i = [l] ∧ handlerBody c i = [.lineStart l]) ∨
      (2 ≤ (linesOf c i).length ∧ handlerBody c i = [.group (linesOf c i)]) := by
  unfold handlerBody
  match linesOf c i with
  | [] =>
    by_cases h : i = c.stsSrc
    · exact .inl ⟨rfl, h, if_pos h⟩
    · exact .inr (.inl ⟨rfl, h, if_neg h⟩)
  | [l] => exact .inr (.inr (.inl ⟨l, rfl, rfl⟩))
  | l :: m :: ls => exact .inr (.inr (.inr ⟨Nat.le_add_left 2 ls.length, rfl⟩))

section
variable (c : Config) (i : Nat)

theorem handlerBody_eq_stsStart_iff :
    handlerBody c i = [.stsStart] ↔ linesOf c i = [] ∧ i = c.stsSrc := by
  obtain ⟨hl, hi, hb⟩ | ⟨hl, hi, hb⟩ | ⟨l, hl, hb⟩ | ⟨hl, hb⟩ := handlerBody_cases c i <;>
    rw [hb]
  · exact iff_of_true rfl ⟨hl, hi⟩
  · exact iff_of_false (by simp) fun h => hi h.2
  · simp [hl]
  · exact iff_of_false (by simp) fun h => by simp [h.1] at hl

theorem handlerBody_eq_foreign_iff :
    handlerBody c i = [.foreign] ↔ linesOf c i = [] ∧ i ≠ c.stsSrc := by
  obtain ⟨hl, hi, hb⟩ | ⟨hl, hi, hb⟩ | ⟨l, hl, hb⟩ | ⟨hl, hb⟩ := handlerBody_cases c i <;>
    rw [hb]
  · exact iff_of_false (by simp) fun h => h.2 hi
  · exact iff_of_true rfl ⟨hl, hi⟩
  · simp [hl]
  · exact iff_of_false (by simp) fun h => by simp [h.1] at hl

theorem handlerBody_eq_lineStart_iff (l : Nat) :
    handlerBody c i = [.lineStart l] ↔ linesOf c i = [l] := by
  obtain ⟨hl, -, hb⟩ | ⟨hl, -, hb⟩ | ⟨k, hl, hb⟩ | ⟨hl, hb⟩ := handlerBody_cases c i <;>
    rw [hb]
  · simp [hl]
  · simp [hl]
  · simp [hl]
  · exact iff_of_false (by simp) fun h => by simp [h] at hl

theorem handlerBody_eq_group_iff (ls : List Nat) :
    handlerBody c i = [.group ls] ↔ linesOf c i = ls ∧ 2 ≤ ls.length := by
  obtain ⟨hl, -, hb⟩ | ⟨hl, -, hb⟩ | ⟨l, hl, hb⟩ | ⟨hl, hb⟩ := handlerBody_cases c i <;>
    rw [hb]
  · exact iff_of_false (by simp) fun ⟨he, h⟩ => by simp [← he, hl] at h
  · exact iff_of_false (by simp) fun ⟨he, h⟩ => by simp [← he, hl] at h
  · exact iff_of_false (by simp) fun ⟨he, h⟩ => by simp [← he, hl] at h
  · simp only [List.cons.injEq, Frame.group.injEq, and_true]
    exact ⟨fun he => ⟨he, he ▸ hl⟩, And.left⟩

end

/-- The context of an entered handler: its body at its start (R42, R209). -/
theorem ctx_takeTrap (i : Nat) (s : State) : ctx (takeTrap i s) = ⟨.idle, handlerBody s.cfg i⟩ := rfl

/-- Settles O56: the fields that the take writes, and the entered handler's body by its owner. -/
theorem takingATrap : Obligations.TakingATrap := by
  refine ⟨fun c i => ⟨pairwise_lt_linesOf c i, mem_linesOf_iff c i⟩, fun s i _ => ?_⟩
  rw [ctx_takeTrap]
  exact ⟨rfl, fun j _ => getLsbD_setBit_false s.icPending i j, getLsbD_setBit_true s.icActive i,
    nest_takeTrap i s, rfl, rfl, handlerBody_eq_stsStart_iff s.cfg i,
    handlerBody_eq_foreign_iff s.cfg i, handlerBody_eq_lineStart_iff s.cfg i,
    handlerBody_eq_group_iff s.cfg i⟩

/-! ### Returning from a trap -/

theorem exitStep_of_finished {s : State} {i : Nat} {hs : List Handler}
    (h : s.handlers = ⟨i, Ctx.start⟩ :: hs) : exitStep s = exitTrap i s := by
  simp only [exitStep, exitable, h, if_true]

/-- What an exit writes: the active bit, the nesting, the event, and the pending bits of R200. -/
theorem exitTrap_eq (i : Nat) (s : State) :
    exitTrap i s = { s with
      icActive := setBit s.icActive i false
      icPending := (exitTrap i s).icPending
      handlers := s.handlers.tail
      outputs := .exit i :: s.outputs } := rfl

/-- After an exit the pend step has seen the cleared active bit: the source itself is pended again when its
request is high (R200). -/
theorem getLsbD_exitTrap_icPending (i : Nat) (s : State) {j : Nat} (hj : j < 240) :
    (exitTrap i s).icPending.getLsbD j =
      (s.icPending.getLsbD j || (requestHigh s j && !(exitTrap i s).icActive.getLsbD j)) :=
  getLsbD_pendLevels _ j hj

/-- Settles O57: the scheduled exit is enabled for the finished innermost handler. -/
theorem returningFromATrap : Obligations.ReturningFromATrap := by
  intro s i hs rest hn hh
  have hstep := step_event hn nofun
  rw [agentStep, exitStep_of_finished (s := { s with schedule := rest }) hh] at hstep
  refine ⟨_, hstep, ?_, fun j _ => ?_, fun j hj => ?_⟩
  · rw [settle_icActive, settle_icPending, exitTrap_eq, hh]; rfl
  · rw [settle_icActive]
    exact getLsbD_setBit_false s.icActive i j
  · rw [settle_icActive, settle_icPending]
    exact getLsbD_exitTrap_icPending i { s with schedule := rest } hj

end Sys2Proof.Machine
end
